-- ==== Sys2Proof/Word.lean ====
section
/-! DEFINITION. The word types of the host interface and the operand types that the operation word's fields stand for. -/

namespace Sys2Proof

/-- A host port word or operation word: 32 bits (R2, R54). -/
abbrev Word := BitVec 32

/-- A byte of the link (R6: 8 bits per link transfer). -/
abbrev Byte := BitVec 8

/-- The bit order `sr.mode`: 0 natural, 1 inverse (R24). -/
inductive BitOrder where
  | natural
  | inverse
  deriving DecidableEq, Repr

/-- The personality `sr.ord`: 0 base, 1 ordered (R20). -/
inductive Personality where
  | base
  | ordered
  deriving DecidableEq, Repr

/-- The register class CLASS of a command: 1 RAM, 0 RTC (R56). -/
inductive RegClass where
  | rtc
  | ram
  deriving DecidableEq, Repr

/-- The direction bit RW of a command byte: 1 read, 0 write (R62). -/
inductive Rw where
  | write
  | read
  deriving DecidableEq, Repr

/-- The MODE bit of a bit order (R56). -/
def BitOrder.toBit : BitOrder → Bool
  | .natural => false
  | .inverse => true

/-- The bit order a MODE bit names (R56). -/
def BitOrder.ofBit : Bool → BitOrder
  | false => .natural
  | true => .inverse

/-- The ORD bit of a personality (R56). -/
def Personality.toBit : Personality → Bool
  | .base => false
  | .ordered => true

/-- The personality an ORD bit names (R56). -/
def Personality.ofBit : Bool → Personality
  | false => .base
  | true => .ordered

/-- The CLASS bit of a register class (R56). -/
def RegClass.toBit : RegClass → Bool
  | .rtc => false
  | .ram => true

/-- The register class a CLASS bit names (R56). -/
def RegClass.ofBit : Bool → RegClass
  | false => .rtc
  | true => .ram

/-- The RW bit of a command direction (R62). -/
def Rw.toBit : Rw → Bool
  | .write => false
  | .read => true

end Sys2Proof
end

