-- ==== Sys2Proof/Syntax.lean ====
section
/-! DEFINITION. The instructions: one constructor for each row of the opcode table (R57 and R62). -/

namespace Sys2Proof

/-- One operation of the block, or one command byte of the link. The operand types are exactly the fields of
R55 and R62, so every term stands for one encoding. -/
inductive Instr where
  /-- SR.CONFIG (R66): capacity, bit order, personality. -/
  | srConfig (cap : BitVec 16) (mode : BitOrder) (ord : Personality)
  /-- SR.LOAD (R67): the bit to load. -/
  | srLoad (bit : Bool)
  /-- SR.COMMIT (R68). -/
  | srCommit
  /-- SR.CLEAR (R69). -/
  | srClear
  /-- SR.ISFULL (R70). -/
  | srIsfull
  /-- LINK.CONFIG (R80): the pulse duration in ns. -/
  | linkConfig (pulse : BitVec 24)
  /-- LINK.ENABLE (R81). -/
  | linkEnable
  /-- LINK.DISABLE (R82). -/
  | linkDisable
  /-- LINK.TX (R83): the byte to send. -/
  | linkTx (data : Byte)
  /-- LINK.RX (R84). -/
  | linkRx
  /-- LINK.ISEN (R85). -/
  | linkIsen
  /-- CMD.WRITE (R89): register class, register index, byte to write. -/
  | cmdWrite (cls : RegClass) (index : BitVec 5) (value : Byte)
  /-- CMD.READ (R90): register class, register index. -/
  | cmdRead (cls : RegClass) (index : BitVec 5)
  /-- ERR.CLEAR (R94). -/
  | errClear
  /-- CMDBYTE.WRITE_RAM (R62, R88): the wire byte that announces a RAM write. -/
  | cmdbyteWriteRam (index : BitVec 5)
  /-- CMDBYTE.READ_RAM (R62, R88): the wire byte that announces a RAM read. -/
  | cmdbyteReadRam (index : BitVec 5)
  /-- CMDBYTE.WRITE_RTC (R62, R88): the wire byte that announces an RTC write. -/
  | cmdbyteWriteRtc (index : BitVec 5)
  /-- CMDBYTE.READ_RTC (R62, R88): the wire byte that announces an RTC read. -/
  | cmdbyteReadRtc (index : BitVec 5)
  deriving DecidableEq, Repr

end Sys2Proof
end

