-- ==== Sys2Proof/WellFormed.lean ====
section
/-! DEFINITION. Well-formedness: the assembler lines of R60 and R61 with the range checks an assembler makes, and
the instructions, which their operand types keep well formed. -/

namespace Sys2Proof

/-- One line of the assembler syntax (R60) or a pseudo-instruction (R61). Numbers are as written, so a line can
hold a number that does not fit its field. -/
inductive AsmLine where
  | srConfig (cap : Nat) (mode : BitOrder) (ord : Personality)
  | srLoad (bit : Nat)
  | srCommit
  | srClear
  | srIsfull
  | linkConfig (ns : Nat)
  | linkEnable
  | linkDisable
  | linkTx (byte : Nat)
  | linkRx
  | linkIsen
  | cmdWrite (cls : RegClass) (index byte : Nat)
  | cmdRead (cls : RegClass) (index : Nat)
  | errClear
  | writeRam (index byte : Nat)
  | readRam (index : Nat)
  | writeRtc (index byte : Nat)
  | readRtc (index : Nat)
  deriving DecidableEq, Repr

/-- The assembler's check (R60): an operand that does not fit its field is rejected (cap > 65535, ns > 16777215,
byte > 255, index > 31, a bit other than 0 or 1). Values a field holds but an operation refuses pass. -/
def AsmLine.wellFormed : AsmLine → Bool
  | .srConfig cap _ _ => decide (cap ≤ 65535)
  | .srLoad bit => decide (bit ≤ 1)
  | .linkConfig ns => decide (ns ≤ 16777215)
  | .linkTx byte => decide (byte ≤ 255)
  | .cmdWrite _ index byte => decide (index ≤ 31) && decide (byte ≤ 255)
  | .cmdRead _ index => decide (index ≤ 31)
  | .writeRam index byte => decide (index ≤ 31) && decide (byte ≤ 255)
  | .readRam index => decide (index ≤ 31)
  | .writeRtc index byte => decide (index ≤ 31) && decide (byte ≤ 255)
  | .readRtc index => decide (index ≤ 31)
  | .srCommit | .srClear | .srIsfull | .linkEnable | .linkDisable | .linkRx | .linkIsen | .errClear => true

/-- The operand values of an instruction with the largest value each field of R55 or R62 can hold. -/
def Instr.operandBounds : Instr → List (Nat × Nat)
  | .srConfig cap _ _ => [(cap.toNat, 65535)]
  | .srLoad bit => [(bit.toNat, 1)]
  | .linkConfig pulse => [(pulse.toNat, 16777215)]
  | .linkTx data => [(data.toNat, 255)]
  | .cmdWrite _ index value => [(index.toNat, 31), (value.toNat, 255)]
  | .cmdRead _ index => [(index.toNat, 31)]
  | .cmdbyteWriteRam index => [(index.toNat, 31)]
  | .cmdbyteReadRam index => [(index.toNat, 31)]
  | .cmdbyteWriteRtc index => [(index.toNat, 31)]
  | .cmdbyteReadRtc index => [(index.toNat, 31)]
  | .srCommit | .srClear | .srIsfull | .linkEnable | .linkDisable | .linkRx | .linkIsen | .errClear => []

/-- An instruction is well formed when every operand fits its field (R55, R56). The operand types ensure it:
Laws/PerInstr.lean shows it for each constructor. -/
def Instr.wellFormed (i : Instr) : Bool := i.operandBounds.all fun b => decide (b.1 ≤ b.2)

end Sys2Proof
end

