-- ==== Sys2Proof/Decode.lean ====
section
/-! DEFINITION. The decoder (R54 to R59 for operation words, R62 for wire command bytes), the encoder written from the
same tables, the assembler (R60, R61), and the host's view of the decoder. -/

namespace Sys2Proof

/-- Why a code is not an instruction. Every one of the first two completes an operation with ILLEGAL (R59). -/
inductive DecodeError where
  /-- The opcode byte is in no row of R57. -/
  | unlistedOpcode (opc : Byte)
  /-- The opcode byte is listed and a bit that its layout marks 0 is 1. -/
  | reservedBitSet (opc : Byte) (w : Word)
  /-- The byte is none that R88 forms (its bit 7 is 0). -/
  | notACommandByte (b : Byte)
  /-- Neither four bytes (an operation word) nor one (a wire byte). -/
  | wrongLength (n : Nat)
  deriving DecidableEq, Repr

/-- What is encoded: an operation word for CMD (R54), or a command byte for the wire (R62). -/
inductive Code where
  | word (w : Word)
  | wire (b : Byte)
  deriving DecidableEq, Repr

/-- CAP = w[23:8] (R55). -/
def fieldCap (w : Word) : BitVec 16 := w.extractLsb' 8 16
/-- MODE = w[24] (R55). -/
def fieldMode (w : Word) : BitOrder := .ofBit (w.getLsbD 24)
/-- ORD = w[25] (R55). -/
def fieldOrd (w : Word) : Personality := .ofBit (w.getLsbD 25)
/-- BIT = w[8] (R55). -/
def fieldBit (w : Word) : Bool := w.getLsbD 8
/-- PULSE = w[31:8] (R55). -/
def fieldPulse (w : Word) : BitVec 24 := w.extractLsb' 8 24
/-- DATA and VALUE = w[15:8] (R55). -/
def fieldByte (w : Word) : Byte := w.extractLsb' 8 8
/-- INDEX = w[20:16] (R55). -/
def fieldIndex (w : Word) : BitVec 5 := w.extractLsb' 16 5
/-- CLASS = w[24] (R55). -/
def fieldClass (w : Word) : RegClass := .ofBit (w.getLsbD 24)
/-- OPC = w[7:0] (R54). -/
def fieldOpc (w : Word) : Byte := w.extractLsb' 0 8

/-- One row of the opcode map: selected by `(w & mask) == match` (R57). -/
structure OpRow where
  mnemonic : String
  pattern : Word
  mask : Word
  build : Word → Instr

/-- The opcode map of R57, row by row. -/
def opTable : List OpRow :=
  [ ⟨"SR.CONFIG", 0x00000001, 0xFC0000FF, fun w => .srConfig (fieldCap w) (fieldMode w) (fieldOrd w)⟩,
    ⟨"SR.LOAD", 0x00000002, 0xFFFFFEFF, fun w => .srLoad (fieldBit w)⟩,
    ⟨"SR.COMMIT", 0x00000003, 0xFFFFFFFF, fun _ => .srCommit⟩,
    ⟨"SR.CLEAR", 0x00000004, 0xFFFFFFFF, fun _ => .srClear⟩,
    ⟨"SR.ISFULL", 0x00000005, 0xFFFFFFFF, fun _ => .srIsfull⟩,
    ⟨"LINK.CONFIG", 0x00000010, 0x000000FF, fun w => .linkConfig (fieldPulse w)⟩,
    ⟨"LINK.ENABLE", 0x00000011, 0xFFFFFFFF, fun _ => .linkEnable⟩,
    ⟨"LINK.DISABLE", 0x00000012, 0xFFFFFFFF, fun _ => .linkDisable⟩,
    ⟨"LINK.TX", 0x00000013, 0xFFFF00FF, fun w => .linkTx (fieldByte w)⟩,
    ⟨"LINK.RX", 0x00000014, 0xFFFFFFFF, fun _ => .linkRx⟩,
    ⟨"LINK.ISEN", 0x00000015, 0xFFFFFFFF, fun _ => .linkIsen⟩,
    ⟨"CMD.WRITE", 0x00000020, 0xFEE000FF, fun w => .cmdWrite (fieldClass w) (fieldIndex w) (fieldByte w)⟩,
    ⟨"CMD.READ", 0x00000021, 0xFEE0FFFF, fun w => .cmdRead (fieldClass w) (fieldIndex w)⟩,
    ⟨"ERR.CLEAR", 0x00000030, 0xFFFFFFFF, fun _ => .errClear⟩ ]

/-- `(w & mask) == match` (R57). -/
def OpRow.selects (r : OpRow) (w : Word) : Bool := (w &&& r.mask) == r.pattern

/-- The reason a word selects no row (R59). -/
def illegalReason (w : Word) : DecodeError :=
  if opTable.any fun r => fieldOpc r.pattern == fieldOpc w then .reservedBitSet (fieldOpc w) w
  else .unlistedOpcode (fieldOpc w)

/-- Decoding of an operation word (R58). -/
def decodeWord (w : Word) : Except DecodeError Instr :=
  match opTable.find? fun r => r.selects w with
  | some r => .ok (r.build w)
  | none => .error (illegalReason w)

/-- INDEX = byte[5:1] of a command byte (R62). -/
def wireIndex (b : Byte) : BitVec 5 := b.extractLsb' 1 5

/-- Reading of a wire command byte: each row is selected by `(byte & 0xC1) == base` (R62). The block itself never
does this (R3); it is the peripheral's reading of the byte. -/
def decodeWire (b : Byte) : Except DecodeError Instr :=
  if b &&& 0xC1 == 0xC0 then .ok (.cmdbyteWriteRam (wireIndex b))
  else if b &&& 0xC1 == 0xC1 then .ok (.cmdbyteReadRam (wireIndex b))
  else if b &&& 0xC1 == 0x80 then .ok (.cmdbyteWriteRtc (wireIndex b))
  else if b &&& 0xC1 == 0x81 then .ok (.cmdbyteReadRtc (wireIndex b))
  else .error (.notACommandByte b)

/-- Decoding of either kind of code. -/
def decode : Code → Except DecodeError Instr
  | .word w => decodeWord w
  | .wire b => decodeWire b

/-- The code that bytes, first at the lowest address, make up: byte lane i carries bits [8i+7:8i] of a word (R39). -/
def codeOfBytes : List Byte → Except DecodeError Code
  | [b] => .ok (.wire b)
  | [b0, b1, b2, b3] => .ok (.word (b3 ++ b2 ++ b1 ++ b0))
  | bs => .error (.wrongLength bs.length)

/-- Decoding of any bytes. -/
def decodeBytes (bs : List Byte) : Except DecodeError Instr :=
  match codeOfBytes bs with
  | .ok c => decode c
  | .error e => .error e

/-- A layout with no operands: OPC alone (R55, L-NONE). -/
def wordNone (opc : Byte) : Word := (0 : BitVec 24) ++ opc

/-- A wire command byte, field by field (R62): 1, CLASS, INDEX, RW. -/
def wireByte (cls : RegClass) (rw : Rw) (index : BitVec 5) : Byte :=
  (1 : BitVec 1) ++ BitVec.ofBool cls.toBit ++ index ++ BitVec.ofBool rw.toBit

/-- The code of an instruction, from the layouts of R55, the opcodes of R57 and the byte of R62. -/
def encode : Instr → Code
  | .srConfig cap mode ord =>
      .word ((0 : BitVec 6) ++ BitVec.ofBool ord.toBit ++ BitVec.ofBool mode.toBit ++ cap ++ (0x01 : Byte))
  | .srLoad bit => .word ((0 : BitVec 23) ++ BitVec.ofBool bit ++ (0x02 : Byte))
  | .srCommit => .word (wordNone 0x03)
  | .srClear => .word (wordNone 0x04)
  | .srIsfull => .word (wordNone 0x05)
  | .linkConfig pulse => .word (pulse ++ (0x10 : Byte))
  | .linkEnable => .word (wordNone 0x11)
  | .linkDisable => .word (wordNone 0x12)
  | .linkTx data => .word ((0 : BitVec 16) ++ data ++ (0x13 : Byte))
  | .linkRx => .word (wordNone 0x14)
  | .linkIsen => .word (wordNone 0x15)
  | .cmdWrite cls index value =>
      .word ((0 : BitVec 7) ++ BitVec.ofBool cls.toBit ++ (0 : BitVec 3) ++ index ++ value ++ (0x20 : Byte))
  | .cmdRead cls index =>
      .word ((0 : BitVec 7) ++ BitVec.ofBool cls.toBit ++ (0 : BitVec 3) ++ index ++ (0 : Byte) ++ (0x21 : Byte))
  | .errClear => .word (wordNone 0x30)
  | .cmdbyteWriteRam index => .wire (wireByte .ram .write index)
  | .cmdbyteReadRam index => .wire (wireByte .ram .read index)
  | .cmdbyteWriteRtc index => .wire (wireByte .rtc .write index)
  | .cmdbyteReadRtc index => .wire (wireByte .rtc .read index)

/-- The bytes of a code, lowest address first (R39). -/
def Code.bytes : Code → List Byte
  | .word w => [w.extractLsb' 0 8, w.extractLsb' 8 8, w.extractLsb' 16 8, w.extractLsb' 24 8]
  | .wire b => [b]

/-- The operation an assembler line stands for, with its numbers cut to their fields (R60, R61). -/
def AsmLine.toInstr : AsmLine → Instr
  | .srConfig cap mode ord => .srConfig (.ofNat 16 cap) mode ord
  | .srLoad bit => .srLoad (bit % 2 == 1)
  | .srCommit => .srCommit
  | .srClear => .srClear
  | .srIsfull => .srIsfull
  | .linkConfig ns => .linkConfig (.ofNat 24 ns)
  | .linkEnable => .linkEnable
  | .linkDisable => .linkDisable
  | .linkTx byte => .linkTx (.ofNat 8 byte)
  | .linkRx => .linkRx
  | .linkIsen => .linkIsen
  | .cmdWrite cls index byte => .cmdWrite cls (.ofNat 5 index) (.ofNat 8 byte)
  | .cmdRead cls index => .cmdRead cls (.ofNat 5 index)
  | .errClear => .errClear
  | .writeRam index byte => .cmdWrite .ram (.ofNat 5 index) (.ofNat 8 byte)
  | .readRam index => .cmdRead .ram (.ofNat 5 index)
  | .writeRtc index byte => .cmdWrite .rtc (.ofNat 5 index) (.ofNat 8 byte)
  | .readRtc index => .cmdRead .rtc (.ofNat 5 index)

/-- Assembly of one line: a line with an operand that does not fit its field is rejected (R60). -/
def assemble (l : AsmLine) : Option Code := if l.wellFormed then some (encode l.toInstr) else none

/-- The code the opcode table's bits stand for: a row of at most 8 bits whose bit 7 is 1 is a wire byte (R62 fixes
that bit at 1), every other row is an operation word whose bits above `nbits` are 0 (log 6). -/
def codeOfTableWord (nbits w : Nat) : Code :=
  if nbits ≤ 8 && (BitVec.ofNat 8 w).msb then .wire (.ofNat 8 w) else .word (.ofNat 32 w)

/-- The instruction the decoder reads from an opcode-table row's bits, laid out as bytes, lowest address first. -/
def decodeTableWord (nbits w : Nat) : Option Instr :=
  match decodeBytes (codeOfTableWord nbits w).bytes with
  | .ok i => some i
  | .error _ => none

end Sys2Proof
end

