-- ==== Sys2Proof/Machine/Pins.lean ====
section
/-! DEFINITION. Pins, levels, directions, and the events of the pin trace (R8, R10 to R13, R27, R53). -/

namespace Sys2Proof.Machine

/-- A pin level: 0, 1 or X, the unknown level (R8). -/
inductive Level where
  | low
  | high
  | x
  deriving DecidableEq, Repr

/-- The level that a driven bit puts on a pin (R10). -/
def Level.ofBit : Bool → Level
  | false => .low
  | true => .high

/-- A direction that can be set: IN or OUT (R11). -/
inductive PinDir where
  | input
  | output
  deriving DecidableEq, Repr

/-- The direction L_DATA has: IN, OUT or X (R8, R25). -/
inductive DirState where
  | input
  | output
  | x
  deriving DecidableEq, Repr

/-- The direction state after a successful `SetDir` (R11). -/
def DirState.ofDir : PinDir → DirState
  | .input => .input
  | .output => .output

/-- The six pins (R27). -/
inductive Pin where
  | srData
  | srClk
  | srLatch
  | lClk
  | lCe
  | lData
  deriving DecidableEq, Repr

/-- The levels of the five output pins (R27). L_DATA's level is `link.dir` and `link.dout` (R25). -/
structure Pins where
  srData : Level
  srClk : Level
  srLatch : Level
  lClk : Level
  lCe : Level
  deriving DecidableEq, Repr

/-- One event of the pin trace (R53). -/
inductive Event where
  /-- `Drive(p, v)`: a successful drive (R10). -/
  | drive (p : Pin) (v : Bool)
  /-- `Dir(d)`: a successful direction change of L_DATA (R11). -/
  | dir (d : PinDir)
  /-- `Sample(v)`: a successful sample of L_DATA (R12). -/
  | sample (v : Bool)
  /-- `Wait(t)`: at least `ns` nanoseconds pass (R13). -/
  | wait (ns : Nat)
  /-- `Fail(p)`: a drive of `p` failed, or a sample for L_DATA (R10, R12). -/
  | fail (p : Pin)
  /-- `Fail(L_DATA_DIR)`: a direction change failed (R11). -/
  | failDir
  deriving DecidableEq, Repr

/-- Whether an event is a failed pin access (R10 to R12): a fault, after which every device's state is unknown (R119). -/
def Event.isFailure : Event → Bool
  | .fail _ | .failDir => true
  | _ => false

end Sys2Proof.Machine
end

