-- ==== Sys2Proof/Config.lean ====
section
/-! DEFINITION. What an instance of the block fixes (R6), and the free values: the environment's draws (R33) and the
value a read of RESULT returns before RESULT has one (R29). A free value has no body, so no proof can see it. -/

namespace Sys2Proof

/-- The parameters of an instance (R6). "A model takes each one as an argument": State carries them as data. -/
structure Params where
  /-- CAP_MAX, the largest legal capacity in bits. -/
  capMax : Nat
  /-- SR_PULSE_NS, the half-period of the shift-register clock pulse. -/
  srPulseNs : Nat
  /-- T_SETTLE, the pin settle time. No rule of the block reads it (R112, R113). -/
  tSettleNs : Nat
  /-- DEV_LEN, the stage length of the attached shift register (R34). -/
  devLen : Nat
  /-- BASE, the address of the port window (R37). -/
  base : Nat
  deriving DecidableEq, Repr

/-- The legal values of the parameters (R6, R37). -/
def Params.wf (p : Params) : Bool :=
  decide (1 ≤ p.capMax) && decide (p.capMax ≤ 65535) && decide (0 < p.srPulseNs) && decide (1 ≤ p.devLen)
    && decide (p.base % 64 = 0)

/-- The instance that State.reset is: DESIGN CHOICE, log 1 (unsafe: a claim about State.reset alone could lean on
these numbers; claims about every state do not). -/
def Params.reference : Params :=
  { capMax := 65535, srPulseNs := 1, tSettleNs := 0, devLen := 16, base := 0 }

namespace Config

/-- `env.ioFail(k)` of run `run`, which may depend on the trace before access k (R33). Free value, log 2. -/
opaque ioFail (run k : Nat) (trace : List Machine.Event) : Bool

/-- `env.sample(k)` of run `run`, which may depend on the trace before access k (R33). Free value, log 2. -/
opaque sample (run k : Nat) (trace : List Machine.Event) : Bool

/-- What the n-th read of RESULT in run `run` returns while RESULT has no value (R29, R40). Free value, log 3. -/
opaque unwrittenResult (run n : Nat) : Word

end Config

end Sys2Proof
end

