-- ==== Sys2Proof/Machine/Devices.lean ====
section
/-! DEFINITION. The reference devices on the far side of the pins: the attached shift register (R34), LOOPBACK and
RAMCHIP (R35). They are not part of the block. They watch the pin events; only their samples come back (log 8). -/

namespace Sys2Proof.Machine

/-- The reference shift register (R34): stage `dev.S` and outputs `dev.Q`, position 0 first. -/
structure Sipo where
  stage : List Level
  outs : List Level
  deriving DecidableEq, Repr

/-- A register of `n` positions as it is at power-on: all X (R34). -/
def Sipo.unknown (n : Nat) : Sipo := { stage := List.replicate n .x, outs := List.replicate n .x }

/-- Every position of a level list made X. -/
def allX (l : List Level) : List Level := l.map fun _ => .x

/-- One shift: position 0 takes SR_DATA, position k takes position k - 1 (R34). -/
def shiftIn (data : Level) (stage : List Level) : List Level := (data :: stage).take stage.length

/-- The effect of a successful drive of SR_CLK from `old` to `v` (R34): a rise shifts, and after X whether there was one
is unknown. -/
def Sipo.clkEvent (old : Level) (v : Bool) (data : Level) (d : Sipo) : Sipo :=
  match old, v with
  | .low, true => { d with stage := shiftIn data d.stage }
  | .x, true => { d with stage := allX d.stage }
  | _, _ => d

/-- The effect of a successful drive of SR_LATCH from `old` to `v` (R34): a rise moves the stage to the outputs, and
after X whether there was one is unknown. -/
def Sipo.latchEvent (old : Level) (v : Bool) (d : Sipo) : Sipo :=
  match old, v with
  | .low, true => { d with outs := d.stage }
  | .x, true => { d with outs := allX d.outs }
  | _, _ => d

/-- The register when its state is no longer known: after a failed access of any pin of the block, and after a reset that
abandoned an operation (R119, R109, 93 item 12; log 10). -/
def Sipo.forget (d : Sipo) : Sipo := { stage := allX d.stage, outs := allX d.outs }

/-- What the register makes of one event, given the pin levels before it (R34). A failed access, on whichever pin, leaves
its whole state unknown (R119: each device's state; 93 item 12), which includes what R34 says of an edge to X. -/
def Sipo.observe (pins : Pins) (e : Event) (d : Sipo) : Sipo :=
  match e with
  | .drive .srClk v => d.clkEvent pins.srClk v pins.srData
  | .drive .srLatch v => d.latchEvent pins.srLatch v
  | .fail _ | .failDir => d.forget
  | _ => d

/-- LOOPBACK (R35): the levels driven on L_DATA in the most recent clock-in, and how many samples the current
clock-out has taken. -/
structure Loopback where
  driven : List Bool
  next : Nat
  deriving DecidableEq, Repr

/-- What LOOPBACK makes of one event (R35). -/
def Loopback.observe (e : Event) (l : Loopback) : Loopback :=
  match e with
  | .dir .output => { l with driven := [] }
  | .drive .lData v => { l with driven := l.driven ++ [v] }
  | .dir .input => { l with next := 0 }
  | .sample _ => { l with next := l.next + 1 }
  | _ => l

/-- Where RAMCHIP is in its session (R35). -/
inductive ChipPhase where
  /-- No session: L_CE is low. -/
  | idle
  /-- In a session, before its first clock-in is complete. -/
  | command
  /-- A write command for this register: the next clock-in carries the byte. -/
  | store (index : BitVec 5)
  /-- A read command for this register: the next clock-out carries the byte. -/
  | fetch (index : BitVec 5)
  /-- In that clock-out: the byte and how many bits are out. -/
  | sending (b : Byte) (n : Nat)
  /-- Until the session ends the device drives nothing and takes nothing. -/
  | ignoring
  deriving DecidableEq, Repr

/-- RAMCHIP (R35): 32 bytes, the session's phase, and the bits of the current clock-in so far. -/
structure RamChip where
  ram : List Byte
  phase : ChipPhase
  bits : List Bool
  deriving DecidableEq, Repr

/-- The byte whose bits arrive least significant bit first (R48). -/
def byteOfBits : List Bool → Byte
  | [] => 0
  | b :: bs => (byteOfBits bs <<< (1 : Nat)) ||| (if b then 1 else 0)

/-- A complete clock-in byte (R35): a command in the first one of a session, the data after a write command. -/
def RamChip.takeByte (b : Byte) (c : RamChip) : RamChip :=
  match c.phase with
  | .command =>
      if b &&& 0xC1 = 0xC0 then { c with phase := .store (b.extractLsb' 1 5) }
      else if b &&& 0xC1 = 0xC1 then { c with phase := .fetch (b.extractLsb' 1 5) }
      else { c with phase := .ignoring }
  | .store index => { c with ram := c.ram.set index.toNat b, phase := .ignoring }
  | _ => c

/-- One level driven on L_DATA during a clock-in (R35): the eighth completes the byte. -/
def RamChip.takeBit (v : Bool) (c : RamChip) : RamChip :=
  let bits := c.bits ++ [v]
  if bits.length = 8 then { c with bits := bits }.takeByte (byteOfBits bits) else { c with bits := bits }

/-- The start of a clock-out (R35): after a read command the register's byte is sent. -/
def RamChip.startOut (c : RamChip) : RamChip :=
  match c.phase with
  | .fetch index =>
      match c.ram[index.toNat]? with
      | some b => { c with phase := .sending b 0 }
      | none => { c with phase := .ignoring }
  | _ => c

/-- One sample of a clock-out (R35). -/
def RamChip.sampled (c : RamChip) : RamChip :=
  match c.phase with
  | .sending b n => if n + 1 < 8 then { c with phase := .sending b (n + 1) } else { c with phase := .ignoring }
  | _ => c

/-- What RAMCHIP makes of one event, given L_CE before it (R35): a rise of L_CE opens a session, a repeated drive to
1 does not, a fall ends it. -/
def RamChip.observe (ce : Level) (e : Event) (c : RamChip) : RamChip :=
  match e with
  | .drive .lCe true => if ce = .high then c else { c with phase := .command, bits := [] }
  | .drive .lCe false => { c with phase := .idle, bits := [] }
  | .dir .output => { c with bits := [] }
  | .drive .lData v => c.takeBit v
  | .dir .input => c.startOut
  | .sample _ => c.sampled
  | _ => c

/-- The device on the link: none assumed (every sample is a free draw), or one of R35's reference environments. -/
inductive LinkDevice where
  | free
  | loopback (l : Loopback)
  | ramchip (c : RamChip)
  deriving DecidableEq, Repr

/-- The device when its state is no longer known (R119: after a fault a model must treat it as unknown): its samples
are free draws, LOOPBACK's until the next clock-in (log 10). -/
def LinkDevice.forget : LinkDevice → LinkDevice
  | .free => .free
  | .loopback _ => .loopback { driven := [], next := 0 }
  | .ramchip _ => .free

/-- What the device makes of one event, given L_CE before it. A failed access, on whichever pin, leaves its state unknown
(R119: each device's state; 93 item 12). -/
def LinkDevice.observe (ce : Level) (e : Event) (d : LinkDevice) : LinkDevice :=
  if e.isFailure then d.forget
  else
    match d with
    | .free => .free
    | .loopback l => .loopback (l.observe e)
    | .ramchip c => .ramchip (c.observe ce e)

/-- The bit the device puts on L_DATA for the next sample, where the device decides it (R35). -/
def LinkDevice.answer : LinkDevice → Option Bool
  | .free => none
  | .loopback l => l.driven[l.next]?
  | .ramchip c =>
      match c.phase with
      | .sending b n => some (b.getLsbD n)
      | _ => none

/-- The device after RST (R109): it is not reset, but L_CE falls, which ends RAMCHIP's session (R35); after an
abandoned operation its state is unknown (R119); LOOPBACK's last clock-in is gone with the trace (log 7). -/
def LinkDevice.onRst (abandoned : Bool) (d : LinkDevice) : LinkDevice :=
  if abandoned then d.forget
  else
    match d with
    | .free => .free
    | .loopback l => (LinkDevice.loopback l).forget
    | .ramchip c => .ramchip { c with phase := .idle, bits := [] }

end Sys2Proof.Machine
end

