-- ==== Sys2Proof/Machine/State.lean ====
section
/-! DEFINITION. The state: everything the spec gives the block (R19 to R36), the instance's parameters (R6), the
environment (R33 to R35), and the host's side of the port window (R37 to R43). Plain data throughout. -/

namespace Sys2Proof.Machine

/-- An error that `raise` ends an operation's body with (R14, R96). -/
inductive Err where
  | illegal
  | precondViolation
  | ioFault
  | linkNotReady
  deriving DecidableEq, Repr

/-- A completion code (R96). Codes 5 to 7 do not exist. -/
inductive Completion where
  | ok
  | illegal
  | precond
  | ioFault
  | notReady
  deriving DecidableEq, Repr

/-- The shift-register engine's elements (R19). -/
structure SrEngine where
  /-- `sr.cfg`: configured since reset. -/
  cfg : Bool
  /-- `sr.cap`: the capacity in bits. -/
  cap : BitVec 16
  /-- `sr.ord`: the personality (R20). -/
  ord : Personality
  /-- `sr.mode`: the bit order (R24). -/
  mode : BitOrder
  /-- `sr.brem`: the base engine's bitsRemaining. -/
  brem : BitVec 16
  /-- `sr.orem`: the ordered layer's bitsRemaining. -/
  orem : BitVec 16
  /-- `sr.buf`: the ordered buffer, first loaded bit first (R23). -/
  buf : List Bool
  deriving DecidableEq, Repr

/-- The serial link's elements (R25). -/
structure SerialLink where
  /-- `link.cfg`: configured since reset. -/
  cfg : Bool
  /-- `link.pulse`: the pulse duration in ns. -/
  pulse : BitVec 24
  /-- `link.te`: transferEnabled. -/
  te : Bool
  /-- `link.dir`: the direction of L_DATA. -/
  dir : DirState
  /-- `link.dout`: the level driven on L_DATA when the direction is OUT. -/
  dout : Level
  deriving DecidableEq, Repr

/-- What STATUS keeps of its own (R28): the code of the most recent operation and the sticky bits. Its other fields
are computed from the state when it is read (Flags.lean). -/
structure StatusBits where
  err : Completion
  seIll : Bool
  sePre : Bool
  seIo : Bool
  seNr : Bool
  deriving DecidableEq, Repr

/-- The environment's answer to one pin access (R33): whether it fails, and the bit it returns if it is a sample. -/
structure Draw where
  fail : Bool
  bit : Bool
  deriving DecidableEq, Repr

/-- The environment (R33 to R35): outside the block. `script` holds its draws for the first accesses of the run;
later accesses take the free values of Config (log 2). -/
structure Env where
  /-- How many times RST has started a new run: the model's own counter (log 2). -/
  run : Nat
  /-- The draw of access k is entry k, where there is one (log 2). -/
  script : List Draw
  /-- Reads of RESULT while it has no value: the model's own counter (log 3). -/
  resultReads : Nat
  /-- The attached shift register (R34). -/
  sipo : Sipo
  /-- The device on the link (R35). -/
  link : LinkDevice
  deriving DecidableEq, Repr

/-- A host access (R38): an address, a width in bytes, and for a write the word on the bus. -/
inductive Access where
  | read (addr width : Nat)
  | write (addr width : Nat) (value : Word)
  | fetch (addr : Nat)
  deriving DecidableEq, Repr

/-- What reaches the block from outside, in order of arrival (R41, R43). -/
inductive Input where
  /-- An access of the block's one host. -/
  | access (a : Access)
  /-- An access of a second host agent (R106). -/
  | secondHost (a : Access)
  /-- RST (R109). `during` is the operation word whose operation it abandons, if one was running; `draws` are the
  environment's answers to the first accesses of the run that starts. -/
  | rst (during : Option Word) (draws : List Draw)
  /-- The model's own input for the CMDBYTE rows: one command byte to be sent on the link. No host access does this
  (log 5). -/
  | wireByte (b : Byte)
  deriving DecidableEq, Repr

/-- The whole machine. -/
structure State where
  /-- The instance's parameters (R6); no step writes them. -/
  params : Params
  /-- The shift-register engine (R19). -/
  sr : SrEngine
  /-- The serial link (R25). -/
  link : SerialLink
  /-- The output pins (R27). -/
  pins : Pins
  /-- What STATUS keeps (R28). -/
  status : StatusBits
  /-- RESULT (R29): none while it has no value, which is the spec's own reset state. -/
  result : Option Word
  /-- The pin trace, oldest event first (R53). -/
  trace : List Event
  /-- The count of pin accesses since reset (R33, R109). -/
  accesses : Nat
  /-- The environment (R33 to R35). -/
  env : Env
  /-- The inputs that wait for the block, oldest first (R41). -/
  host : List Input
  /-- The words the host has read, oldest first. -/
  replies : List Word
  deriving DecidableEq, Repr

/-- How the machine stops with a fault. No operation does: all errors of the block are completion codes (R96). -/
inductive Fault where
  /-- Raised by serving a host access whose address is not in the block's 64-byte window (R37): the address is not
  one of the block's. Safe: the model stops, and the platform would route the access elsewhere (log 12). -/
  | outsideWindow (addr : Nat)
  deriving DecidableEq, Repr

/-- Why the machine refuses to go on. No operation is refused. -/
inductive Refusal where
  /-- The arm of an instruction without a meaning; no arm of this model answers it. Safe. -/
  | notModelled (mnemonic : String)
  /-- Raised by serving a host access in the window that is not a 32-bit access at a multiple of 4: R38 says a model
  refuses it. Safe. -/
  | undefinedAccess (addr width : Nat)
  /-- Raised by an instruction fetch from the window: R38 says it is refused the same way. Safe. -/
  | instructionFetch (addr : Nat)
  /-- Raised by an access of a second host agent: R106 says a model refuses it. Safe. -/
  | secondHost
  /-- Raised by the model's own wire-byte input when the byte is none that R88 forms (R62: its bit 7 is always 1).
  Safe (log 5). -/
  | notACommandByte (b : Byte)
  deriving DecidableEq, Repr

/-- The engine after reset (R36). -/
def SrEngine.reset : SrEngine :=
  { cfg := false, cap := 0, ord := .base, mode := .natural, brem := 0, orem := 0, buf := [] }

/-- The link after reset (R36). -/
def SerialLink.reset : SerialLink := { cfg := false, pulse := 0, te := false, dir := .input, dout := .low }

/-- The pins after reset: all low (R36). -/
def Pins.reset : Pins := { srData := .low, srClk := .low, srLatch := .low, lClk := .low, lCe := .low }

/-- STATUS's own bits after reset: code OK, no sticky bit (R36). -/
def StatusBits.reset : StatusBits := { err := .ok, seIll := false, sePre := false, seIo := false, seNr := false }

/-- The environment at power-on: the attached register unknown (R34), no reference device on the link, no draw
fixed (DESIGN CHOICE, log 2 and 8). -/
def Env.powerOn (p : Params) : Env :=
  { run := 0, script := [], resultReads := 0, sipo := .unknown p.devLen, link := .free }

/-- The state after reset of an instance in an environment (R36, R109), with the host's side as it stands. -/
def State.afterReset (p : Params) (e : Env) (host : List Input) (replies : List Word) : State :=
  { params := p, sr := .reset, link := .reset, pins := .reset, status := .reset, result := none, trace := [],
    accesses := 0, env := e, host := host, replies := replies }

/-- The machine right after power-on reset (R36): the reference instance (log 1), nothing waiting. -/
def State.reset : State := State.afterReset .reference (.powerOn .reference) [] []

end Sys2Proof.Machine
end

