-- ==== Sys2Proof/Machine/Operands.lean ====
section
/-! DEFINITION. The operand forms: the legality of the configuration operands (R66, R80), the bits of a byte on the
wire (R48), and the command byte (R88). -/

namespace Sys2Proof.Machine

/-- SR.CONFIG's check: `cap >= 1 and cap <= CAP_MAX` (R66). -/
def capLegal (p : Params) (cap : BitVec 16) : Bool := decide (1 ≤ cap.toNat) && decide (cap.toNat ≤ p.capMax)

/-- LINK.CONFIG's check: `ns >= 1` (R80). -/
def pulseLegal (ns : BitVec 24) : Bool := decide (1 ≤ ns.toNat)

/-- The bits of a byte in the order the link sends them: least significant first (R48). -/
def wireBits (b : Byte) : List Bool :=
  [b.getLsbD 0, b.getLsbD 1, b.getLsbD 2, b.getLsbD 3, b.getLsbD 4, b.getLsbD 5, b.getLsbD 6, b.getLsbD 7]

/-- `r | (v << i)`: the sampled bit put at its place in the byte (R78). -/
def placeBit (r : Byte) (i : Nat) (v : Bool) : Byte := r ||| ((if v then (1 : Byte) else 0) <<< i)

/-- `cmd_byte(class, rw, index)` (R88). -/
def cmdByte (cls : RegClass) (rw : Rw) (index : BitVec 5) : Byte :=
  let base : Byte := 0x80 ||| ((if cls.toBit then (1 : Byte) else 0) <<< 6) ||| (if rw.toBit then 1 else 0)
  base ||| (((index.setWidth 8) &&& 0x1F) <<< 1)

/-- `zext_32` of a byte (R7, R29). -/
def zextByte (b : Byte) : Word := b.setWidth 32

/-- `zext_32` of a flag (R29). -/
def zextFlag (b : Bool) : Word := if b then 1 else 0

end Sys2Proof.Machine
end

