-- ==== Sys2Proof/Machine/Flags.lean ====
section
/-! DEFINITION. The flags and the computed registers: REM and FULL (R22), STATUS (R28), SRCFG (R30), LINKCFG (R31),
the L_DATA pin (R27), and the update of the completion code and the sticky bits (R97). -/

namespace Sys2Proof.Machine

/-- REM, the host-visible bitsRemaining (R22). -/
def SrEngine.rem (e : SrEngine) : BitVec 16 :=
  if e.cfg then (match e.ord with | .base => e.brem | .ordered => e.orem) else 0

/-- FULL (R22). -/
def SrEngine.full (e : SrEngine) : Bool := e.cfg && e.rem == 0

/-- The number of a completion code (R96). -/
def Completion.code : Completion → BitVec 3
  | .ok => 0
  | .illegal => 1
  | .precond => 2
  | .ioFault => 3
  | .notReady => 4

/-- The completion code of an error (R96). -/
def Err.completion : Err → Completion
  | .illegal => .illegal
  | .precondViolation => .precond
  | .ioFault => .ioFault
  | .linkNotReady => .notReady

/-- STATUS.DIR (R28). -/
def SerialLink.dirOut (l : SerialLink) : Bool := l.dir == .output

/-- STATUS.DIRX (R28). -/
def SerialLink.dirUnknown (l : SerialLink) : Bool := l.dir == .x

/-- STATUS.PINX: one of the five output pins or `link.dout` is at X (R28). -/
def State.pinUnknown (s : State) : Bool :=
  s.pins.srData == .x || s.pins.srClk == .x || s.pins.srLatch == .x || s.pins.lClk == .x || s.pins.lCe == .x
    || s.link.dout == .x

/-- STATUS (R28), bit 31 first: REM, 0, PINX, DIRX, DIR, FULL, TE, LINK_CFG, SR_CFG, SE_NR, SE_IO, SE_PRE, SE_ILL,
0, ERR. -/
def State.statusWord (s : State) : Word :=
  s.sr.rem ++ (0 : BitVec 1) ++ BitVec.ofBool s.pinUnknown ++ BitVec.ofBool s.link.dirUnknown
    ++ BitVec.ofBool s.link.dirOut ++ BitVec.ofBool s.sr.full ++ BitVec.ofBool s.link.te
    ++ BitVec.ofBool s.link.cfg ++ BitVec.ofBool s.sr.cfg ++ BitVec.ofBool s.status.seNr
    ++ BitVec.ofBool s.status.seIo ++ BitVec.ofBool s.status.sePre ++ BitVec.ofBool s.status.seIll
    ++ (0 : BitVec 1) ++ s.status.err.code

/-- SRCFG (R30). -/
def State.srcfgWord (s : State) : Word :=
  (0 : BitVec 14) ++ BitVec.ofBool s.sr.ord.toBit ++ BitVec.ofBool s.sr.mode.toBit
    ++ (if s.sr.cfg then s.sr.cap else 0)

/-- LINKCFG (R31). -/
def State.linkcfgWord (s : State) : Word := (0 : BitVec 8) ++ (if s.link.cfg then s.link.pulse else 0)

/-- What the block does to the L_DATA pin (R27). -/
inductive DataPin where
  | driven (v : Level)
  | notDriven
  | unknown
  deriving DecidableEq, Repr

/-- L_DATA as the block leaves it (R27): driven to `link.dout` when OUT, not driven when IN, unknown when X. -/
def State.lData (s : State) : DataPin :=
  match s.link.dir with
  | .output => .driven s.link.dout
  | .input => .notDriven
  | .x => .unknown

/-- The status update of a completion (R97): the code is stored, and a code other than OK sets its sticky bit. -/
def StatusBits.complete (k : Completion) (b : StatusBits) : StatusBits :=
  match k with
  | .ok => { b with err := .ok }
  | .illegal => { b with err := .illegal, seIll := true }
  | .precond => { b with err := .precond, sePre := true }
  | .ioFault => { b with err := .ioFault, seIo := true }
  | .notReady => { b with err := .notReady, seNr := true }

end Sys2Proof.Machine
end

