-- ==== Sys2Proof/Machine/Ops.lean ====
section
/-! DEFINITION. The named operations every meaning is built from: the pin primitives (R10 to R13), the control
primitives (R14, R15), an operation's completion (R97, R100), and RST (R109). -/

namespace Sys2Proof.Machine

/-- How the body of an operation, or a part of it, ends (R14): done with a value, or an error raised. Either way the
state so far stands. -/
inductive Result (α : Type) where
  | done (a : α) (s : State)
  | raised (e : Err) (s : State)
  deriving DecidableEq, Repr

/-- The state at the end of a part, however it ended. -/
def Result.state {α : Type} : Result α → State
  | .done _ s => s
  | .raised _ s => s

/-- Sequencing: an error ends the body at once (R14). -/
def Result.andThen {α β : Type} (r : Result α) (k : α → State → Result β) : Result β :=
  match r with
  | .done a s => k a s
  | .raised e s => .raised e s

/-- `try A onerror B` (R14): B runs only when A raises, and A's error stands whatever B does (R98). -/
def Result.onError {α : Type} (r : Result α) (cleanup : State → Result Unit) : Result α :=
  match r with
  | .done a s => .done a s
  | .raised e s => .raised e (cleanup s).state

/-- `try A cleanup B` (R14): B always runs; A's error stands, else B's (R98). -/
def Result.cleanup {α : Type} (r : Result α) (cleanup : State → Result Unit) : Result α :=
  match r with
  | .done a s =>
      match cleanup s with
      | .done _ s' => .done a s'
      | .raised e s' => .raised e s'
  | .raised e s => .raised e (cleanup s).state

/-- `require c else raise E` (R15). -/
def require {α : Type} (c : Bool) (e : Err) (s : State) (k : State → Result α) : Result α :=
  if c then k s else .raised e s

/-- One event appended to the trace (R53). The devices see it with the pin levels before it (R34, R35). -/
def State.emit (e : Event) (s : State) : State :=
  { s with
    trace := s.trace ++ [e]
    env := { s.env with sipo := s.env.sipo.observe s.pins e, link := s.env.link.observe s.pins.lCe e } }

/-- A pin set to a level; for L_DATA the level is `link.dout` (R10, R25). -/
def State.setPin (p : Pin) (v : Level) (s : State) : State :=
  match p with
  | .srData => { s with pins := { s.pins with srData := v } }
  | .srClk => { s with pins := { s.pins with srClk := v } }
  | .srLatch => { s with pins := { s.pins with srLatch := v } }
  | .lClk => { s with pins := { s.pins with lClk := v } }
  | .lCe => { s with pins := { s.pins with lCe := v } }
  | .lData => { s with link := { s.link with dout := v } }

/-- `link.dir` set (R11, R25). -/
def State.setDirState (d : DirState) (s : State) : State := { s with link := { s.link with dir := d } }

/-- One more pin access (R33). -/
def State.countAccess (s : State) : State := { s with accesses := s.accesses + 1 }

/-- The draw `env.ioFail(k)` (R33): scripted, else a free value. -/
def Env.ioFail (e : Env) (k : Nat) (trace : List Event) : Bool :=
  match e.script[k]? with
  | some d => d.fail
  | none => Config.ioFail e.run k trace

/-- The draw `env.sample(k)` (R33): the attached device's bit where it decides it (R35), else scripted, else a free
value. -/
def Env.sampleBit (e : Env) (k : Nat) (trace : List Event) : Bool :=
  match e.link.answer with
  | some b => b
  | none =>
      match e.script[k]? with
      | some d => d.bit
      | none => Config.sample e.run k trace

/-- Whether the next pin access fails (R33). -/
def State.nextFails (s : State) : Bool := s.env.ioFail s.accesses s.trace

/-- `Drive(p, v)` (R10). -/
def drive (p : Pin) (v : Bool) (s : State) : Result Unit :=
  if s.nextFails then .raised .ioFault (((s.emit (.fail p)).setPin p .x).countAccess)
  else .done () (((s.emit (.drive p v)).setPin p (.ofBit v)).countAccess)

/-- `SetDir(d)` (R11). -/
def setDir (d : PinDir) (s : State) : Result Unit :=
  if s.nextFails then .raised .ioFault (((s.emit .failDir).setDirState .x).countAccess)
  else .done () (((s.emit (.dir d)).setDirState (.ofDir d)).countAccess)

/-- `Sample()` (R12). -/
def sample (s : State) : Result Bool :=
  if s.nextFails then .raised .ioFault ((s.emit (.fail .lData)).countAccess)
  else
    let v := s.env.sampleBit s.accesses s.trace
    .done v ((s.emit (.sample v)).countAccess)

/-- `Wait(t)` (R13). -/
def State.wait (ns : Nat) (s : State) : State := s.emit (.wait ns)

/-- `RESULT <- v` (R29). -/
def State.setResult (v : Word) (s : State) : State := { s with result := some v }

/-- The completion of an operation with code k, the error "entry" of R100 when k is not OK: the status update of R97
and nothing else. There is no vector, no saved pc and no mask (R100), and nothing to return from (R101). -/
def State.complete (k : Completion) (s : State) : State := { s with status := s.status.complete k }

/-- An operation whose body has ended: the next state, with the completion code (R96, R97). -/
def finish (r : Result Unit) : Host.Outcome State Fault Refusal :=
  match r with
  | .done _ s => .next (s.complete .ok)
  | .raised e s => .next (s.complete e.completion)

/-- The environment when RST starts a new run (R109): the counts restart, the devices are not reset, and the devices of
an abandoned operation are unknown (R119, log 7). -/
def Env.onRst (abandoned : Bool) (draws : List Draw) (e : Env) : Env :=
  { run := e.run + 1
    script := draws
    resultReads := 0
    sipo := if abandoned then e.sipo.forget else e.sipo
    link := e.link.onRst abandoned }

/-- RST (R109): every element takes its reset value, an operation in progress runs no cleanup and reports no code, and
what the host has waiting stays waiting. -/
def State.rst (abandoned : Bool) (draws : List Draw) (s : State) : State :=
  State.afterReset s.params (s.env.onRst abandoned draws) s.host s.replies

end Sys2Proof.Machine
end

