-- ==== Sys2Proof/Machine/SerialLink.lean ====
section
/-! DEFINITION. The three-wire link: the internal sequences R74 to R79 and the operations LINK.CONFIG, LINK.ENABLE,
LINK.DISABLE, LINK.TX, LINK.RX and LINK.ISEN (R80 to R85). -/

namespace Sys2Proof.Machine

/-- `Wait(P)` with P = link.pulse (R74). -/
def State.waitLink (s : State) : State := s.wait s.link.pulse.toNat

/-- `link.te <- v`. -/
def State.setTe (v : Bool) (s : State) : State := { s with link := { s.link with te := v } }

/-- `clock_pulse()` (R74). -/
def clockPulse (s : State) : Result Unit :=
  (drive .lClk true s).andThen fun _ s =>
  (drive .lClk false s.waitLink).andThen fun _ s =>
  .done () s.waitLink

/-- `link_enable()` (R75). -/
def linkEnable (s : State) : Result Unit :=
  (drive .lClk false s).andThen fun _ s =>
  (drive .lCe true s.waitLink).andThen fun _ s =>
  .done () (s.waitLink.setTe true)

/-- `link_disable()` (R76). -/
def linkDisable (s : State) : Result Unit :=
  (drive .lCe false s).andThen fun _ s =>
  .done () (s.waitLink.setTe false)

/-- The bit loop of `clock_in` (R77). -/
def sendBits : List Bool → State → Result Unit
  | [], s => .done () s
  | b :: bs, s =>
      (drive .lData b s).andThen fun _ s =>
      (clockPulse s.waitLink).andThen fun _ s =>
      sendBits bs s

/-- `clock_in(x)` (R77). -/
def clockIn (x : Byte) (s : State) : Result Unit :=
  (setDir .output s).andThen fun _ s => sendBits (wireBits x) s

/-- The bit loop of `clock_out` (R78), over the result's bit positions, with the result so far. -/
def receiveBits : List Nat → Byte → State → Result Byte
  | [], r, s => .done r s
  | i :: is, r, s =>
      (sample s).andThen fun v s =>
      (clockPulse s.waitLink).andThen fun _ s =>
      receiveBits is (placeBit r i v) s

/-- `clock_out()` (R78). -/
def clockOut (s : State) : Result Byte :=
  (setDir .input s).andThen fun _ s => receiveBits [0, 1, 2, 3, 4, 5, 6, 7] 0 s

/-- The state change of LINK.CONFIG (R80). -/
def State.configureLink (ns : BitVec 24) (s : State) : State :=
  { s with link := { s.link with cfg := true, pulse := ns } }

/-- LINK.CONFIG (R80). -/
def execLinkConfig (pulse : BitVec 24) (s : State) : Host.Outcome State Fault Refusal :=
  finish (require (pulseLegal pulse) .precondViolation s fun s =>
    require (!s.link.te) .precondViolation s fun s => .done () (s.configureLink pulse))

/-- LINK.ENABLE (R81), with the cleanup of R79. -/
def execLinkEnable (s : State) : Host.Outcome State Fault Refusal :=
  finish (require s.link.cfg .precondViolation s fun s => (linkEnable s).onError linkDisable)

/-- LINK.DISABLE (R82). -/
def execLinkDisable (s : State) : Host.Outcome State Fault Refusal :=
  finish (require s.link.cfg .precondViolation s fun s => linkDisable s)

/-- One byte sent in an open session: the body of LINK.TX (R83), with the cleanup of R79. -/
def sendByte (x : Byte) (s : State) : Result Unit :=
  require s.link.cfg .precondViolation s fun s =>
  require s.link.te .linkNotReady s fun s =>
  (clockIn x s).onError linkDisable

/-- LINK.TX (R83). -/
def execLinkTx (data : Byte) (s : State) : Host.Outcome State Fault Refusal := finish (sendByte data s)

/-- LINK.RX (R84): RESULT is written only when clock_out completed. -/
def execLinkRx (s : State) : Host.Outcome State Fault Refusal :=
  finish (require s.link.cfg .precondViolation s fun s =>
    require s.link.te .linkNotReady s fun s =>
    ((clockOut s).onError linkDisable).andThen fun r s => .done () (s.setResult (zextByte r)))

/-- LINK.ISEN (R85). -/
def execLinkIsen (s : State) : Host.Outcome State Fault Refusal :=
  finish (require s.link.cfg .precondViolation s fun s => .done () (s.setResult (zextFlag s.link.te)))

end Sys2Proof.Machine
end

