-- ==== Sys2Proof/Machine/CommandCodec.lean ====
section
/-! DEFINITION. The command codec: CMD.WRITE and CMD.READ (R88 to R90), and the command byte alone on the wire
(R62, R88). -/

namespace Sys2Proof.Machine

/-- The source's defensive re-check after the enable: `if link.te = 0: raise LinkNotReady` (R89, R90, R91). -/
def recheck (s : State) : Result Unit := if s.link.te then .done () s else .raised .linkNotReady s

/-- The part of CMD.WRITE inside `try` (R89). -/
def writeTransfer (cls : RegClass) (index : BitVec 5) (value : Byte) (s : State) : Result Unit :=
  (linkEnable s).andThen fun _ s =>
  (recheck s).andThen fun _ s =>
  (clockIn (cmdByte cls .write index) s).andThen fun _ s =>
  clockIn value s

/-- CMD.WRITE (R89). -/
def execCmdWrite (cls : RegClass) (index : BitVec 5) (value : Byte) (s : State) :
    Host.Outcome State Fault Refusal :=
  finish (require s.link.cfg .precondViolation s fun s => (writeTransfer cls index value s).cleanup linkDisable)

/-- The part of CMD.READ inside `try` (R90). -/
def readTransfer (cls : RegClass) (index : BitVec 5) (s : State) : Result Byte :=
  (linkEnable s).andThen fun _ s =>
  (recheck s).andThen fun _ s =>
  (clockIn (cmdByte cls .read index) s).andThen fun _ s =>
  clockOut s

/-- CMD.READ (R90): RESULT is written only when the operation completes with no error. -/
def execCmdRead (cls : RegClass) (index : BitVec 5) (s : State) : Host.Outcome State Fault Refusal :=
  finish (require s.link.cfg .precondViolation s fun s =>
    ((readTransfer cls index s).cleanup linkDisable).andThen fun r s => .done () (s.setResult (zextByte r)))

/-- CMDBYTE.WRITE_RAM (R62, R88): the byte goes out as LINK.TX sends it (R49, R92; log 5). -/
def execCmdbyteWriteRam (index : BitVec 5) (s : State) : Host.Outcome State Fault Refusal :=
  finish (sendByte (cmdByte .ram .write index) s)

/-- CMDBYTE.READ_RAM (R62, R88): the byte goes out as LINK.TX sends it (R49, R92; log 5). -/
def execCmdbyteReadRam (index : BitVec 5) (s : State) : Host.Outcome State Fault Refusal :=
  finish (sendByte (cmdByte .ram .read index) s)

/-- CMDBYTE.WRITE_RTC (R62, R88): the byte goes out as LINK.TX sends it (R49, R92; log 5). -/
def execCmdbyteWriteRtc (index : BitVec 5) (s : State) : Host.Outcome State Fault Refusal :=
  finish (sendByte (cmdByte .rtc .write index) s)

/-- CMDBYTE.READ_RTC (R62, R88): the byte goes out as LINK.TX sends it (R49, R92; log 5). -/
def execCmdbyteReadRtc (index : BitVec 5) (s : State) : Host.Outcome State Fault Refusal :=
  finish (sendByte (cmdByte .rtc .read index) s)

end Sys2Proof.Machine
end

