-- ==== Sys2Proof/Machine/Control.lean ====
section
/-! DEFINITION. The control operation ERR.CLEAR (R94). -/

namespace Sys2Proof.Machine

/-- The four sticky bits cleared (R94). -/
def State.clearSticky (s : State) : State :=
  { s with status := { s.status with seIll := false, sePre := false, seIo := false, seNr := false } }

/-- ERR.CLEAR (R94): it cannot fail, and the status update then sets the code OK. -/
def execErrClear (s : State) : Host.Outcome State Fault Refusal := finish (.done () s.clearSticky)

end Sys2Proof.Machine
end

