-- ==== Sys2Proof/Machine/ShiftRegister.lean ====
section
/-! DEFINITION. The shift-register engine: the internal sequences R63 to R65 and the operations SR.CONFIG, SR.LOAD,
SR.COMMIT, SR.CLEAR and SR.ISFULL (R66 to R70). -/

namespace Sys2Proof.Machine

/-- `Wait(P)` with P = SR_PULSE_NS (R63). -/
def State.waitSr (s : State) : State := s.wait s.params.srPulseNs

/-- `sr.brem <- v`. -/
def State.setBrem (v : BitVec 16) (s : State) : State := { s with sr := { s.sr with brem := v } }

/-- `base_load(b)` (R63). -/
def baseLoad (b : Bool) (s : State) : Result Unit :=
  (drive .srData b s).andThen fun _ s =>
  (drive .srClk true s).andThen fun _ s =>
  (drive .srClk false s.waitSr).andThen fun _ s =>
  .done () (s.waitSr.setBrem (s.sr.brem - 1))

/-- `base_latch()` (R64). -/
def baseLatch (s : State) : Result Unit :=
  (drive .srLatch true s).andThen fun _ s =>
  (drive .srLatch false s).andThen fun _ s =>
  .done () (s.setBrem s.sr.cap)

/-- `sr_cleanup()` (R65). -/
def State.srCleanup (s : State) : State :=
  { s with sr := { s.sr with brem := s.sr.cap, orem := s.sr.cap, buf := [] } }

/-- `sr_cleanup()` as a cleanup body: it touches no pin, so it cannot raise (R65). -/
def srCleanup (s : State) : Result Unit := .done () s.srCleanup

/-- The state change of SR.CONFIG (R66). -/
def State.configureSr (cap : BitVec 16) (mode : BitOrder) (ord : Personality) (s : State) : State :=
  { s with sr := { cfg := true, cap := cap, ord := ord, mode := mode, brem := cap, orem := cap, buf := [] } }

/-- SR.CONFIG (R66). -/
def execSrConfig (cap : BitVec 16) (mode : BitOrder) (ord : Personality) (s : State) :
    Host.Outcome State Fault Refusal :=
  finish (require (capLegal s.params cap) .precondViolation s fun s => .done () (s.configureSr cap mode ord))

/-- The buffering of one bit by the ordered layer (R67). -/
def State.bufferBit (b : Bool) (s : State) : State :=
  { s with sr := { s.sr with buf := s.sr.buf ++ [b], orem := s.sr.orem - 1 } }

/-- The body of SR.LOAD (R67). -/
def srLoadBody (b : Bool) (s : State) : Result Unit :=
  require s.sr.cfg .precondViolation s fun s =>
  match s.sr.ord with
  | .base =>
      require (decide (0 < s.sr.brem.toNat)) .precondViolation s fun s => (baseLoad b s).onError srCleanup
  | .ordered =>
      require (decide (0 < s.sr.orem.toNat)) .precondViolation s fun s => .done () (s.bufferBit b)

/-- SR.LOAD (R67). -/
def execSrLoad (bit : Bool) (s : State) : Host.Outcome State Fault Refusal := finish (srLoadBody bit s)

/-- The order in which SR.COMMIT replays the buffer (R68): natural back to front, inverse front to back. -/
def SrEngine.drainOrder (e : SrEngine) : List Bool :=
  match e.mode with
  | .natural => e.buf.reverse
  | .inverse => e.buf

/-- The replay of the ordered SR.COMMIT (R68): one base load for each bit. With `sr.orem = 0` the buffer holds `sr.cap`
bits (R21), so this is the loop over 0 .. cap-1 (log 11). -/
def replay : List Bool → State → Result Unit
  | [], s => .done () s
  | b :: bs, s => (baseLoad b s).andThen fun _ s => replay bs s

/-- The body of SR.COMMIT (R68). -/
def srCommitBody (s : State) : Result Unit :=
  require s.sr.cfg .precondViolation s fun s =>
  match s.sr.ord with
  | .base => (baseLatch s).onError srCleanup
  | .ordered =>
      require (s.sr.orem == 0) .precondViolation s fun s =>
      ((replay s.sr.drainOrder s).andThen fun _ s => baseLatch s).cleanup srCleanup

/-- SR.COMMIT (R68). -/
def execSrCommit (s : State) : Host.Outcome State Fault Refusal := finish (srCommitBody s)

/-- `repeat n times: body of SR.LOAD(0)` (R69). -/
def loadZeros : Nat → State → Result Unit
  | 0, s => .done () s
  | n + 1, s => (srLoadBody false s).andThen fun _ s => loadZeros n s

/-- The body of SR.CLEAR (R69). -/
def srClearBody (s : State) : Result Unit :=
  require s.sr.cfg .precondViolation s fun s =>
  require (s.sr.rem == s.sr.cap) .precondViolation s fun s =>
  (loadZeros s.sr.cap.toNat s).andThen fun _ s => srCommitBody s

/-- SR.CLEAR (R69). -/
def execSrClear (s : State) : Host.Outcome State Fault Refusal := finish (srClearBody s)

/-- SR.ISFULL (R70). -/
def execSrIsfull (s : State) : Host.Outcome State Fault Refusal :=
  finish (require s.sr.cfg .precondViolation s fun s => .done () (s.setResult (zextFlag (s.sr.rem == 0))))

end Sys2Proof.Machine
end

