-- ==== Sys2Proof/Machine/Dispatch.lean ====
section
/-! DEFINITION. One arm for each instruction: its meaning. -/

namespace Sys2Proof.Machine

def exec (i : Instr) (s : State) : Host.Outcome State Fault Refusal :=
  match i with
  | .srConfig cap mode ord => Sys2Proof.Machine.execSrConfig cap mode ord s
  | .srLoad bit => Sys2Proof.Machine.execSrLoad bit s
  | .srCommit => Sys2Proof.Machine.execSrCommit s
  | .srClear => Sys2Proof.Machine.execSrClear s
  | .srIsfull => Sys2Proof.Machine.execSrIsfull s
  | .linkConfig pulse => Sys2Proof.Machine.execLinkConfig pulse s
  | .linkEnable => Sys2Proof.Machine.execLinkEnable s
  | .linkDisable => Sys2Proof.Machine.execLinkDisable s
  | .linkTx data => Sys2Proof.Machine.execLinkTx data s
  | .linkRx => Sys2Proof.Machine.execLinkRx s
  | .linkIsen => Sys2Proof.Machine.execLinkIsen s
  | .cmdWrite cls index value => Sys2Proof.Machine.execCmdWrite cls index value s
  | .cmdRead cls index => Sys2Proof.Machine.execCmdRead cls index s
  | .errClear => Sys2Proof.Machine.execErrClear s
  | .cmdbyteWriteRam index => Sys2Proof.Machine.execCmdbyteWriteRam index s
  | .cmdbyteReadRam index => Sys2Proof.Machine.execCmdbyteReadRam index s
  | .cmdbyteWriteRtc index => Sys2Proof.Machine.execCmdbyteWriteRtc index s
  | .cmdbyteReadRtc index => Sys2Proof.Machine.execCmdbyteReadRtc index s

end Sys2Proof.Machine
end

