-- ==== Sys2Proof/Machine/HostPort.lean ====
section
/-! DEFINITION. The host's side: the port window (R37 to R40), the issue of an operation by a CMD write (R58), and the
serving of one input (R41 to R43, R106, R109). -/

namespace Sys2Proof.Machine

/-- The ports of the window (R37). -/
inductive Port where
  | cmd
  | status
  | result
  | srcfg
  | linkcfg
  | reserved
  deriving DecidableEq, Repr

/-- The port at an offset that is a multiple of 4 (R37). -/
def portAt (off : Nat) : Port :=
  match off with
  | 0x00 => .cmd
  | 0x04 => .status
  | 0x08 => .result
  | 0x0C => .srcfg
  | 0x10 => .linkcfg
  | _ => .reserved

/-- The answer of a port (R28 to R32, R37). RESULT without a value answers a free value, a fresh one each time (R29,
R40). -/
def readPort (p : Port) (s : State) : Word :=
  match p with
  | .cmd => 0
  | .status => s.statusWord
  | .result =>
      match s.result with
      | some v => v
      | none => Config.unwrittenResult s.env.run s.env.resultReads
  | .srcfg => s.srcfgWord
  | .linkcfg => s.linkcfgWord
  | .reserved => 0

/-- The count of free reads of RESULT after a read of a port (log 3). -/
def State.countResultRead (p : Port) (s : State) : State :=
  match p, s.result with
  | .result, none => { s with env := { s.env with resultReads := s.env.resultReads + 1 } }
  | _, _ => s

/-- A host read: the port's answer is handed over, and the block's state stays (R40). -/
def State.answerRead (p : Port) (s : State) : State :=
  { s.countResultRead p with replies := s.replies ++ [readPort p s] }

/-- A CMD write issues exactly one operation (R40, R58): the decoded one, or the completion with ILLEGAL. -/
def issue (w : Word) (s : State) : Host.Outcome State Fault Refusal :=
  match decodeWord w with
  | .ok i => exec i s
  | .error _ => .next (s.complete .illegal)

/-- Whether an address lies in the block's window (R37). -/
def Params.inWindow (p : Params) (addr : Nat) : Bool := decide (p.base ≤ addr) && decide (addr < p.base + 64)

/-- Whether an access is a defined one: 32 bits at an offset that is a multiple of 4 (R38). -/
def Params.definedAccess (p : Params) (addr width : Nat) : Bool :=
  decide (width = 4) && decide ((addr - p.base) % 4 = 0)

/-- One access of the host (R37, R38). -/
def serveAccess (a : Access) (s : State) : Host.Outcome State Fault Refusal :=
  match a with
  | .read addr width =>
      if Params.inWindow s.params addr then
        if Params.definedAccess s.params addr width then .next (s.answerRead (portAt (addr - s.params.base)))
        else .refused (.undefinedAccess addr width)
      else .fault (.outsideWindow addr)
  | .write addr width v =>
      if Params.inWindow s.params addr then
        if Params.definedAccess s.params addr width then
          match portAt (addr - s.params.base) with
          | .cmd => issue v s
          | _ => .next s
        else .refused (.undefinedAccess addr width)
      else .fault (.outsideWindow addr)
  | .fetch addr =>
      if Params.inWindow s.params addr then .refused (.instructionFetch addr) else .fault (.outsideWindow addr)

/-- The sending of one wire command byte by itself: the model's own input (log 5). -/
def sendWireByte (b : Byte) (s : State) : Host.Outcome State Fault Refusal :=
  match decodeWire b with
  | .ok i => exec i s
  | .error _ => .refused (.notACommandByte b)

/-- The serving of one input. -/
def serve (i : Input) (s : State) : Host.Outcome State Fault Refusal :=
  match i with
  | .access a => serveAccess a s
  | .secondHost _ => .refused .secondHost
  | .rst during draws => .next (s.rst during.isSome draws)
  | .wireByte b => sendWireByte b s

/-- The inputs that wait, replaced. -/
def State.withHost (is : List Input) (s : State) : State := { s with host := is }

/-- The input that presents a code to the block: a write of the word to CMD (R54), or a wire byte (log 5). -/
def inputOfCode (p : Params) : Code → Input
  | .word w => .access (.write p.base 4 w)
  | .wire b => .wireByte b

end Sys2Proof.Machine
end

