-- ==== Sys2Proof/Machine/Step.lean ====
section
/-! DEFINITION. One step: the oldest waiting input is served (R41, R43); with none, the block holds its state (R108,
R110; log 15). -/

namespace Sys2Proof.Machine

/-- One step of the machine. -/
def step (s : State) : Host.Outcome State Fault Refusal :=
  match s.host with
  | [] => .next s
  | i :: rest => serve i (s.withHost rest)

/-- The state with the opcode-table word `w` as the very next thing the block is given: the oldest waiting input is its
CMD write, or the wire byte (log 4, 5 and 6). -/
def State.withFetchWord (s : State) (nbits w : Nat) : State :=
  s.withHost (inputOfCode s.params (codeOfTableWord nbits w) :: s.host)

end Sys2Proof.Machine
end

