-- ==== Sys2Proof/Safety.lean ====
section
/-! DEFINITION. The terms claims are stated in: the trace shapes of the spec (95_test_vectors.md section 1), counts over a
trace (R45, R120), the premise that pin accesses succeed (R33), what an operation leaves alone, and the invariant. -/

namespace Sys2Proof.Machine

/-! ## Traces -/

/-- Whether an event is one pin access: a `Drive`, `SetDir` or `Sample`, successful or failed (R33). -/
def Event.isAccess : Event → Bool
  | .wait _ => false
  | _ => true

/-- The number of pin accesses in a trace (R33). -/
def accessCount (tr : List Event) : Nat := tr.countP Event.isAccess

/-- The duration of an event's wait (R13). -/
def Event.waitNs : Event → Nat
  | .wait ns => ns
  | _ => 0

/-- The sum of the waits of a trace: its minimum duration (R120). -/
def waitTotal (tr : List Event) : Nat := (tr.map Event.waitNs).sum

/-- `SL(b)`: one base load (R63). -/
def loadTrace (ps : Nat) (b : Bool) : List Event :=
  [.drive .srData b, .drive .srClk true, .wait ps, .drive .srClk false, .wait ps]

/-- `SL` of each bit in turn (R68). -/
def replayTrace (ps : Nat) (bs : List Bool) : List Event := bs.flatMap (loadTrace ps)

/-- `LT`: one latch pulse (R64). -/
def latchTrace : List Event := [.drive .srLatch true, .drive .srLatch false]

/-- `EN` (R75). -/
def enableTrace (p : Nat) : List Event := [.drive .lClk false, .wait p, .drive .lCe true, .wait p]

/-- `DIS` (R76). -/
def disableTrace (p : Nat) : List Event := [.drive .lCe false, .wait p]

/-- `CP` (R74). -/
def pulseTrace (p : Nat) : List Event := [.drive .lClk true, .wait p, .drive .lClk false, .wait p]

/-- `TB(v)`: one clock-in bit (R77). -/
def txBitTrace (p : Nat) (v : Bool) : List Event := [.drive .lData v, .wait p] ++ pulseTrace p

/-- `RB(v)`: one clock-out bit (R78). -/
def rxBitTrace (p : Nat) (v : Bool) : List Event := [.sample v, .wait p] ++ pulseTrace p

/-- `TX(x)` (R77, R83). -/
def txTrace (p : Nat) (x : Byte) : List Event := .dir .output :: (wireBits x).flatMap (txBitTrace p)

/-- `RX` of the byte whose bits are the samples, least significant first (R78, R84). -/
def rxTrace (p : Nat) (r : Byte) : List Event := .dir .input :: (wireBits r).flatMap (rxBitTrace p)

/-- The levels on SR_DATA at the rising edges of SR_CLK in a trace (R72): the last level driven on SR_DATA before each
drive of SR_CLK to 1. -/
def clockedBits : Bool → List Event → List Bool
  | _, [] => []
  | _, .drive .srData v :: tr => clockedBits v tr
  | b, .drive .srClk true :: tr => b :: clockedBits b tr
  | b, _ :: tr => clockedBits b tr

/-- Every rise of L_CE directly follows `Drive(L_CLK, 0) Wait` (R26, R87). -/
def CeRisesWhileClockLow (tr : List Event) : Prop :=
  ∀ before after, tr = before ++ .drive .lCe true :: after →
    ∃ start p, before = start ++ [.drive .lClk false, .wait p]

/-- Where an operation with pulse `p` sets the direction of L_DATA (R26, R77, R78, R87): the events before it and the
direction. A byte transfer sets it first of all; a CMD operation after the enable sequence and again after the whole
command byte; no other operation sets it. The wire bytes follow LINK.TX (log 5). -/
def SetsDirAfter (i : Instr) (p : Nat) (before : List Event) (d : PinDir) : Prop :=
  match i with
  | .linkTx _ | .cmdbyteWriteRam _ | .cmdbyteReadRam _ | .cmdbyteWriteRtc _ | .cmdbyteReadRtc _ =>
      before = [] ∧ d = .output
  | .linkRx => before = [] ∧ d = .input
  | .cmdWrite cls index _ =>
      (before = enableTrace p ∨ before = enableTrace p ++ txTrace p (cmdByte cls .write index)) ∧ d = .output
  | .cmdRead cls index =>
      before = enableTrace p ∧ d = .output ∨
        before = enableTrace p ++ txTrace p (cmdByte cls .read index) ∧ d = .input
  | .srConfig .. | .srLoad _ | .srCommit | .srClear | .srIsfull | .linkConfig _ | .linkEnable | .linkDisable
  | .linkIsen | .errClear => False

/-- In the events of the operation `i` with pulse `p`, the direction of L_DATA changes only at the start of a byte of
that operation (R26, R87). -/
def DirOnlyAtByteStart (i : Instr) (p : Nat) (events : List Event) : Prop :=
  ∀ before d after, events = before ++ .dir d :: after → SetsDirAfter i p before d

/-- The levels and the direction that a trace leaves, as the primitives say (R10 to R12). -/
structure Lines where
  pins : Pins
  dir : DirState
  dout : Level
  deriving DecidableEq, Repr

/-- One pin set to a level. -/
def Lines.set (p : Pin) (v : Level) (l : Lines) : Lines :=
  match p with
  | .srData => { l with pins := { l.pins with srData := v } }
  | .srClk => { l with pins := { l.pins with srClk := v } }
  | .srLatch => { l with pins := { l.pins with srLatch := v } }
  | .lClk => { l with pins := { l.pins with lClk := v } }
  | .lCe => { l with pins := { l.pins with lCe := v } }
  | .lData => { l with dout := v }

/-- The lines after one event. A failure on L_DATA is a failed drive when the direction is OUT, else a failed sample,
which changes no level (R10, R12). -/
def Lines.event (l : Lines) : Event → Lines
  | .drive p v => l.set p (.ofBit v)
  | .dir d => { l with dir := .ofDir d }
  | .sample _ => l
  | .wait _ => l
  | .fail .lData => if l.dir = .output then { l with dout := .x } else l
  | .fail p => l.set p .x
  | .failDir => { l with dir := .x }

/-- The lines after reset (R36). -/
def Lines.reset : Lines := { pins := .reset, dir := .input, dout := .low }

/-- The lines a state has. -/
def State.lines (s : State) : Lines := { pins := s.pins, dir := s.link.dir, dout := s.link.dout }

/-! ## The premise on the environment -/

/-- None of the next `n` pin accesses fails: the premise on `env.ioFail` that R33 asks a claim to state. -/
def State.Quiet (s : State) (n : Nat) : Prop :=
  ∀ j < n, ∀ tr, s.env.ioFail (s.accesses + j) tr = false

/-! ## What an operation leaves alone -/

/-- What every operation of the shift-register engine leaves alone besides RESULT and STATUS: the parameters, the whole
link, its pins, the environment's draws, the host's side, and the device on the link, except after an IOFAULT (R119). -/
def SrFrame (s t : State) : Prop :=
  t.params = s.params ∧ t.link = s.link ∧ t.pins.lClk = s.pins.lClk ∧ t.pins.lCe = s.pins.lCe ∧
    (t.status.err ≠ .ioFault → t.env.link = s.env.link) ∧ t.env.run = s.env.run ∧ t.env.script = s.env.script ∧
    t.env.resultReads = s.env.resultReads ∧ t.host = s.host ∧ t.replies = s.replies

/-- What every link and command operation leaves alone besides RESULT and STATUS: the parameters, the whole
shift-register engine, its pins, the environment's draws, the host's side, and the attached register, except after an
IOFAULT (R119). -/
def LinkFrame (s t : State) : Prop :=
  t.params = s.params ∧ t.sr = s.sr ∧ t.pins.srData = s.pins.srData ∧ t.pins.srClk = s.pins.srClk ∧
    t.pins.srLatch = s.pins.srLatch ∧
    (t.status.err ≠ .ioFault → t.env.sipo = s.env.sipo) ∧ t.env.run = s.env.run ∧
    t.env.script = s.env.script ∧ t.env.resultReads = s.env.resultReads ∧ t.host = s.host ∧ t.replies = s.replies

/-- A completion with an error that changed nothing but STATUS: a precise error (R100). -/
def State.refusedWith (k : Completion) (s : State) : State := { s with status := s.status.complete k }

/-- An instruction of the shift-register engine. -/
def isSrOp : Instr → Bool
  | .srConfig .. | .srLoad .. | .srCommit | .srClear | .srIsfull => true
  | _ => false

/-- An instruction of the link, the command codec, or the wire. -/
def isLinkOp : Instr → Bool
  | .linkConfig .. | .linkEnable | .linkDisable | .linkTx .. | .linkRx | .linkIsen | .cmdWrite .. | .cmdRead ..
  | .cmdbyteWriteRam .. | .cmdbyteReadRam .. | .cmdbyteWriteRtc .. | .cmdbyteReadRtc .. => true
  | _ => false

/-- An instruction that can write RESULT (R29). -/
def returnsValue : Instr → Bool
  | .srIsfull | .linkRx | .linkIsen | .cmdRead .. => true
  | _ => false

/-- The bound on an operation's pin accesses, a failure's cleanup access included (R45, R120). -/
def accessBound (i : Instr) (s : State) : Nat :=
  match i with
  | .srConfig .. | .srIsfull | .linkConfig .. | .linkIsen | .errClear => 0
  | .srLoad _ => 3
  | .srCommit | .srClear => 3 * s.sr.cap.toNat + 2
  | .linkEnable => 3
  | .linkDisable => 1
  | .linkTx _ | .linkRx | .cmdbyteWriteRam _ | .cmdbyteReadRam _ | .cmdbyteWriteRtc _ | .cmdbyteReadRtc _ => 26
  | .cmdWrite .. | .cmdRead .. => 53

/-! ## Several operations, and the opcode map -/

/-- The operations of a list in order, each from the state the one before left (R41). -/
def execAll : List Instr → State → Host.Outcome State Fault Refusal
  | [], s => .next s
  | i :: is, s =>
      match exec i s with
      | .next t => execAll is t
      | .fault f => .fault f
      | .refused r => .refused r

/-- A row of the opcode map (R57): every word with `(w & mask) == match` decodes to the instruction `f` reads. -/
def EncodedAs (pattern mask : Word) (f : Word → Instr) : Prop :=
  ∀ w : Word, w &&& mask = pattern → decodeWord w = .ok (f w)

/-- The table of R120 for an operation that completes with no error: the minimum wait, the number of pin accesses and
the number of trace events. A wire byte alone is a LINK.TX (log 5). -/
def timingRow (i : Instr) (s : State) : Nat × Nat × Nat :=
  let ps := s.params.srPulseNs
  let p := s.link.pulse.toNat
  let cap := s.sr.cap.toNat
  match i with
  | .srConfig .. | .srIsfull | .linkConfig .. | .linkIsen | .errClear => (0, 0, 0)
  | .srLoad _ => match s.sr.ord with | .base => (2 * ps, 3, 5) | .ordered => (0, 0, 0)
  | .srCommit => match s.sr.ord with
      | .base => (0, 2, 2)
      | .ordered => (2 * cap * ps, 3 * cap + 2, 5 * cap + 2)
  | .srClear => (2 * cap * ps, 3 * cap + 2, 5 * cap + 2)
  | .linkEnable => (2 * p, 2, 4)
  | .linkDisable => (p, 1, 2)
  | .linkTx _ | .linkRx | .cmdbyteWriteRam _ | .cmdbyteReadRam _ | .cmdbyteWriteRtc _ | .cmdbyteReadRtc _ =>
      (24 * p, 25, 49)
  | .cmdWrite .. | .cmdRead .. => (51 * p, 53, 104)

/-! ## The invariant -/

/-- The engine's counters and buffer (R19, R21, R23), and an engine never configured is as reset left it. -/
structure SrInv (p : Params) (e : SrEngine) : Prop where
  unconfigured : e.cfg = false → e = .reset
  capLegal : e.cfg = true → 1 ≤ e.cap.toNat ∧ e.cap.toNat ≤ p.capMax
  bremLe : e.brem.toNat ≤ e.cap.toNat
  oremLe : e.orem.toNat ≤ e.cap.toNat
  base : e.ord = .base → e.orem = e.cap ∧ e.buf = []
  ordered : e.ord = .ordered → e.brem = e.cap ∧ e.buf.length + e.orem.toNat = e.cap.toNat

/-- The link's fields (R25), a link never configured is as reset left it, and transferEnabled agrees with L_CE wherever
L_CE is known (R75, R76). -/
structure LinkInv (l : SerialLink) (ce : Level) : Prop where
  unconfigured : l.cfg = false → l = .reset
  pulseLegal : l.cfg = true → 1 ≤ l.pulse.toNat
  enabledCe : l.te = true → ce ≠ .low
  ceEnabled : ce = .high → l.te = true

/-- The most recent code's sticky bit is set (R97). -/
def StatusBits.consistent (b : StatusBits) : Bool :=
  match b.err with
  | .ok => true
  | .illegal => b.seIll
  | .precond => b.sePre
  | .ioFault => b.seIo
  | .notReady => b.seNr

/-- The lengths of the attached devices (R34, R35). -/
def Env.sized (p : Params) (e : Env) : Bool :=
  decide (e.sipo.stage.length = p.devLen) && decide (e.sipo.outs.length = p.devLen) &&
    match e.link with
    | .ramchip c => decide (c.ram.length = 32)
    | _ => true

/-- The invariant of the machine: it holds after reset and every step keeps it. -/
structure State.Inv (s : State) : Prop where
  params : s.params.wf = true
  sr : SrInv s.params s.sr
  link : LinkInv s.link s.pins.lCe
  status : s.status.consistent = true
  counted : s.accesses = accessCount s.trace
  lines : s.lines = s.trace.foldl Lines.event .reset
  ceSafe : CeRisesWhileClockLow s.trace
  env : s.env.sized s.params = true

end Sys2Proof.Machine
end

