-- ==== Sys2Proof/Certificates/Slice0/Obligations.lean ====
section
/-! DEFINITION. The statements for the provers. A hypothesis `s.Quiet n` is the premise on `env.ioFail` that R33 asks for:
none of the next n pin accesses fails. `s.refusedWith k` is `s` with nothing but STATUS changed (R15, R100). -/

open Sys2Proof Sys2Proof.Machine

/-! ## Encoding -/

/-- 30_encoding.md sections 1, 2 and 4: every instruction's code decodes to it, as a code and as bytes in memory order. -/
def Obligations.DecodeEncodeRoundTrip : Prop :=
  ∀ i : Instr, decode (encode i) = .ok i ∧ decodeBytes (encode i).bytes = .ok i

/-- 30_encoding.md sections 1 and 4: a word or a byte that decodes is the code of what it decodes to, so no bit of it is
dropped and every reserved bit is 0. -/
def Obligations.DecodedCodeIsTheEncoding : Prop :=
  (∀ w i, decodeWord w = .ok i → encode i = .word w) ∧ (∀ b i, decodeWire b = .ok i → encode i = .wire b)

/-- The opcode map of 30_encoding.md section 2, row by row with its match and mask and its layout's fields, and words
written out from it and from 95_test_vectors.md, one for every row: each decodes to what it stands for. -/
def Obligations.WrittenOutWordsDecode : Prop :=
  decodeWord 0x00001001 = .ok (.srConfig 16 .natural .base) ∧
    decodeWord 0x00000102 = .ok (.srLoad true) ∧
    decodeWord 0x00000003 = .ok .srCommit ∧
    decodeWord 0x00000004 = .ok .srClear ∧
    decodeWord 0x00000005 = .ok .srIsfull ∧
    decodeWord 0x0003E810 = .ok (.linkConfig 1000) ∧
    decodeWord 0x00000011 = .ok .linkEnable ∧
    decodeWord 0x00000012 = .ok .linkDisable ∧
    decodeWord 0x0000CA13 = .ok (.linkTx 0xCA) ∧
    decodeWord 0x00000014 = .ok .linkRx ∧
    decodeWord 0x00000015 = .ok .linkIsen ∧
    decodeWord 0x01052A20 = .ok (.cmdWrite .ram 5 0x2A) ∧
    decodeWord 0x00020021 = .ok (.cmdRead .rtc 2) ∧
    decodeWord 0x00000030 = .ok .errClear ∧
    decodeWire 0xCA = .ok (.cmdbyteWriteRam 5) ∧
    decodeWire 0xFF = .ok (.cmdbyteReadRam 31) ∧
    decodeWire 0xBE = .ok (.cmdbyteWriteRtc 31) ∧
    decodeWire 0x85 = .ok (.cmdbyteReadRtc 2) ∧
    EncodedAs 0x00000002 0xFFFFFEFF (fun w => .srLoad (w.getLsbD 8)) ∧
    EncodedAs 0x00000003 0xFFFFFFFF (fun _ => .srCommit) ∧
    EncodedAs 0x00000004 0xFFFFFFFF (fun _ => .srClear) ∧
    EncodedAs 0x00000011 0xFFFFFFFF (fun _ => .linkEnable) ∧
    EncodedAs 0x00000013 0xFFFF00FF (fun w => .linkTx (w.extractLsb' 8 8)) ∧
    EncodedAs 0x00000014 0xFFFFFFFF (fun _ => .linkRx) ∧
    EncodedAs 0x00000020 0xFEE000FF
      (fun w => .cmdWrite (.ofBit (w.getLsbD 24)) (w.extractLsb' 16 5) (w.extractLsb' 8 8)) ∧
    EncodedAs 0x00000021 0xFEE0FFFF (fun w => .cmdRead (.ofBit (w.getLsbD 24)) (w.extractLsb' 16 5))

/-- R58: a word in a row is that row's operation with its fields; a word in no row completes with ILLEGAL and changes
nothing else; no word is in two rows. -/
def Obligations.IssuedWordRunsItsRowOrIsIllegal : Prop :=
  ∀ (w : Word) (s : State),
    (∀ r ∈ opTable, w &&& r.mask = r.pattern → issue w s = exec (r.build w) s) ∧
      ((∀ r ∈ opTable, w &&& r.mask ≠ r.pattern) → issue w s = .next (s.refusedWith .illegal)) ∧
      (opTable.filter fun r => r.selects w).length ≤ 1

/-- 30_encoding.md section 4 and 42_command_codec.md section 1: the command byte's formula gives its fields, the four bases, a byte of its own for each
operand, and is read back as its row. -/
def Obligations.CommandByteHasItsFields : Prop :=
  (∀ cls rw index,
    (cmdByte cls rw index).getLsbD 7 = true ∧ (cmdByte cls rw index).getLsbD 6 = cls.toBit ∧
      (cmdByte cls rw index).extractLsb' 1 5 = index ∧ (cmdByte cls rw index).getLsbD 0 = rw.toBit ∧
      cmdByte cls rw index = wireByte cls rw index ∧ (index.setWidth 8 &&& 0x1F : Byte) = index.setWidth 8) ∧
    (∀ c r i c' r' i', cmdByte c r i = cmdByte c' r' i' → c = c' ∧ r = r' ∧ i = i') ∧
    (∀ i, decodeWire (cmdByte .ram .write i) = .ok (.cmdbyteWriteRam i) ∧
      decodeWire (cmdByte .ram .read i) = .ok (.cmdbyteReadRam i) ∧
      decodeWire (cmdByte .rtc .write i) = .ok (.cmdbyteWriteRtc i) ∧
      decodeWire (cmdByte .rtc .read i) = .ok (.cmdbyteReadRtc i)) ∧
    (cmdByte .ram .write 0 = 0xC0 ∧ cmdByte .ram .read 0 = 0xC1 ∧ cmdByte .rtc .write 0 = 0x80 ∧
      cmdByte .rtc .read 0 = 0x81) ∧
    (cmdByte .ram .write 31 = 0xFE ∧ cmdByte .ram .read 31 = 0xFF ∧ cmdByte .rtc .write 31 = 0xBE ∧
      cmdByte .rtc .read 31 = 0xBF) ∧
    cmdByte .ram .write 5 = 0xCA ∧ cmdByte .rtc .read 2 = 0x85

/-- R61, with the range checks of R60: a pseudo-instruction is its expansion, a line with an operand that does not fit its
field is rejected, and every other line assembles to its operation. -/
def Obligations.AssemblerChecksAndExpands : Prop :=
  (∀ index byte, AsmLine.toInstr (.writeRam index byte) = AsmLine.toInstr (.cmdWrite .ram index byte) ∧
      assemble (.writeRam index byte) = assemble (.cmdWrite .ram index byte) ∧
      assemble (.writeRtc index byte) = assemble (.cmdWrite .rtc index byte)) ∧
    (∀ index, assemble (.readRam index) = assemble (.cmdRead .ram index) ∧
      assemble (.readRtc index) = assemble (.cmdRead .rtc index)) ∧
    (∀ cap mode ord, (assemble (.srConfig cap mode ord) = none ↔ 65535 < cap) ∧
      (cap ≤ 65535 → assemble (.srConfig cap mode ord) = some (encode (.srConfig (.ofNat 16 cap) mode ord)))) ∧
    (∀ ns, (assemble (.linkConfig ns) = none ↔ 16777215 < ns) ∧
      (ns ≤ 16777215 → assemble (.linkConfig ns) = some (encode (.linkConfig (.ofNat 24 ns))))) ∧
    (∀ byte, (assemble (.linkTx byte) = none ↔ 255 < byte) ∧
      (byte ≤ 255 → assemble (.linkTx byte) = some (encode (.linkTx (.ofNat 8 byte))))) ∧
    (∀ cls index byte, (assemble (.cmdWrite cls index byte) = none ↔ 31 < index ∨ 255 < byte) ∧
      (index ≤ 31 → byte ≤ 255 →
        assemble (.cmdWrite cls index byte) = some (encode (.cmdWrite cls (.ofNat 5 index) (.ofNat 8 byte))))) ∧
    (∀ cls index, (assemble (.cmdRead cls index) = none ↔ 31 < index) ∧
      (index ≤ 31 → assemble (.cmdRead cls index) = some (encode (.cmdRead cls (.ofNat 5 index))))) ∧
    (∀ bit, (assemble (.srLoad bit) = none ↔ bit ≠ 0 ∧ bit ≠ 1) ∧
      assemble (.srLoad 0) = some (encode (.srLoad false)) ∧ assemble (.srLoad 1) = some (encode (.srLoad true))) ∧
    assemble .srCommit = some (encode .srCommit) ∧ assemble .srClear = some (encode .srClear) ∧
    assemble .srIsfull = some (encode .srIsfull) ∧ assemble .linkEnable = some (encode .linkEnable) ∧
    assemble .linkDisable = some (encode .linkDisable) ∧ assemble .linkRx = some (encode .linkRx) ∧
    assemble .linkIsen = some (encode .linkIsen) ∧ assemble .errClear = some (encode .errClear)

/-! ## One step, the ports, and reset -/

/-- A step runs the decoded instruction: the oldest waiting CMD write (20_memory.md section 1) issues its word with the
write taken off the queue: a word that decodes is exec of its instruction, and one that does not completes with ILLEGAL
and changes nothing else (30_encoding.md section 2). The model's wire-byte input (log 5) is exec of its instruction, and
the next step after `withFetchWord` is exec of the table word's instruction. -/
def Obligations.StepRunsTheDecodedInstruction : Prop :=
  (∀ s w rest, s.host = .access (.write s.params.base 4 w) :: rest →
    step s = issue w (s.withHost rest) ∧
    (∀ i, decodeWord w = .ok i → step s = exec i (s.withHost rest)) ∧
    ∀ e, decodeWord w = .error e → step s = .next ((s.withHost rest).refusedWith .illegal)) ∧
    (∀ s b rest i, s.host = .wireByte b :: rest → decodeWire b = .ok i → step s = exec i (s.withHost rest)) ∧
    ∀ s nbits w i, decodeTableWord nbits w = some i → step (s.withFetchWord nbits w) = exec i s

/-- 70_reset_and_hazards.md section 1 and 60_exceptions.md section 5 (log 15): with nothing waiting the block holds its
state. -/
def Obligations.StepWithNothingWaitingHolds : Prop :=
  ∀ s : State, s.host = [] → step s = .next s

/-- 20_memory.md section 1: a defined read hands over the port's word and changes nothing of the block. -/
def Obligations.PortReadAnswersAndChangesNothing : Prop :=
  ∀ s off rest v, s.host = .access (.read (s.params.base + off) 4) :: rest →
    (off = 0x00 ∧ v = 0 ∨ off = 0x04 ∧ v = s.statusWord ∨ off = 0x08 ∧ s.result = some v ∨
      off = 0x0C ∧ v = s.srcfgWord ∨ off = 0x10 ∧ v = s.linkcfgWord ∨
      0x14 ≤ off ∧ off ≤ 0x3C ∧ off % 4 = 0 ∧ v = 0) →
    step s = .next { s with host := rest, replies := s.replies ++ [v] }

/-- 10_state.md section 5 and 20_memory.md section 1 (log 3): a read of RESULT while it has no value hands over some
word, the free value of that read, and changes nothing but the model's count of such reads. -/
def Obligations.UnwrittenResultReadIsAFreeValue : Prop :=
  ∀ s rest, s.host = .access (.read (s.params.base + 0x08) 4) :: rest → s.result = none →
    step s = .next { s with
      host := rest
      replies := s.replies ++ [Config.unwrittenResult s.env.run s.env.resultReads]
      env := { s.env with resultReads := s.env.resultReads + 1 } }

/-- 20_memory.md section 1: a write to a read-only or reserved port is ignored. -/
def Obligations.WriteToOtherPortIsIgnored : Prop :=
  ∀ s off rest v, s.host = .access (.write (s.params.base + off) 4 v) :: rest →
    0x04 ≤ off → off ≤ 0x3C → off % 4 = 0 → step s = .next { s with host := rest }

/-- R38, and a second host (60_exceptions.md section 5): an access in the window of another width or at another offset,
and a fetch, are refused, and so is any access of a second host. -/
def Obligations.UndefinedAccessIsRefused : Prop :=
  ∀ s off rest, off < 64 →
    (∀ width, (width ≠ 4 ∨ off % 4 ≠ 0) →
      (s.host = .access (.read (s.params.base + off) width) :: rest →
        step s = .refused (.undefinedAccess (s.params.base + off) width)) ∧
      ∀ v, s.host = .access (.write (s.params.base + off) width v) :: rest →
        step s = .refused (.undefinedAccess (s.params.base + off) width)) ∧
    (s.host = .access (.fetch (s.params.base + off)) :: rest →
      step s = .refused (.instructionFetch (s.params.base + off))) ∧
    ∀ a, s.host = .secondHost a :: rest → step s = .refused .secondHost

/-- 70_reset_and_hazards.md section 1 (log 7): RST gives every element its reset value, empties the trace and restarts the count, runs no cleanup and reports
no code even when it abandons an operation, keeps what the host has waiting, and does not reset the attached
devices' contents. -/
def Obligations.RstResetsTheBlock : Prop :=
  ∀ s during draws rest, s.host = .rst during draws :: rest →
    ∃ t, step s = .next t ∧ t.sr = .reset ∧ t.link = .reset ∧ t.pins = .reset ∧ t.status = .reset ∧
      t.result = none ∧ t.trace = [] ∧ t.accesses = 0 ∧ t.params = s.params ∧ t.host = rest ∧
      t.replies = s.replies ∧ t.env.script = draws ∧
      (during = none → t.env.sipo = s.env.sipo ∧
        ∀ c, s.env.link = .ramchip c → ∃ c', t.env.link = .ramchip c' ∧ c'.ram = c.ram)

/-- R36: the values after reset, one by one. -/
def Obligations.ResetValues : Prop :=
  let s := State.reset
  s.sr.cfg = false ∧ s.sr.cap = 0 ∧ s.sr.brem = 0 ∧ s.sr.orem = 0 ∧ s.sr.ord = .base ∧ s.sr.mode = .natural ∧
    s.sr.buf = [] ∧ s.link.cfg = false ∧ s.link.pulse = 0 ∧ s.link.te = false ∧ s.link.dir = .input ∧
    s.link.dout = .low ∧ s.pins.srData = .low ∧ s.pins.srClk = .low ∧ s.pins.srLatch = .low ∧
    s.pins.lClk = .low ∧ s.pins.lCe = .low ∧ s.status.err = .ok ∧ s.status.seIll = false ∧
    s.status.sePre = false ∧ s.status.seIo = false ∧ s.status.seNr = false ∧ s.result = none ∧ s.trace = [] ∧
    s.accesses = 0 ∧ s.statusWord = 0 ∧ s.srcfgWord = 0 ∧ s.linkcfgWord = 0 ∧
    (∀ l ∈ s.env.sipo.stage, l = .x) ∧ ∀ l ∈ s.env.sipo.outs, l = .x

/-- 70_reset_and_hazards.md section 1: right after reset only SR.CONFIG with a legal capacity, LINK.CONFIG with a legal pulse and ERR.CLEAR complete
with OK; every other operation completes with PRECOND, and an illegal word with ILLEGAL. -/
def Obligations.OnlyConfigurationSucceedsAfterReset : Prop :=
  ∀ p e host replies,
    (∀ i, ∃ t, exec i (State.afterReset p e host replies) = .next t ∧
      (t.status.err = .ok ∨ t.status.err = .precond) ∧
      (t.status.err = .ok ↔
        (∃ cap mode ord, i = .srConfig cap mode ord ∧ 1 ≤ cap.toNat ∧ cap.toNat ≤ p.capMax) ∨
          (∃ ns, i = .linkConfig ns ∧ 1 ≤ ns.toNat) ∨ i = .errClear)) ∧
      ∀ w e', decodeWord w = .error e' →
        ∃ t, issue w (State.afterReset p e host replies) = .next t ∧ t.status.err = .illegal

/-! ## The shift-register engine -/

/-- R66: SR.CONFIG with a legal capacity configures the engine and empties it, touching no pin; with an illegal one it
completes with PRECOND and the previous configuration stays. -/
def Obligations.SrConfigConfigures : Prop :=
  EncodedAs 0x00000001 0xFC0000FF (fun w => .srConfig (w.extractLsb' 8 16) (.ofBit (w.getLsbD 24)) (.ofBit (w.getLsbD 25))) ∧
    decodeWord 0x00001001 = .ok (.srConfig 16 .natural .base) ∧
    (∀ s cap mode ord, 1 ≤ cap.toNat → cap.toNat ≤ s.params.capMax →
      exec (.srConfig cap mode ord) s = .next { s with
        sr := { cfg := true, cap := cap, ord := ord, mode := mode, brem := cap, orem := cap, buf := [] }
        status := { s.status with err := .ok } }) ∧
    ∀ s cap mode ord, (cap = 0 ∨ s.params.capMax < cap.toNat) →
      exec (.srConfig cap mode ord) s = .next (s.refusedWith .precond)

/-- 40_shift_register.md section 2, SR.LOAD in the ordered personality: the bit is appended, the ordered counter goes
down by one, and nothing else but STATUS changes; no pin is touched. -/
def Obligations.SrLoadBuffersInOrderedPersonality : Prop :=
  ∀ s b, s.sr.cfg = true → s.sr.ord = .ordered → 0 < s.sr.orem.toNat →
    exec (.srLoad b) s = .next { s with
      sr := { s.sr with buf := s.sr.buf ++ [b], orem := s.sr.orem - 1 }
      status := { s.status with err := .ok } }

/-- 40_shift_register.md sections 1 and 2, SR.LOAD in the base personality with no failing access: the bit goes out with
one clock pulse, the base counter goes down by one, and the attached register shifts on the rising edge. -/
def Obligations.SrLoadShiftsOutInBasePersonality : Prop :=
  ∀ s b, s.sr.cfg = true → s.sr.ord = .base → 0 < s.sr.brem.toNat → s.Quiet 3 →
    ∃ t, exec (.srLoad b) s = .next t ∧ t.trace = s.trace ++ loadTrace s.params.srPulseNs b ∧
      t.sr = { s.sr with brem := s.sr.brem - 1 } ∧ t.pins.srData = .ofBit b ∧ t.pins.srClk = .low ∧
      t.pins.srLatch = s.pins.srLatch ∧ t.accesses = s.accesses + 3 ∧ t.result = s.result ∧
      t.status = { s.status with err := .ok } ∧ t.env.sipo.outs = s.env.sipo.outs ∧
      t.env.sipo.stage = (match s.pins.srClk with
        | .low => shiftIn (.ofBit b) s.env.sipo.stage
        | .high => s.env.sipo.stage
        | .x => allX s.env.sipo.stage) ∧
      SrFrame s t

/-- 40_shift_register.md section 2: SR.LOAD on an unconfigured or full engine completes with PRECOND and changes nothing
else, in either personality. -/
def Obligations.SrLoadRefusedWhenUnconfiguredOrFull : Prop :=
  ∀ s b, (s.sr.cfg = false ∨ s.sr.rem = 0) → exec (.srLoad b) s = .next (s.refusedWith .precond)

/-- 40_shift_register.md section 2, corner cases of SR.LOAD: where the failing access leaves each pin, and that the
cleanup resets the counters, for a failure at the first, second and third drive of a base load. -/
def Obligations.SrLoadFailureLeavesTheFailedPinUnknown : Prop :=
  ∀ s b, s.sr.cfg = true → s.sr.ord = .base → 0 < s.sr.brem.toNat →
    let first : Event := .drive .srData b
    let second : Event := .drive .srClk true
    let cleaned : SrEngine := { s.sr with brem := s.sr.cap, orem := s.sr.cap, buf := [] }
    let failedAs (t : State) (pins : Pins) (events : List Event) : Prop :=
      t.trace = s.trace ++ events ∧ t.pins = pins ∧ t.sr = cleaned ∧
        t.status = { s.status with err := .ioFault, seIo := true } ∧ t.result = s.result ∧ SrFrame s t
    (s.env.ioFail s.accesses s.trace = true →
      ∃ t, exec (.srLoad b) s = .next t ∧ failedAs t { s.pins with srData := .x } [.fail .srData]) ∧
    (s.env.ioFail s.accesses s.trace = false →
      s.env.ioFail (s.accesses + 1) (s.trace ++ [first]) = true →
      ∃ t, exec (.srLoad b) s = .next t ∧
        failedAs t { s.pins with srData := .ofBit b, srClk := .x } [first, .fail .srClk]) ∧
    (s.env.ioFail s.accesses s.trace = false →
      s.env.ioFail (s.accesses + 1) (s.trace ++ [first]) = false →
      s.env.ioFail (s.accesses + 2) (s.trace ++ [first, second, .wait s.params.srPulseNs]) = true →
      ∃ t, exec (.srLoad b) s = .next t ∧
        failedAs t { s.pins with srData := .ofBit b, srClk := .x }
          [first, second, .wait s.params.srPulseNs, .fail .srClk])

/-- 40_shift_register.md sections 1 and 2, SR.COMMIT in the base personality with no failing access, full or not: one
latch pulse, the base counter reset, and the attached register's outputs take its stage on a rising edge. -/
def Obligations.SrCommitLatchesInBasePersonality : Prop :=
  ∀ s, s.sr.cfg = true → s.sr.ord = .base → s.Quiet 2 →
    ∃ t, exec .srCommit s = .next t ∧ t.trace = s.trace ++ [.drive .srLatch true, .drive .srLatch false] ∧
      t.sr = { s.sr with brem := s.sr.cap } ∧ t.pins = { s.pins with srLatch := .low } ∧
      t.accesses = s.accesses + 2 ∧ t.result = s.result ∧ t.status = { s.status with err := .ok } ∧
      t.env.sipo.stage = s.env.sipo.stage ∧
      t.env.sipo.outs = (match s.pins.srLatch with
        | .low => s.env.sipo.stage
        | .high => s.env.sipo.outs
        | .x => allX s.env.sipo.outs) ∧
      SrFrame s t

/-- 40_shift_register.md section 2, SR.COMMIT in the ordered personality, full and with no failing access: the buffer is
replayed in the order its mode says, the latch is pulsed, and the engine is empty again. -/
def Obligations.SrCommitReplaysInOrderedPersonality : Prop :=
  ∀ s, s.sr.cfg = true → s.sr.ord = .ordered → s.sr.orem = 0 → s.Quiet (3 * s.sr.buf.length + 2) →
    let drained := match s.sr.mode with | .natural => s.sr.buf.reverse | .inverse => s.sr.buf
    ∃ t, exec .srCommit s = .next t ∧
      t.trace = s.trace ++ replayTrace s.params.srPulseNs drained ++ latchTrace ∧
      t.sr = { s.sr with brem := s.sr.cap, orem := s.sr.cap, buf := [] } ∧
      t.accesses = s.accesses + (3 * s.sr.buf.length + 2) ∧ t.pins.srLatch = .low ∧
      (∀ b, drained.getLast? = some b → t.pins.srData = .ofBit b ∧ t.pins.srClk = .low) ∧
      t.result = s.result ∧ t.status = { s.status with err := .ok } ∧ SrFrame s t

/-- 40_shift_register.md section 2: SR.COMMIT on an unconfigured engine, or on an ordered one that is not full,
completes with PRECOND; nothing else changes and the buffer is kept. -/
def Obligations.SrCommitRefusedWhenUnconfiguredOrNotFull : Prop :=
  ∀ s, (s.sr.cfg = false ∨ s.sr.ord = .ordered ∧ s.sr.orem ≠ 0) →
    exec .srCommit s = .next (s.refusedWith .precond)

/-- 40_shift_register.md sections 1 and 2: an SR.COMMIT or SR.CLEAR that completes with IOFAULT has run the cleanup
(counters at capacity, buffer empty) and its last event is the failed drive, whose pin is left unknown. -/
def Obligations.SrFailureResetsTheCounters : Prop :=
  ∀ i s t, (i = .srCommit ∨ i = .srClear) → exec i s = .next t → t.status.err = .ioFault →
    t.sr = { s.sr with brem := s.sr.cap, orem := s.sr.cap, buf := [] } ∧ SrFrame s t ∧ t.result = s.result ∧
      ∃ events, (t.trace = s.trace ++ events ++ [.fail .srData] ∧ t.pins.srData = .x ∨
        t.trace = s.trace ++ events ++ [.fail .srClk] ∧ t.pins.srClk = .x ∨
        t.trace = s.trace ++ events ++ [.fail .srLatch] ∧ t.pins.srLatch = .x)

/-- 40_shift_register.md section 2, SR.CLEAR: on an empty configured engine, in either personality, with no failing
access, `sr.cap` zeros are loaded and latched once, and the engine's elements are as before. -/
def Obligations.SrClearDrivesEveryOutputLow : Prop :=
  ∀ s, SrInv s.params s.sr → s.sr.cfg = true → s.sr.rem = s.sr.cap → s.Quiet (3 * s.sr.cap.toNat + 2) →
    ∃ t, exec .srClear s = .next t ∧
      t.trace = s.trace ++ replayTrace s.params.srPulseNs (List.replicate s.sr.cap.toNat false) ++ latchTrace ∧
      t.sr = s.sr ∧ t.accesses = s.accesses + (3 * s.sr.cap.toNat + 2) ∧
      t.pins = { s.pins with srData := .low, srClk := .low, srLatch := .low } ∧ t.result = s.result ∧
      t.status = { s.status with err := .ok } ∧ SrFrame s t ∧
      (s.pins.srClk = .low → s.pins.srLatch = .low → s.env.sipo.stage.length ≤ s.sr.cap.toNat →
        t.env.sipo.outs = s.env.sipo.stage.map fun _ => .low)

/-- 40_shift_register.md section 2: SR.CLEAR on an unconfigured engine or one that is not empty completes with PRECOND and
changes nothing else. -/
def Obligations.SrClearRefusedWhenUnconfiguredOrNotEmpty : Prop :=
  ∀ s, (s.sr.cfg = false ∨ s.sr.rem ≠ s.sr.cap) → exec .srClear s = .next (s.refusedWith .precond)

/-- R70: SR.ISFULL writes 1 to RESULT exactly when REM is 0, and nothing else but STATUS; unconfigured, it completes with
PRECOND. -/
def Obligations.SrIsfullReports : Prop :=
  EncodedAs 0x00000005 0xFFFFFFFF (fun _ => .srIsfull) ∧
    (∀ s, s.sr.cfg = true → exec .srIsfull s = .next { s with
      result := some (if s.sr.rem = 0 then 1 else 0), status := { s.status with err := .ok } }) ∧
    ∀ s, s.sr.cfg = false → exec .srIsfull s = .next (s.refusedWith .precond)

/-- 10_state.md section 2: in the base personality `sr.mode` has no effect: with another mode every operation of the
engine but SR.CONFIG does the same and keeps that mode. -/
def Obligations.ModeHasNoEffectInBasePersonality : Prop :=
  ∀ i s m t, (i = .srLoad true ∨ i = .srLoad false ∨ i = .srCommit ∨ i = .srClear ∨ i = .srIsfull) →
    s.sr.ord = .base → exec i s = .next t →
    exec i { s with sr := { s.sr with mode := m } } = .next { t with sr := { t.sr with mode := m } }

/-- R72: in an ordered cycle that loads `bs` and commits with no failure, the levels at the rising edges of SR_CLK are
`bs` reversed in natural mode and `bs` in inverse mode. -/
def Obligations.DrainOrderOfAnOrderedCycle : Prop :=
  ∀ s (bs : List Bool), s.sr.cfg = true → s.sr.ord = .ordered → s.sr.orem = s.sr.cap → s.sr.buf = [] →
    bs.length = s.sr.cap.toNat → s.Quiet (3 * s.sr.cap.toNat + 2) →
    ∃ t events, execAll (bs.map .srLoad ++ [.srCommit]) s = .next t ∧ t.status.err = .ok ∧
      t.trace = s.trace ++ events ∧
      ∀ before, clockedBits before events = (match s.sr.mode with | .natural => bs.reverse | .inverse => bs)

/-- R73: with the attached register of the same length as the capacity and no failure, an ordered cycle leaves the i-th
bit at position i (natural) or at position cap-1-i (inverse); and k base loads with a commit leave the loaded bits
last first, followed by the older stage. "No failure" includes that the clock and latch pins are low before, as every
successful operation leaves them. -/
def Obligations.OutputPositions : Prop :=
  (∀ s (bs : List Bool), s.sr.cfg = true → s.sr.ord = .ordered → s.sr.orem = s.sr.cap → s.sr.buf = [] →
    bs.length = s.sr.cap.toNat → s.env.sipo.stage.length = s.sr.cap.toNat → s.pins.srClk = .low →
    s.pins.srLatch = .low → s.Quiet (3 * s.sr.cap.toNat + 2) →
    ∃ t, execAll (bs.map .srLoad ++ [.srCommit]) s = .next t ∧
      t.env.sipo.outs = (match s.sr.mode with
        | .natural => bs.map Level.ofBit
        | .inverse => bs.reverse.map Level.ofBit)) ∧
    ∀ s (cs : List Bool), s.sr.cfg = true → s.sr.ord = .base → 1 ≤ cs.length → cs.length ≤ s.sr.brem.toNat →
      s.sr.brem.toNat ≤ s.sr.cap.toNat → s.env.sipo.stage.length = s.sr.cap.toNat → s.pins.srClk = .low →
      s.pins.srLatch = .low → s.Quiet (3 * cs.length + 2) →
      ∃ t, execAll (cs.map .srLoad ++ [.srCommit]) s = .next t ∧
        t.env.sipo.outs = cs.reverse.map Level.ofBit ++ s.env.sipo.stage.take (s.sr.cap.toNat - cs.length)

/-! ## The serial link -/

/-- R80: LINK.CONFIG sets the pulse while transfer is disabled; a pulse of 0, or an open session, completes with PRECOND
and changes nothing else. -/
def Obligations.LinkConfigSetsThePulse : Prop :=
  EncodedAs 0x00000010 0x000000FF (fun w => .linkConfig (w.extractLsb' 8 24)) ∧
    decodeWord 0x0003E810 = .ok (.linkConfig 1000) ∧
    (∀ s ns, 1 ≤ ns.toNat → s.link.te = false → exec (.linkConfig ns) s = .next { s with
      link := { s.link with cfg := true, pulse := ns }, status := { s.status with err := .ok } }) ∧
    ∀ s ns, (ns = 0 ∨ s.link.te = true) → exec (.linkConfig ns) s = .next (s.refusedWith .precond)

/-- 41_serial_link.md sections 1 and 2, LINK.ENABLE with no failing access, whether or not a session is open: the clock
is driven low, then chip-enable high, and transferEnabled is set; L_DATA is not touched. -/
def Obligations.LinkEnableOpensASession : Prop :=
  ∀ s, s.link.cfg = true → s.Quiet 2 →
    ∃ t, exec .linkEnable s = .next t ∧
      t.trace = s.trace ++ [.drive .lClk false, .wait s.link.pulse.toNat, .drive .lCe true,
        .wait s.link.pulse.toNat] ∧
      t.link = { s.link with te := true } ∧ t.pins = { s.pins with lClk := .low, lCe := .high } ∧
      t.accesses = s.accesses + 2 ∧ t.result = s.result ∧ t.status = { s.status with err := .ok } ∧ LinkFrame s t

/-- R82: LINK.DISABLE drives chip-enable low and clears transferEnabled, in a session or not; when its drive fails
transferEnabled stays and chip-enable is unknown, with no further access; unconfigured, PRECOND. -/
def Obligations.LinkDisableClosesTheSession : Prop :=
  EncodedAs 0x00000012 0xFFFFFFFF (fun _ => .linkDisable) ∧
    (∀ s, s.link.cfg = true → s.Quiet 1 →
      ∃ t, exec .linkDisable s = .next t ∧
        t.trace = s.trace ++ [.drive .lCe false, .wait s.link.pulse.toNat] ∧
        t.link = { s.link with te := false } ∧ t.pins = { s.pins with lCe := .low } ∧
        t.accesses = s.accesses + 1 ∧ t.result = s.result ∧ t.status = { s.status with err := .ok } ∧
        LinkFrame s t) ∧
    (∀ s, s.link.cfg = true → s.env.ioFail s.accesses s.trace = true →
      ∃ t, exec .linkDisable s = .next t ∧ t.trace = s.trace ++ [.fail .lCe] ∧ t.link = s.link ∧
        t.pins = { s.pins with lCe := .x } ∧ t.accesses = s.accesses + 1 ∧ t.result = s.result ∧
        t.status = { s.status with err := .ioFault, seIo := true } ∧ LinkFrame s t) ∧
    ∀ s, s.link.cfg = false → exec .linkDisable s = .next (s.refusedWith .precond)

/-- 41_serial_link.md sections 1 and 2, LINK.TX in an open session with no failing access: the direction is set to OUT and
the eight bits go out least significant first, each with one clock pulse. -/
def Obligations.LinkTxSendsTheByte : Prop :=
  ∀ s x, s.link.cfg = true → s.link.te = true → s.Quiet 25 →
    ∃ t, exec (.linkTx x) s = .next t ∧ t.trace = s.trace ++ txTrace s.link.pulse.toNat x ∧
      t.link = { s.link with dir := .output, dout := .ofBit (x.getLsbD 7) } ∧
      t.pins = { s.pins with lClk := .low } ∧ t.accesses = s.accesses + 25 ∧ t.result = s.result ∧
      t.status = { s.status with err := .ok } ∧ LinkFrame s t

/-- 41_serial_link.md section 2, 42_command_codec.md section 2 and 60_exceptions.md section 2: an unconfigured link
completes with PRECOND; a configured one with no open session completes a byte transfer with NOTREADY; nothing else
changes. The four wire bytes alone follow LINK.TX: the model's choice, log 5. -/
def Obligations.LinkOperationsNeedConfigurationAndSession : Prop :=
  ∀ s i,
    (s.link.cfg = false →
      (i = .linkEnable ∨ i = .linkRx ∨ (∃ x, i = .linkTx x) ∨ (∃ c n v, i = .cmdWrite c n v) ∨
        (∃ c n, i = .cmdRead c n) ∨ ∃ n, i = .cmdbyteWriteRam n ∨ i = .cmdbyteReadRam n ∨
          i = .cmdbyteWriteRtc n ∨ i = .cmdbyteReadRtc n) →
      exec i s = .next (s.refusedWith .precond)) ∧
    (s.link.cfg = true → s.link.te = false →
      (i = .linkRx ∨ (∃ x, i = .linkTx x) ∨ ∃ n, i = .cmdbyteWriteRam n ∨ i = .cmdbyteReadRam n ∨
          i = .cmdbyteWriteRtc n ∨ i = .cmdbyteReadRtc n) →
      exec i s = .next (s.refusedWith .notReady))

/-- 41_serial_link.md sections 1 and 2, LINK.RX in an open session with no failing access: the direction is set to IN, the
eight samples make up RESULT least significant first, and where no device is assumed sample i is the environment's draw
`env.sample` of its access, scripted or free (log 2). -/
def Obligations.LinkRxReceivesTheByte : Prop :=
  ∀ s, s.link.cfg = true → s.link.te = true → s.Quiet 25 →
    ∃ t r, exec .linkRx s = .next t ∧ t.trace = s.trace ++ rxTrace s.link.pulse.toNat r ∧
      t.result = some (r.setWidth 32) ∧ t.link = { s.link with dir := .input } ∧
      t.pins = { s.pins with lClk := .low } ∧ t.accesses = s.accesses + 25 ∧
      t.status = { s.status with err := .ok } ∧ LinkFrame s t ∧
      ∀ i < 8, s.env.link = .free →
        r.getLsbD i = s.env.sampleBit (s.accesses + 1 + 3 * i)
          (s.trace ++ .dir .input :: ((wireBits r).take i).flatMap (rxBitTrace s.link.pulse.toNat)) ∧
        ∀ k tr, s.env.sampleBit k tr =
          (match s.env.script[k]? with | some d => d.bit | none => Config.sample s.env.run k tr)

/-- R85: LINK.ISEN writes transferEnabled to RESULT and nothing else but STATUS; unconfigured, it completes with
PRECOND. -/
def Obligations.LinkIsenReports : Prop :=
  EncodedAs 0x00000015 0xFFFFFFFF (fun _ => .linkIsen) ∧
    (∀ s, s.link.cfg = true → exec .linkIsen s = .next { s with
      result := some (if s.link.te then 1 else 0), status := { s.status with err := .ok } }) ∧
    ∀ s, s.link.cfg = false → exec .linkIsen s = .next (s.refusedWith .precond)

/-- 41_serial_link.md sections 1 and 2: when LINK.ENABLE, LINK.TX or LINK.RX fails at a pin, chip-enable is driven low and
transferEnabled cleared before the operation completes, unless that drive fails too, which leaves L_CE unknown and transferEnabled as it was;
the code is IOFAULT either way. The four wire bytes alone do the same (the model's choice, log 5). -/
def Obligations.FailedTransferClosesTheSession : Prop :=
  ∀ s i t,
    (i = .linkEnable ∨ i = .linkRx ∨ (∃ x, i = .linkTx x) ∨ ∃ n, i = .cmdbyteWriteRam n ∨ i = .cmdbyteReadRam n ∨
      i = .cmdbyteWriteRtc n ∨ i = .cmdbyteReadRtc n) →
    exec i s = .next t → t.status.err = .ioFault →
    t.result = s.result ∧ LinkFrame s t ∧
      ∃ events failed, failed ∈ [Event.fail .lClk, .fail .lCe, .fail .lData, .failDir] ∧
        (t.trace = s.trace ++ events ++ [failed, .drive .lCe false, .wait s.link.pulse.toNat] ∧
            t.pins.lCe = .low ∧ t.link.te = false ∨
          t.trace = s.trace ++ events ++ [failed, .fail .lCe] ∧ t.pins.lCe = .x ∧ t.link.te = s.link.te)

/-! ## The command codec and the wire bytes -/

/-- 42_command_codec.md section 2, CMD.WRITE with no failing access, in a session or not: enable, command byte, data
byte, disable; RESULT is not written. -/
def Obligations.CmdWriteIsOneTransaction : Prop :=
  ∀ s cls index value, s.link.cfg = true → s.Quiet 53 →
    let p := s.link.pulse.toNat
    ∃ t, exec (.cmdWrite cls index value) s = .next t ∧
      t.trace = s.trace ++ (enableTrace p ++ txTrace p (cmdByte cls .write index) ++ txTrace p value ++ disableTrace p) ∧
      t.link = { s.link with te := false, dir := .output, dout := .ofBit (value.getLsbD 7) } ∧
      t.pins = { s.pins with lClk := .low, lCe := .low } ∧ t.accesses = s.accesses + 53 ∧ t.result = s.result ∧
      t.status = { s.status with err := .ok } ∧ LinkFrame s t

/-- 42_command_codec.md section 2, CMD.READ with no failing access, in a session or not: enable, command byte, eight
samples that make up RESULT, disable. Where no device is assumed sample i is the environment's draw `env.sample` of its
access, scripted or free (log 2). -/
def Obligations.CmdReadIsOneTransaction : Prop :=
  ∀ s cls index, s.link.cfg = true → s.Quiet 53 →
    let p := s.link.pulse.toNat
    ∃ t r, exec (.cmdRead cls index) s = .next t ∧
      t.trace = s.trace ++ (enableTrace p ++ txTrace p (cmdByte cls .read index) ++ rxTrace p r ++ disableTrace p) ∧
      t.result = some (r.setWidth 32) ∧
      t.link = { s.link with te := false, dir := .input, dout := .high } ∧
      t.pins = { s.pins with lClk := .low, lCe := .low } ∧ t.accesses = s.accesses + 53 ∧
      t.status = { s.status with err := .ok } ∧ LinkFrame s t ∧
      ∀ i < 8, s.env.link = .free →
        r.getLsbD i = s.env.sampleBit (s.accesses + 28 + 3 * i)
          (s.trace ++ (enableTrace p ++ txTrace p (cmdByte cls .read index) ++
            .dir .input :: ((wireBits r).take i).flatMap (rxBitTrace p))) ∧
        ∀ k tr, s.env.sampleBit k tr =
          (match s.env.script[k]? with | some d => d.bit | none => Config.sample s.env.run k tr)

/-- 42_command_codec.md section 3: with no failing access a CMD operation leaves exactly the state that the four link
operations leave one after the other. -/
def Obligations.CmdOperationIsItsFourLinkOperations : Prop :=
  ∀ s cls index, s.link.cfg = true → s.Quiet 53 →
    (∀ value, exec (.cmdWrite cls index value) s =
      execAll [.linkEnable, .linkTx (cmdByte cls .write index), .linkTx value, .linkDisable] s) ∧
    exec (.cmdRead cls index) s =
      execAll [.linkEnable, .linkTx (cmdByte cls .read index), .linkRx, .linkDisable] s

/-- R93: a CMD operation on a configured link ends with an attempt to drive L_CE to 0, after its whole sequence or after
the access that failed; chip-enable can stay asserted only when that final drive itself fails, and then the code is
IOFAULT and STATUS.PINX is 1. -/
def Obligations.CmdAlwaysReleasesChipEnable : Prop :=
  ∀ s i, s.link.cfg = true → ((∃ c n v, i = .cmdWrite c n v) ∨ ∃ c n, i = .cmdRead c n) →
    let p := s.link.pulse.toNat
    ∃ t events, exec i s = .next t ∧
      ((∃ c n v, i = .cmdWrite c n v ∧ events = enableTrace p ++ txTrace p (cmdByte c .write n) ++ txTrace p v) ∨
        (∃ c n r, i = .cmdRead c n ∧ events = enableTrace p ++ txTrace p (cmdByte c .read n) ++ rxTrace p r) ∨
        ∃ start, ∃ failed ∈ [Event.fail .lClk, .fail .lCe, .fail .lData, .failDir], events = start ++ [failed]) ∧
      (t.trace = s.trace ++ events ++ [.drive .lCe false, .wait p] ∧ t.pins.lCe = .low ∧ t.link.te = false ∨
        t.trace = s.trace ++ events ++ [.fail .lCe] ∧ t.pins.lCe = .x ∧ t.status.err = .ioFault ∧
          t.pinUnknown = true ∧ t.statusWord.getLsbD 14 = true)

/-- R91: `link_enable` completes with transferEnabled set or raises IoFault, so a CMD operation never completes with
NOTREADY. -/
def Obligations.CmdNeverCompletesNotReady : Prop :=
  (∀ s, (∃ t, linkEnable s = .done () t ∧ t.link.te = true) ∨ ∃ t, linkEnable s = .raised .ioFault t) ∧
    ∀ s i t, ((∃ c n v, i = .cmdWrite c n v) ∨ ∃ c n, i = .cmdRead c n) → exec i s = .next t →
      t.status.err ≠ .notReady

/-- The model's choice for the CMDBYTE rows (log 5), from 20_memory.md section 3 and 42_command_codec.md sections 1 and
3: in an open session with no failing access, the command byte goes out on L_DATA least significant bit first. -/
def Obligations.WireByteIsSentInAnOpenSession : Prop :=
  ∀ s i c, s.link.cfg = true → s.link.te = true → s.Quiet 25 → encode i = .wire c →
    ∃ t, exec i s = .next t ∧ t.trace = s.trace ++ txTrace s.link.pulse.toNat c ∧
      t.link = { s.link with dir := .output, dout := .high } ∧ t.pins = { s.pins with lClk := .low } ∧
      t.accesses = s.accesses + 25 ∧ t.result = s.result ∧ t.status = { s.status with err := .ok } ∧ LinkFrame s t

/-! ## Errors and the whole machine -/

/-- R94: ERR.CLEAR clears the four sticky bits and the code, and nothing else; it cannot fail. -/
def Obligations.ErrClearClearsTheErrorStatus : Prop :=
  EncodedAs 0x00000030 0xFFFFFFFF (fun _ => .errClear) ∧
    ∀ s, exec .errClear s = .next { s with
      status := { err := .ok, seIll := false, sePre := false, seIo := false, seNr := false } }

/-- 60_exceptions.md sections 1 and 3: every operation on every state completes, with the host's queue untouched. -/
def Obligations.EveryOperationCompletes : Prop :=
  ∀ i s, ∃ t, exec i s = .next t ∧ t.host = s.host ∧ t.replies = s.replies ∧ t.params = s.params

/-- R97: an operation that completes with code k stores k and sets k's sticky bit as its last effect, and no sticky bit is
cleared but by ERR.CLEAR; an illegal word does the same with ILLEGAL. -/
def Obligations.CompletionUpdatesTheStatus : Prop :=
  (∀ s, finish (.done () s) = .next { s with status := { s.status with err := .ok } } ∧
    finish (.raised .illegal s) = .next { s with status := { s.status with err := .illegal, seIll := true } } ∧
    finish (.raised .precondViolation s) = .next { s with status := { s.status with err := .precond, sePre := true } } ∧
    finish (.raised .ioFault s) = .next { s with status := { s.status with err := .ioFault, seIo := true } } ∧
    finish (.raised .linkNotReady s) = .next { s with status := { s.status with err := .notReady, seNr := true } }) ∧
  (∀ i s t, exec i s = .next t → i ≠ .errClear →
    t.status.seIll = (s.status.seIll || t.status.err == .illegal) ∧
      t.status.sePre = (s.status.sePre || t.status.err == .precond) ∧
      t.status.seIo = (s.status.seIo || t.status.err == .ioFault) ∧
      t.status.seNr = (s.status.seNr || t.status.err == .notReady)) ∧
    ∀ w s e, decodeWord w = .error e →
      issue w s = .next { s with status := { s.status with err := .illegal, seIll := true } }

/-- 60_exceptions.md section 3: an operation that completes with PRECOND or NOTREADY changed nothing but STATUS, and no
operation completes with ILLEGAL. -/
def Obligations.PreconditionErrorsArePrecise : Prop :=
  ∀ i s t, exec i s = .next t →
    (t.status.err = .precond ∨ t.status.err = .notReady → t = s.refusedWith t.status.err) ∧
      t.status.err ≠ .illegal

/-- 10_state.md section 5: RESULT is written by SR.ISFULL, LINK.RX, LINK.ISEN and CMD.READ when they complete with OK, and
by no other operation and no failed one. -/
def Obligations.ResultIsWrittenOnlyOnSuccess : Prop :=
  ∀ i s t, exec i s = .next t →
    (returnsValue i = false ∨ t.status.err ≠ .ok → t.result = s.result) ∧
      (returnsValue i = true → t.status.err = .ok → ∃ v, t.result = some v)

/-- 20_memory.md section 2: the two engines share no state: no shift-register operation touches the link's side, no
link, command or wire operation touches the shift register's, and ERR.CLEAR touches neither. The other engine's device
stays as it is too, except after an IOFAULT (70_reset_and_hazards.md section 3; OperationAppendsABoundedSegment says what
is left of the devices then). -/
def Obligations.EnginesShareNoState : Prop :=
  ∀ i s t, exec i s = .next t →
    (isSrOp i = true → SrFrame s t) ∧ (isLinkOp i = true → LinkFrame s t) ∧
      (i = .errClear → SrFrame s t ∧ LinkFrame s t ∧ t.env = s.env)

/-- 10_state.md sections 2, 3 and 4: only SR.CONFIG writes the engine's configuration, only LINK.CONFIG the link's, and only
byte transfers and CMD operations touch L_DATA, which the block leaves driven to `link.dout` when OUT, not driven when IN,
and unknown when X. The wire bytes are among the byte transfers by the model's choice (log 5). -/
def Obligations.OnlyConfigurationOperationsConfigure : Prop :=
  (∀ i s t, exec i s = .next t →
    ((∀ cap mode ord, i ≠ .srConfig cap mode ord) → t.sr.cfg = s.sr.cfg ∧ t.sr.cap = s.sr.cap ∧
      t.sr.ord = s.sr.ord ∧ t.sr.mode = s.sr.mode) ∧
    ((∀ ns, i ≠ .linkConfig ns) → t.link.cfg = s.link.cfg ∧ t.link.pulse = s.link.pulse) ∧
    (isSrOp i = true ∨ i = .errClear ∨ i = .linkEnable ∨ i = .linkDisable ∨ i = .linkIsen ∨
        (∃ ns, i = .linkConfig ns) →
      t.link.dir = s.link.dir ∧ t.link.dout = s.link.dout ∧ t.lData = s.lData)) ∧
  ∀ s : State, (s.link.dir = .output → s.lData = .driven s.link.dout) ∧ (s.link.dir = .input → s.lData = .notDriven) ∧
    (s.link.dir = .x → s.lData = .unknown)

/-- 20_memory.md sections 1 and 2, 60_exceptions.md sections 1 and 2, 70_reset_and_hazards.md sections 3 and 4: an
operation's events are one segment at the end of the trace, each access is counted, and the number of accesses is
bounded; a failed access is among them exactly when the code is IOFAULT; and then the state of each device, on the
failing engine's pins or not, is unknown (its form: log 10). The wire bytes' bound is LINK.TX's, by the model's choice
(log 5). -/
def Obligations.OperationAppendsABoundedSegment : Prop :=
  ∀ i s t, SrInv s.params s.sr → exec i s = .next t →
    (∃ events, t.trace = s.trace ++ events ∧ t.accesses = s.accesses + accessCount events ∧
      accessCount events ≤ accessBound i s ∧
      ((∃ e ∈ events, e.isFailure = true) ↔ t.status.err = .ioFault)) ∧
    (t.status.err = .ioFault →
      (∀ l ∈ t.env.sipo.stage, l = .x) ∧ (∀ l ∈ t.env.sipo.outs, l = .x) ∧ t.env.link = s.env.link.forget)

/-- 41_serial_link.md section 3 and 10_state.md section 3: in the events of every operation, whatever fails, each
`Drive(L_CE,1)` directly follows `Drive(L_CLK,0) Wait(P)`, and the direction changes only as the first event of LINK.TX or
LINK.RX or of a byte inside a CMD operation, to the direction of that byte; no other operation changes it. The four wire
bytes alone follow LINK.TX: the model's choice, log 5. -/
def Obligations.WireOrderInvariants : Prop :=
  ∀ i s t, exec i s = .next t →
    ∃ events, t.trace = s.trace ++ events ∧ DirOnlyAtByteStart i s.link.pulse.toNat events ∧
      ∀ before after, events = before ++ .drive .lCe true :: after →
        ∃ start, before = start ++ [.drive .lClk false, .wait s.link.pulse.toNat]

/-- 70_reset_and_hazards.md section 4: the minimum wait, the accesses and the events of an operation that completes with no
error. -/
def Obligations.TimingTable : Prop :=
  ∀ i s t, SrInv s.params s.sr → exec i s = .next t → t.status.err = .ok →
    ∃ events, t.trace = s.trace ++ events ∧
      (waitTotal events, accessCount events, events.length) = timingRow i s

/-- R28 and R22: where the fields of STATUS lie, the numbers of the completion codes in ERR (the code column of R96), what
REM and FULL are, that it is 0 at reset, computed at each read, and not written by the host. -/
def Obligations.StatusWordFields : Prop :=
  State.reset.statusWord = 0 ∧
  (∀ s rest, s.host = .access (.read (s.params.base + 0x04) 4) :: rest →
    step s = .next { s with host := rest, replies := s.replies ++ [s.statusWord] }) ∧
  (∀ s rest v, s.host = .access (.write (s.params.base + 0x04) 4 v) :: rest → step s = .next { s with host := rest }) ∧
  (Completion.ok.code = 0 ∧ Completion.illegal.code = 1 ∧ Completion.precond.code = 2 ∧ Completion.ioFault.code = 3 ∧
    Completion.notReady.code = 4) ∧
  ∀ s : State, let w := s.statusWord
    let rem := if s.sr.cfg then (match s.sr.ord with | .base => s.sr.brem | .ordered => s.sr.orem) else 0
    w.extractLsb' 0 3 = s.status.err.code ∧ w.getLsbD 3 = false ∧ w.getLsbD 4 = s.status.seIll ∧
      w.getLsbD 5 = s.status.sePre ∧ w.getLsbD 6 = s.status.seIo ∧ w.getLsbD 7 = s.status.seNr ∧
      w.getLsbD 8 = s.sr.cfg ∧ w.getLsbD 9 = s.link.cfg ∧ w.getLsbD 10 = s.link.te ∧
      w.getLsbD 11 = decide (s.sr.cfg = true ∧ rem = 0) ∧ w.getLsbD 12 = decide (s.link.dir = .output) ∧
      w.getLsbD 13 = decide (s.link.dir = .x) ∧
      w.getLsbD 14 = decide (s.pins.srData = .x ∨ s.pins.srClk = .x ∨ s.pins.srLatch = .x ∨ s.pins.lClk = .x ∨
        s.pins.lCe = .x ∨ s.link.dout = .x) ∧
      w.getLsbD 15 = false ∧ w.extractLsb' 16 16 = rem ∧ s.status.err.code.toNat ≤ 4

/-- R30 and R31: the fields of SRCFG and LINKCFG, 0 where unconfigured and at reset, read and not written by the host, and
the one operation that changes each. -/
def Obligations.ConfigurationWords : Prop :=
  (∀ s : State, s.srcfgWord.extractLsb' 0 16 = (if s.sr.cfg then s.sr.cap else 0) ∧
    s.srcfgWord.getLsbD 16 = s.sr.mode.toBit ∧ s.srcfgWord.getLsbD 17 = s.sr.ord.toBit ∧
    s.srcfgWord.extractLsb' 18 14 = 0 ∧
    s.linkcfgWord.extractLsb' 0 24 = (if s.link.cfg then s.link.pulse else 0) ∧
    s.linkcfgWord.extractLsb' 24 8 = 0) ∧
  (State.reset.srcfgWord = 0 ∧ State.reset.linkcfgWord = 0) ∧
  (∀ s rest v off, (off = 0x0C ∧ v = s.srcfgWord ∨ off = 0x10 ∧ v = s.linkcfgWord) →
    (s.host = .access (.read (s.params.base + off) 4) :: rest →
      step s = .next { s with host := rest, replies := s.replies ++ [v] }) ∧
    ∀ x, s.host = .access (.write (s.params.base + off) 4 x) :: rest → step s = .next { s with host := rest }) ∧
  ∀ i s t, exec i s = .next t →
    ((∀ cap mode ord, i ≠ .srConfig cap mode ord) → t.srcfgWord = s.srcfgWord) ∧
      ((∀ ns, i ≠ .linkConfig ns) → t.linkcfgWord = s.linkcfgWord)

/-- The invariant holds after reset. -/
def Obligations.ResetMeetsTheInvariant : Prop := State.reset.Inv

/-- Every step keeps the invariant, from every state that meets it: the counters and the buffer agree with the capacity
and the personality, transferEnabled with chip-enable, the code with its sticky bit, the count of accesses and the pin
levels with the trace, chip-enable rises only after the clock is low, and the attached devices keep their lengths. -/
def Obligations.EveryStepKeepsTheInvariant : Prop :=
  ∀ s t, s.Inv → step s = .next t → t.Inv

/-- R86: with LOOPBACK and no failing access, in an open session, LINK.TX x followed at once by LINK.RX gives
RESULT = x. -/
def Obligations.LoopbackRoundTrip : Prop :=
  ∀ s x l, s.link.cfg = true → s.link.te = true → s.env.link = .loopback l → s.Quiet 50 →
    ∃ t, execAll [.linkTx x, .linkRx] s = .next t ∧ t.result = some (x.setWidth 32) ∧ t.status.err = .ok

/-- 10_state.md section 6 and 95_test_vectors.md section 4, program P2: with RAMCHIP attached, chip-enable low and no
failing access, a byte written to a RAM register is read back from it, and no other register changes. -/
def Obligations.RamChipReadsBackWhatWasWritten : Prop :=
  ∀ s c index value, s.link.cfg = true → s.env.link = .ramchip c → c.ram.length = 32 → s.pins.lCe = .low →
    s.Quiet 106 →
    ∃ t c', execAll [.cmdWrite .ram index value, .cmdRead .ram index] s = .next t ∧
      t.result = some (value.setWidth 32) ∧ t.status.err = .ok ∧ t.env.link = .ramchip c' ∧
      c'.ram = c.ram.set index.toNat value
end

