-- ==== Sys2Proof/Laws/Decode.lean ====
section
/-! SUPPORT. What the decoder does, once: a word that a row selects decodes to that row's operation, and the bytes of a
code decode as the code. -/

namespace Sys2Proof

/-- Every row of the opcode map compares all of the opcode byte. -/
theorem opTable_comparesOpcode {r : OpRow} (hr : r ∈ opTable) {w : Word} (h : w &&& r.mask = r.pattern) :
    w &&& 0xFF = r.pattern &&& 0xFF := by
  have hm : r.mask &&& 0xFF = 0xFF := by
    clear h
    simp only [opTable, List.mem_cons, List.not_mem_nil, or_false] at hr
    rcases hr with rfl | rfl | rfl | rfl | rfl | rfl | rfl | rfl | rfl | rfl | rfl | rfl | rfl | rfl <;> rfl
  rw [← h, BitVec.and_assoc, hm]

/-- A row of the opcode map is known by its opcode byte. -/
theorem opTable_eq_of_opcode {r q : OpRow} (hr : r ∈ opTable) (hq : q ∈ opTable)
    (h : q.pattern &&& 0xFF = r.pattern &&& 0xFF) : q = r := by
  simp only [opTable, List.mem_cons, List.not_mem_nil, or_false] at hr hq
  rcases hr with rfl | rfl | rfl | rfl | rfl | rfl | rfl | rfl | rfl | rfl | rfl | rfl | rfl | rfl <;>
    rcases hq with rfl | rfl | rfl | rfl | rfl | rfl | rfl | rfl | rfl | rfl | rfl | rfl | rfl | rfl <;>
    first | rfl | (exfalso; revert h; decide)

/-- A word that a row of the opcode map selects decodes to that row's operation. -/
theorem decodeWord_of_row {r : OpRow} (hr : r ∈ opTable) {w : Word} (h : w &&& r.mask = r.pattern) :
    decodeWord w = .ok (r.build w) := by
  have hself : r.selects w = true := by simp [OpRow.selects, h]
  unfold decodeWord
  cases hf : opTable.find? (fun r => r.selects w) with
  | none => exact absurd hself (by simpa using List.find?_eq_none.mp hf r hr)
  | some q =>
    have hq := List.mem_of_find?_eq_some hf
    have hs : w &&& q.mask = q.pattern := by simpa [OpRow.selects] using List.find?_some hf
    have : q = r := opTable_eq_of_opcode hr hq (by rw [← opTable_comparesOpcode hq hs, opTable_comparesOpcode hr h])
    rw [this]

/-- The bytes of a word, put together again, are the word. -/
theorem word_of_bytes (w : Word) :
    w.extractLsb' 24 8 ++ w.extractLsb' 16 8 ++ w.extractLsb' 8 8 ++ w.extractLsb' 0 8 = w := by
  ext i hi
  simp
  grind

/-- The bytes of a code decode as the code. -/
theorem decodeBytes_bytes (c : Code) : decodeBytes c.bytes = decode c := by
  cases c with
  | word w => simp only [decodeBytes, Code.bytes, codeOfBytes]; rw [word_of_bytes]
  | wire b => rfl

end Sys2Proof
end

