-- ==== Sys2Proof/Laws/State.lean ====
section
/-! SUPPORT. One lemma for each field of State under each update, so that no proof unfolds an update. -/

namespace Sys2Proof.Machine.State

/-! ### `State.emit` -/

@[simp] theorem emit_params (e : Event) (s : State) :
    (s.emit e).params = s.params := rfl
@[simp] theorem emit_sr (e : Event) (s : State) :
    (s.emit e).sr = s.sr := rfl
@[simp] theorem emit_link (e : Event) (s : State) :
    (s.emit e).link = s.link := rfl
@[simp] theorem emit_pins (e : Event) (s : State) :
    (s.emit e).pins = s.pins := rfl
@[simp] theorem emit_status (e : Event) (s : State) :
    (s.emit e).status = s.status := rfl
@[simp] theorem emit_result (e : Event) (s : State) :
    (s.emit e).result = s.result := rfl
@[simp] theorem emit_trace (e : Event) (s : State) :
    (s.emit e).trace = s.trace ++ [e] := rfl
@[simp] theorem emit_accesses (e : Event) (s : State) :
    (s.emit e).accesses = s.accesses := rfl
@[simp] theorem emit_env (e : Event) (s : State) :
    (s.emit e).env = { s.env with sipo := s.env.sipo.observe s.pins e, link := s.env.link.observe s.pins.lCe e } := rfl
@[simp] theorem emit_host (e : Event) (s : State) :
    (s.emit e).host = s.host := rfl
@[simp] theorem emit_replies (e : Event) (s : State) :
    (s.emit e).replies = s.replies := rfl

/-! ### `State.setDirState` -/

@[simp] theorem setDirState_params (d : DirState) (s : State) :
    (s.setDirState d).params = s.params := rfl
@[simp] theorem setDirState_sr (d : DirState) (s : State) :
    (s.setDirState d).sr = s.sr := rfl
@[simp] theorem setDirState_link (d : DirState) (s : State) :
    (s.setDirState d).link = { s.link with dir := d } := rfl
@[simp] theorem setDirState_pins (d : DirState) (s : State) :
    (s.setDirState d).pins = s.pins := rfl
@[simp] theorem setDirState_status (d : DirState) (s : State) :
    (s.setDirState d).status = s.status := rfl
@[simp] theorem setDirState_result (d : DirState) (s : State) :
    (s.setDirState d).result = s.result := rfl
@[simp] theorem setDirState_trace (d : DirState) (s : State) :
    (s.setDirState d).trace = s.trace := rfl
@[simp] theorem setDirState_accesses (d : DirState) (s : State) :
    (s.setDirState d).accesses = s.accesses := rfl
@[simp] theorem setDirState_env (d : DirState) (s : State) :
    (s.setDirState d).env = s.env := rfl
@[simp] theorem setDirState_host (d : DirState) (s : State) :
    (s.setDirState d).host = s.host := rfl
@[simp] theorem setDirState_replies (d : DirState) (s : State) :
    (s.setDirState d).replies = s.replies := rfl

/-! ### `State.countAccess` -/

@[simp] theorem countAccess_params (s : State) :
    (s.countAccess).params = s.params := rfl
@[simp] theorem countAccess_sr (s : State) :
    (s.countAccess).sr = s.sr := rfl
@[simp] theorem countAccess_link (s : State) :
    (s.countAccess).link = s.link := rfl
@[simp] theorem countAccess_pins (s : State) :
    (s.countAccess).pins = s.pins := rfl
@[simp] theorem countAccess_status (s : State) :
    (s.countAccess).status = s.status := rfl
@[simp] theorem countAccess_result (s : State) :
    (s.countAccess).result = s.result := rfl
@[simp] theorem countAccess_trace (s : State) :
    (s.countAccess).trace = s.trace := rfl
@[simp] theorem countAccess_accesses (s : State) :
    (s.countAccess).accesses = s.accesses + 1 := rfl
@[simp] theorem countAccess_env (s : State) :
    (s.countAccess).env = s.env := rfl
@[simp] theorem countAccess_host (s : State) :
    (s.countAccess).host = s.host := rfl
@[simp] theorem countAccess_replies (s : State) :
    (s.countAccess).replies = s.replies := rfl

/-! ### `State.setResult` -/

@[simp] theorem setResult_params (v : Word) (s : State) :
    (s.setResult v).params = s.params := rfl
@[simp] theorem setResult_sr (v : Word) (s : State) :
    (s.setResult v).sr = s.sr := rfl
@[simp] theorem setResult_link (v : Word) (s : State) :
    (s.setResult v).link = s.link := rfl
@[simp] theorem setResult_pins (v : Word) (s : State) :
    (s.setResult v).pins = s.pins := rfl
@[simp] theorem setResult_status (v : Word) (s : State) :
    (s.setResult v).status = s.status := rfl
@[simp] theorem setResult_result (v : Word) (s : State) :
    (s.setResult v).result = some v := rfl
@[simp] theorem setResult_trace (v : Word) (s : State) :
    (s.setResult v).trace = s.trace := rfl
@[simp] theorem setResult_accesses (v : Word) (s : State) :
    (s.setResult v).accesses = s.accesses := rfl
@[simp] theorem setResult_env (v : Word) (s : State) :
    (s.setResult v).env = s.env := rfl
@[simp] theorem setResult_host (v : Word) (s : State) :
    (s.setResult v).host = s.host := rfl
@[simp] theorem setResult_replies (v : Word) (s : State) :
    (s.setResult v).replies = s.replies := rfl

/-! ### `State.complete` -/

@[simp] theorem complete_params (k : Completion) (s : State) :
    (s.complete k).params = s.params := rfl
@[simp] theorem complete_sr (k : Completion) (s : State) :
    (s.complete k).sr = s.sr := rfl
@[simp] theorem complete_link (k : Completion) (s : State) :
    (s.complete k).link = s.link := rfl
@[simp] theorem complete_pins (k : Completion) (s : State) :
    (s.complete k).pins = s.pins := rfl
@[simp] theorem complete_status (k : Completion) (s : State) :
    (s.complete k).status = s.status.complete k := rfl
@[simp] theorem complete_result (k : Completion) (s : State) :
    (s.complete k).result = s.result := rfl
@[simp] theorem complete_trace (k : Completion) (s : State) :
    (s.complete k).trace = s.trace := rfl
@[simp] theorem complete_accesses (k : Completion) (s : State) :
    (s.complete k).accesses = s.accesses := rfl
@[simp] theorem complete_env (k : Completion) (s : State) :
    (s.complete k).env = s.env := rfl
@[simp] theorem complete_host (k : Completion) (s : State) :
    (s.complete k).host = s.host := rfl
@[simp] theorem complete_replies (k : Completion) (s : State) :
    (s.complete k).replies = s.replies := rfl

/-! ### `State.setBrem` -/

@[simp] theorem setBrem_params (v : BitVec 16) (s : State) :
    (s.setBrem v).params = s.params := rfl
@[simp] theorem setBrem_sr (v : BitVec 16) (s : State) :
    (s.setBrem v).sr = { s.sr with brem := v } := rfl
@[simp] theorem setBrem_link (v : BitVec 16) (s : State) :
    (s.setBrem v).link = s.link := rfl
@[simp] theorem setBrem_pins (v : BitVec 16) (s : State) :
    (s.setBrem v).pins = s.pins := rfl
@[simp] theorem setBrem_status (v : BitVec 16) (s : State) :
    (s.setBrem v).status = s.status := rfl
@[simp] theorem setBrem_result (v : BitVec 16) (s : State) :
    (s.setBrem v).result = s.result := rfl
@[simp] theorem setBrem_trace (v : BitVec 16) (s : State) :
    (s.setBrem v).trace = s.trace := rfl
@[simp] theorem setBrem_accesses (v : BitVec 16) (s : State) :
    (s.setBrem v).accesses = s.accesses := rfl
@[simp] theorem setBrem_env (v : BitVec 16) (s : State) :
    (s.setBrem v).env = s.env := rfl
@[simp] theorem setBrem_host (v : BitVec 16) (s : State) :
    (s.setBrem v).host = s.host := rfl
@[simp] theorem setBrem_replies (v : BitVec 16) (s : State) :
    (s.setBrem v).replies = s.replies := rfl

/-! ### `State.srCleanup` -/

@[simp] theorem srCleanup_params (s : State) :
    (s.srCleanup).params = s.params := rfl
@[simp] theorem srCleanup_sr (s : State) :
    (s.srCleanup).sr = { s.sr with brem := s.sr.cap, orem := s.sr.cap, buf := [] } := rfl
@[simp] theorem srCleanup_link (s : State) :
    (s.srCleanup).link = s.link := rfl
@[simp] theorem srCleanup_pins (s : State) :
    (s.srCleanup).pins = s.pins := rfl
@[simp] theorem srCleanup_status (s : State) :
    (s.srCleanup).status = s.status := rfl
@[simp] theorem srCleanup_result (s : State) :
    (s.srCleanup).result = s.result := rfl
@[simp] theorem srCleanup_trace (s : State) :
    (s.srCleanup).trace = s.trace := rfl
@[simp] theorem srCleanup_accesses (s : State) :
    (s.srCleanup).accesses = s.accesses := rfl
@[simp] theorem srCleanup_env (s : State) :
    (s.srCleanup).env = s.env := rfl
@[simp] theorem srCleanup_host (s : State) :
    (s.srCleanup).host = s.host := rfl
@[simp] theorem srCleanup_replies (s : State) :
    (s.srCleanup).replies = s.replies := rfl

/-! ### `State.configureSr` -/

@[simp] theorem configureSr_params (cap : BitVec 16) (mode : BitOrder) (ord : Personality) (s : State) :
    (s.configureSr cap mode ord).params = s.params := rfl
@[simp] theorem configureSr_sr (cap : BitVec 16) (mode : BitOrder) (ord : Personality) (s : State) :
    (s.configureSr cap mode ord).sr = { cfg := true, cap := cap, ord := ord, mode := mode, brem := cap, orem := cap, buf := [] } := rfl
@[simp] theorem configureSr_link (cap : BitVec 16) (mode : BitOrder) (ord : Personality) (s : State) :
    (s.configureSr cap mode ord).link = s.link := rfl
@[simp] theorem configureSr_pins (cap : BitVec 16) (mode : BitOrder) (ord : Personality) (s : State) :
    (s.configureSr cap mode ord).pins = s.pins := rfl
@[simp] theorem configureSr_status (cap : BitVec 16) (mode : BitOrder) (ord : Personality) (s : State) :
    (s.configureSr cap mode ord).status = s.status := rfl
@[simp] theorem configureSr_result (cap : BitVec 16) (mode : BitOrder) (ord : Personality) (s : State) :
    (s.configureSr cap mode ord).result = s.result := rfl
@[simp] theorem configureSr_trace (cap : BitVec 16) (mode : BitOrder) (ord : Personality) (s : State) :
    (s.configureSr cap mode ord).trace = s.trace := rfl
@[simp] theorem configureSr_accesses (cap : BitVec 16) (mode : BitOrder) (ord : Personality) (s : State) :
    (s.configureSr cap mode ord).accesses = s.accesses := rfl
@[simp] theorem configureSr_env (cap : BitVec 16) (mode : BitOrder) (ord : Personality) (s : State) :
    (s.configureSr cap mode ord).env = s.env := rfl
@[simp] theorem configureSr_host (cap : BitVec 16) (mode : BitOrder) (ord : Personality) (s : State) :
    (s.configureSr cap mode ord).host = s.host := rfl
@[simp] theorem configureSr_replies (cap : BitVec 16) (mode : BitOrder) (ord : Personality) (s : State) :
    (s.configureSr cap mode ord).replies = s.replies := rfl

/-! ### `State.bufferBit` -/

@[simp] theorem bufferBit_params (b : Bool) (s : State) :
    (s.bufferBit b).params = s.params := rfl
@[simp] theorem bufferBit_sr (b : Bool) (s : State) :
    (s.bufferBit b).sr = { s.sr with buf := s.sr.buf ++ [b], orem := s.sr.orem - 1 } := rfl
@[simp] theorem bufferBit_link (b : Bool) (s : State) :
    (s.bufferBit b).link = s.link := rfl
@[simp] theorem bufferBit_pins (b : Bool) (s : State) :
    (s.bufferBit b).pins = s.pins := rfl
@[simp] theorem bufferBit_status (b : Bool) (s : State) :
    (s.bufferBit b).status = s.status := rfl
@[simp] theorem bufferBit_result (b : Bool) (s : State) :
    (s.bufferBit b).result = s.result := rfl
@[simp] theorem bufferBit_trace (b : Bool) (s : State) :
    (s.bufferBit b).trace = s.trace := rfl
@[simp] theorem bufferBit_accesses (b : Bool) (s : State) :
    (s.bufferBit b).accesses = s.accesses := rfl
@[simp] theorem bufferBit_env (b : Bool) (s : State) :
    (s.bufferBit b).env = s.env := rfl
@[simp] theorem bufferBit_host (b : Bool) (s : State) :
    (s.bufferBit b).host = s.host := rfl
@[simp] theorem bufferBit_replies (b : Bool) (s : State) :
    (s.bufferBit b).replies = s.replies := rfl

/-! ### `State.setTe` -/

@[simp] theorem setTe_params (v : Bool) (s : State) :
    (s.setTe v).params = s.params := rfl
@[simp] theorem setTe_sr (v : Bool) (s : State) :
    (s.setTe v).sr = s.sr := rfl
@[simp] theorem setTe_link (v : Bool) (s : State) :
    (s.setTe v).link = { s.link with te := v } := rfl
@[simp] theorem setTe_pins (v : Bool) (s : State) :
    (s.setTe v).pins = s.pins := rfl
@[simp] theorem setTe_status (v : Bool) (s : State) :
    (s.setTe v).status = s.status := rfl
@[simp] theorem setTe_result (v : Bool) (s : State) :
    (s.setTe v).result = s.result := rfl
@[simp] theorem setTe_trace (v : Bool) (s : State) :
    (s.setTe v).trace = s.trace := rfl
@[simp] theorem setTe_accesses (v : Bool) (s : State) :
    (s.setTe v).accesses = s.accesses := rfl
@[simp] theorem setTe_env (v : Bool) (s : State) :
    (s.setTe v).env = s.env := rfl
@[simp] theorem setTe_host (v : Bool) (s : State) :
    (s.setTe v).host = s.host := rfl
@[simp] theorem setTe_replies (v : Bool) (s : State) :
    (s.setTe v).replies = s.replies := rfl

/-! ### `State.configureLink` -/

@[simp] theorem configureLink_params (ns : BitVec 24) (s : State) :
    (s.configureLink ns).params = s.params := rfl
@[simp] theorem configureLink_sr (ns : BitVec 24) (s : State) :
    (s.configureLink ns).sr = s.sr := rfl
@[simp] theorem configureLink_link (ns : BitVec 24) (s : State) :
    (s.configureLink ns).link = { s.link with cfg := true, pulse := ns } := rfl
@[simp] theorem configureLink_pins (ns : BitVec 24) (s : State) :
    (s.configureLink ns).pins = s.pins := rfl
@[simp] theorem configureLink_status (ns : BitVec 24) (s : State) :
    (s.configureLink ns).status = s.status := rfl
@[simp] theorem configureLink_result (ns : BitVec 24) (s : State) :
    (s.configureLink ns).result = s.result := rfl
@[simp] theorem configureLink_trace (ns : BitVec 24) (s : State) :
    (s.configureLink ns).trace = s.trace := rfl
@[simp] theorem configureLink_accesses (ns : BitVec 24) (s : State) :
    (s.configureLink ns).accesses = s.accesses := rfl
@[simp] theorem configureLink_env (ns : BitVec 24) (s : State) :
    (s.configureLink ns).env = s.env := rfl
@[simp] theorem configureLink_host (ns : BitVec 24) (s : State) :
    (s.configureLink ns).host = s.host := rfl
@[simp] theorem configureLink_replies (ns : BitVec 24) (s : State) :
    (s.configureLink ns).replies = s.replies := rfl

/-! ### `State.clearSticky` -/

@[simp] theorem clearSticky_params (s : State) :
    (s.clearSticky).params = s.params := rfl
@[simp] theorem clearSticky_sr (s : State) :
    (s.clearSticky).sr = s.sr := rfl
@[simp] theorem clearSticky_link (s : State) :
    (s.clearSticky).link = s.link := rfl
@[simp] theorem clearSticky_pins (s : State) :
    (s.clearSticky).pins = s.pins := rfl
@[simp] theorem clearSticky_status (s : State) :
    (s.clearSticky).status = { s.status with seIll := false, sePre := false, seIo := false, seNr := false } := rfl
@[simp] theorem clearSticky_result (s : State) :
    (s.clearSticky).result = s.result := rfl
@[simp] theorem clearSticky_trace (s : State) :
    (s.clearSticky).trace = s.trace := rfl
@[simp] theorem clearSticky_accesses (s : State) :
    (s.clearSticky).accesses = s.accesses := rfl
@[simp] theorem clearSticky_env (s : State) :
    (s.clearSticky).env = s.env := rfl
@[simp] theorem clearSticky_host (s : State) :
    (s.clearSticky).host = s.host := rfl
@[simp] theorem clearSticky_replies (s : State) :
    (s.clearSticky).replies = s.replies := rfl

/-! ### `State.withHost` -/

@[simp] theorem withHost_params (is : List Input) (s : State) :
    (s.withHost is).params = s.params := rfl
@[simp] theorem withHost_sr (is : List Input) (s : State) :
    (s.withHost is).sr = s.sr := rfl
@[simp] theorem withHost_link (is : List Input) (s : State) :
    (s.withHost is).link = s.link := rfl
@[simp] theorem withHost_pins (is : List Input) (s : State) :
    (s.withHost is).pins = s.pins := rfl
@[simp] theorem withHost_status (is : List Input) (s : State) :
    (s.withHost is).status = s.status := rfl
@[simp] theorem withHost_result (is : List Input) (s : State) :
    (s.withHost is).result = s.result := rfl
@[simp] theorem withHost_trace (is : List Input) (s : State) :
    (s.withHost is).trace = s.trace := rfl
@[simp] theorem withHost_accesses (is : List Input) (s : State) :
    (s.withHost is).accesses = s.accesses := rfl
@[simp] theorem withHost_env (is : List Input) (s : State) :
    (s.withHost is).env = s.env := rfl
@[simp] theorem withHost_host (is : List Input) (s : State) :
    (s.withHost is).host = is := rfl
@[simp] theorem withHost_replies (is : List Input) (s : State) :
    (s.withHost is).replies = s.replies := rfl

/-! ### `State.rst` -/

@[simp] theorem rst_params (ab : Bool) (ds : List Draw) (s : State) :
    (s.rst ab ds).params = s.params := rfl
@[simp] theorem rst_sr (ab : Bool) (ds : List Draw) (s : State) :
    (s.rst ab ds).sr = .reset := rfl
@[simp] theorem rst_link (ab : Bool) (ds : List Draw) (s : State) :
    (s.rst ab ds).link = .reset := rfl
@[simp] theorem rst_pins (ab : Bool) (ds : List Draw) (s : State) :
    (s.rst ab ds).pins = .reset := rfl
@[simp] theorem rst_status (ab : Bool) (ds : List Draw) (s : State) :
    (s.rst ab ds).status = .reset := rfl
@[simp] theorem rst_result (ab : Bool) (ds : List Draw) (s : State) :
    (s.rst ab ds).result = none := rfl
@[simp] theorem rst_trace (ab : Bool) (ds : List Draw) (s : State) :
    (s.rst ab ds).trace = [] := rfl
@[simp] theorem rst_accesses (ab : Bool) (ds : List Draw) (s : State) :
    (s.rst ab ds).accesses = 0 := rfl
@[simp] theorem rst_env (ab : Bool) (ds : List Draw) (s : State) :
    (s.rst ab ds).env = s.env.onRst ab ds := rfl
@[simp] theorem rst_host (ab : Bool) (ds : List Draw) (s : State) :
    (s.rst ab ds).host = s.host := rfl
@[simp] theorem rst_replies (ab : Bool) (ds : List Draw) (s : State) :
    (s.rst ab ds).replies = s.replies := rfl

/-! ### `State.setPin` -/

@[simp] theorem setPin_params (p : Pin) (v : Level) (s : State) :
    (s.setPin p v).params = s.params := by cases p <;> rfl
@[simp] theorem setPin_sr (p : Pin) (v : Level) (s : State) :
    (s.setPin p v).sr = s.sr := by cases p <;> rfl
@[simp] theorem setPin_status (p : Pin) (v : Level) (s : State) :
    (s.setPin p v).status = s.status := by cases p <;> rfl
@[simp] theorem setPin_result (p : Pin) (v : Level) (s : State) :
    (s.setPin p v).result = s.result := by cases p <;> rfl
@[simp] theorem setPin_trace (p : Pin) (v : Level) (s : State) :
    (s.setPin p v).trace = s.trace := by cases p <;> rfl
@[simp] theorem setPin_accesses (p : Pin) (v : Level) (s : State) :
    (s.setPin p v).accesses = s.accesses := by cases p <;> rfl
@[simp] theorem setPin_env (p : Pin) (v : Level) (s : State) :
    (s.setPin p v).env = s.env := by cases p <;> rfl
@[simp] theorem setPin_host (p : Pin) (v : Level) (s : State) :
    (s.setPin p v).host = s.host := by cases p <;> rfl
@[simp] theorem setPin_replies (p : Pin) (v : Level) (s : State) :
    (s.setPin p v).replies = s.replies := by cases p <;> rfl
@[simp] theorem setPin_srData_pins (v : Level) (s : State) :
    (s.setPin .srData v).pins = { s.pins with srData := v } := rfl
@[simp] theorem setPin_srData_link (v : Level) (s : State) :
    (s.setPin .srData v).link = s.link := rfl
@[simp] theorem setPin_srClk_pins (v : Level) (s : State) :
    (s.setPin .srClk v).pins = { s.pins with srClk := v } := rfl
@[simp] theorem setPin_srClk_link (v : Level) (s : State) :
    (s.setPin .srClk v).link = s.link := rfl
@[simp] theorem setPin_srLatch_pins (v : Level) (s : State) :
    (s.setPin .srLatch v).pins = { s.pins with srLatch := v } := rfl
@[simp] theorem setPin_srLatch_link (v : Level) (s : State) :
    (s.setPin .srLatch v).link = s.link := rfl
@[simp] theorem setPin_lClk_pins (v : Level) (s : State) :
    (s.setPin .lClk v).pins = { s.pins with lClk := v } := rfl
@[simp] theorem setPin_lClk_link (v : Level) (s : State) :
    (s.setPin .lClk v).link = s.link := rfl
@[simp] theorem setPin_lCe_pins (v : Level) (s : State) :
    (s.setPin .lCe v).pins = { s.pins with lCe := v } := rfl
@[simp] theorem setPin_lCe_link (v : Level) (s : State) :
    (s.setPin .lCe v).link = s.link := rfl
@[simp] theorem setPin_lData_pins (v : Level) (s : State) :
    (s.setPin .lData v).pins = s.pins := rfl
@[simp] theorem setPin_lData_link (v : Level) (s : State) :
    (s.setPin .lData v).link = { s.link with dout := v } := rfl

end Sys2Proof.Machine.State
end

