-- ==== Sys2Proof/Laws/Trace.lean ====
section
/-! SUPPORT. Pin sequences as lists of events. `perform` is the state change of one event; `attempt` runs a list of
events and stops at the first access whose draw fails. Every internal sequence of the spec is an `attempt` of its trace
(Laws/ShiftRegister.lean, Laws/SerialLink.lean), so the two lemmas `attempt_quiet` and `attempt_cases` say once what any of
them can do. -/

namespace Sys2Proof.Machine

/-! ## Results

These are proved by a chain of two `rfl` and not by `rfl` alone: simp then rewrites with them as equations. As
definitional lemmas they would have the kernel compare whole symbolic runs. -/

@[simp] theorem andThen_done {α β : Type} (a : α) (s : State) (k : α → State → Result β) :
    (Result.done a s).andThen k = k a s := Eq.trans rfl rfl
@[simp] theorem andThen_raised {α β : Type} (e : Err) (s : State) (k : α → State → Result β) :
    (Result.raised e s : Result α).andThen k = .raised e s := Eq.trans rfl rfl
@[simp] theorem onError_done {α : Type} (a : α) (s : State) (c : State → Result Unit) :
    (Result.done a s).onError c = .done a s := Eq.trans rfl rfl
@[simp] theorem onError_raised {α : Type} (e : Err) (s : State) (c : State → Result Unit) :
    (Result.raised e s : Result α).onError c = .raised e (c s).state := Eq.trans rfl rfl
@[simp] theorem cleanup_raised {α : Type} (e : Err) (s : State) (c : State → Result Unit) :
    (Result.raised e s : Result α).cleanup c = .raised e (c s).state := Eq.trans rfl rfl
@[simp] theorem state_done {α : Type} (a : α) (s : State) : (Result.done a s).state = s := Eq.trans rfl rfl
@[simp] theorem state_raised {α : Type} (e : Err) (s : State) : (Result.raised e s : Result α).state = s := Eq.trans rfl rfl
@[simp] theorem require_true {α : Type} (e : Err) (s : State) (k : State → Result α) :
    require true e s k = k s := Eq.trans rfl rfl
@[simp] theorem require_false {α : Type} (e : Err) (s : State) (k : State → Result α) :
    require false e s k = .raised e s := Eq.trans rfl rfl
@[simp] theorem finish_done (s : State) : finish (.done () s) = .next (s.complete .ok) := Eq.trans rfl rfl
@[simp] theorem finish_raised (e : Err) (s : State) : finish (.raised e s) = .next (s.complete e.completion) := Eq.trans rfl rfl

/-- Sequencing is associative. -/
theorem andThen_assoc {α β γ : Type} (r : Result α) (k : α → State → Result β) (l : β → State → Result γ) :
    (r.andThen k).andThen l = r.andThen fun a s => (k a s).andThen l := by
  cases r <;> rfl

/-- An operation always completes: there is a next state (R45, R101). -/
theorem finish_next (r : Result Unit) : ∃ k, finish r = .next (r.state.complete k) := by
  cases r with
  | done a s => exact ⟨.ok, rfl⟩
  | raised e s => exact ⟨e.completion, rfl⟩

/-! ## One event -/

/-- The state change of one event: the trace, the devices, the lines, and the count of accesses. -/
def State.perform (s : State) (e : Event) : State :=
  { s with
    trace := s.trace ++ [e]
    env := { s.env with sipo := s.env.sipo.observe s.pins e, link := s.env.link.observe s.pins.lCe e }
    pins := (s.lines.event e).pins
    link := { s.link with dir := (s.lines.event e).dir, dout := (s.lines.event e).dout }
    accesses := s.accesses + (if e.isAccess then 1 else 0) }

/-- The state change of a list of events. -/
def State.performAll (es : List Event) (s : State) : State := es.foldl State.perform s

/-- The event that stands for the failure of an access. -/
def failureOf : Event → Event
  | .drive p _ => .fail p
  | .dir _ => .failDir
  | .sample _ => .fail .lData
  | e => e

/-- Run a list of events, each access subject to its draw. -/
def attempt : List Event → State → Result Unit
  | [], s => .done () s
  | e :: es, s =>
      if e.isAccess && s.nextFails then .raised .ioFault (s.perform (failureOf e)) else attempt es (s.perform e)

section perform
variable (s : State) (e : Event) (es fs : List Event)

@[simp] theorem perform_params : (s.perform e).params = s.params := rfl
@[simp] theorem perform_sr : (s.perform e).sr = s.sr := rfl
@[simp] theorem perform_status : (s.perform e).status = s.status := rfl
@[simp] theorem perform_result : (s.perform e).result = s.result := rfl
@[simp] theorem perform_host : (s.perform e).host = s.host := rfl
@[simp] theorem perform_replies : (s.perform e).replies = s.replies := rfl
@[simp] theorem perform_trace : (s.perform e).trace = s.trace ++ [e] := rfl
@[simp] theorem perform_linkCfg : (s.perform e).link.cfg = s.link.cfg := rfl
@[simp] theorem perform_pulse : (s.perform e).link.pulse = s.link.pulse := rfl
@[simp] theorem perform_te : (s.perform e).link.te = s.link.te := rfl
@[simp] theorem perform_run : (s.perform e).env.run = s.env.run := rfl
@[simp] theorem perform_script : (s.perform e).env.script = s.env.script := rfl
@[simp] theorem perform_resultReads : (s.perform e).env.resultReads = s.env.resultReads := rfl
@[simp] theorem perform_accesses :
    (s.perform e).accesses = s.accesses + (if e.isAccess then 1 else 0) := rfl
@[simp] theorem perform_lines : (s.perform e).lines = s.lines.event e := rfl

@[simp] theorem performAll_nil : s.performAll [] = s := rfl
@[simp] theorem performAll_cons : s.performAll (e :: es) = (s.perform e).performAll es := rfl
theorem performAll_append : s.performAll (es ++ fs) = (s.performAll es).performAll fs := by
  simp [State.performAll]

@[simp] theorem performAll_params : (s.performAll es).params = s.params := by
  induction es generalizing s <;> simp_all
@[simp] theorem performAll_sr : (s.performAll es).sr = s.sr := by
  induction es generalizing s <;> simp_all
@[simp] theorem performAll_status : (s.performAll es).status = s.status := by
  induction es generalizing s <;> simp_all
@[simp] theorem performAll_result : (s.performAll es).result = s.result := by
  induction es generalizing s <;> simp_all
@[simp] theorem performAll_host : (s.performAll es).host = s.host := by
  induction es generalizing s <;> simp_all
@[simp] theorem performAll_replies : (s.performAll es).replies = s.replies := by
  induction es generalizing s <;> simp_all
@[simp] theorem performAll_linkCfg : (s.performAll es).link.cfg = s.link.cfg := by
  induction es generalizing s <;> simp_all
@[simp] theorem performAll_pulse : (s.performAll es).link.pulse = s.link.pulse := by
  induction es generalizing s <;> simp_all
@[simp] theorem performAll_te : (s.performAll es).link.te = s.link.te := by
  induction es generalizing s <;> simp_all
@[simp] theorem performAll_run : (s.performAll es).env.run = s.env.run := by
  induction es generalizing s <;> simp_all
@[simp] theorem performAll_script : (s.performAll es).env.script = s.env.script := by
  induction es generalizing s <;> simp_all
@[simp] theorem performAll_resultReads : (s.performAll es).env.resultReads = s.env.resultReads := by
  induction es generalizing s <;> simp_all
@[simp] theorem performAll_trace : (s.performAll es).trace = s.trace ++ es := by
  induction es generalizing s <;> simp_all
theorem performAll_lines : (s.performAll es).lines = es.foldl Lines.event s.lines := by
  induction es generalizing s <;> simp_all
theorem performAll_accesses : (s.performAll es).accesses = s.accesses + accessCount es := by
  induction es generalizing s with
  | nil => rfl
  | cons e es ih => simp [ih, accessCount, List.countP_cons]; omega

/-- Setting a counter commutes with an event: no event reads the engine. -/
theorem perform_setBrem (v : BitVec 16) : (s.setBrem v).perform e = (s.perform e).setBrem v := rfl
theorem performAll_setBrem (v : BitVec 16) : (s.setBrem v).performAll es = (s.performAll es).setBrem v := by
  induction es generalizing s <;> simp_all [perform_setBrem]
@[simp] theorem setBrem_setBrem (v w : BitVec 16) : (s.setBrem v).setBrem w = s.setBrem w := rfl

end perform

/-! ## The primitives as events -/

theorem wait_eq_perform (ns : Nat) (s : State) : s.wait ns = s.perform (.wait ns) := rfl

/-- R10: a drive is the attempt of its event (a drive of L_DATA is made with the direction OUT). -/
theorem drive_eq_attempt (p : Pin) (v : Bool) (s : State) (h : p = .lData → s.link.dir = .output) :
    drive p v s = attempt [.drive p v] s := by
  unfold drive attempt
  cases s.nextFails
  · cases p <;> rfl
  · cases p <;> first | rfl | skip
    have hd := h rfl
    simp only [if_true, Event.isAccess, Bool.and_self, failureOf]
    congr 1
    unfold State.perform
    simp only [State.lines, Lines.event, hd, if_true]
    cases s
    simp_all [State.emit, State.setPin, State.countAccess, Event.isAccess]

/-- R11: setting the direction is the attempt of its event. -/
theorem setDir_eq_attempt (d : PinDir) (s : State) : setDir d s = attempt [.dir d] s := by
  unfold setDir attempt
  cases s.nextFails <;> rfl

/-- R12: a sample is the attempt of its event, with the bit the environment gives (the direction is IN). -/
theorem sample_eq_attempt (s : State) (h : s.link.dir ≠ .output) :
    sample s = (attempt [.sample (s.env.sampleBit s.accesses s.trace)] s).andThen fun _ t =>
      .done (s.env.sampleBit s.accesses s.trace) t := by
  unfold sample attempt
  cases s.nextFails
  · rfl
  · simp only [if_true, Event.isAccess, Bool.and_self, failureOf, andThen_raised]
    congr 1
    unfold State.perform
    simp only [State.lines, Lines.event, h, if_false]
    rfl

/-! ## Attempts -/

theorem attempt_append (es fs : List Event) (s : State) :
    attempt (es ++ fs) s = (attempt es s).andThen fun _ t => attempt fs t := by
  induction es generalizing s with
  | nil => rfl
  | cons e es ih =>
    simp only [List.cons_append, attempt]
    split
    · rfl
    · exact ih _

theorem attempt_wait (ns : Nat) (es : List Event) (s : State) :
    attempt (.wait ns :: es) s = attempt es (s.wait ns) := by
  simp [attempt, Event.isAccess, wait_eq_perform]

/-- The draw of an access depends on the run, the script and the access's number (R33), none of which an event
changes. -/
theorem ioFail_performAll (es : List Event) (s : State) (k : Nat) (tr : List Event) :
    (s.performAll es).env.ioFail k tr = s.env.ioFail k tr := by
  simp [Env.ioFail]

theorem Quiet_mono {s : State} {m n : Nat} (h : s.Quiet n) (hm : m ≤ n) : s.Quiet m :=
  fun j hj => h j (by omega)

/-- After part of a sequence the rest of the premise remains. -/
theorem Quiet_performAll {s : State} {n : Nat} (es : List Event) (h : s.Quiet (accessCount es + n)) :
    (s.performAll es).Quiet n := by
  intro j hj tr
  rw [ioFail_performAll, performAll_accesses, Nat.add_assoc]
  exact h (accessCount es + j) (by omega) tr

/-- With no failing access, an attempt performs all its events. -/
theorem attempt_quiet {s : State} (es : List Event) (h : s.Quiet (accessCount es)) :
    attempt es s = .done () (s.performAll es) := by
  induction es generalizing s with
  | nil => rfl
  | cons e es ih =>
    have hq : (s.perform e).Quiet (accessCount es) := by
      have := Quiet_performAll (s := s) (n := accessCount es) [e]
        (by simpa [accessCount, List.countP_cons, Nat.add_comm] using h)
      simpa using this
    have hne : (e.isAccess && s.nextFails) = false := by
      cases he : e.isAccess
      · rfl
      · have := h 0 (by simp [accessCount, he]) s.trace
        simpa [State.nextFails] using this
    simp [attempt, hne, ih hq]

/-- All an attempt can do: perform everything, or perform a part and fail at the next access. -/
theorem attempt_cases (es : List Event) (s : State) :
    attempt es s = .done () (s.performAll es) ∨
      ∃ before e after, es = before ++ e :: after ∧ e.isAccess = true ∧
        (s.performAll before).nextFails = true ∧
        attempt es s = .raised .ioFault (s.performAll (before ++ [failureOf e])) := by
  induction es generalizing s with
  | nil => exact .inl rfl
  | cons e es ih =>
    by_cases hc : (e.isAccess && s.nextFails) = true
    · refine .inr ⟨[], e, es, rfl, ?_, ?_, ?_⟩ <;> simp_all [attempt]
    · obtain h | ⟨b, x, a, hes, hx, hf, h⟩ := ih (s.perform e)
      · exact .inl (by simp [attempt, hc, h])
      · exact .inr ⟨e :: b, x, a, by simp [hes], hx, hf, by simp [attempt, hc, h]⟩

/-- The premise of R33 from a script whose draws do not fail. -/
theorem Quiet_of_script {s : State} {n : Nat}
    (h : ∀ j < n, (s.env.script[s.accesses + j]?).map Draw.fail = some false) : s.Quiet n := by
  intro j hj tr
  have := h j hj
  unfold Env.ioFail
  cases hd : s.env.script[s.accesses + j]? with
  | none => simp [hd] at this
  | some d => simpa [hd] using this

end Sys2Proof.Machine
end

