-- ==== Sys2Proof/Laws/SerialLink.lean ====
section
/-! SUPPORT. What the internal sequences of the link can do, each said once (R74 to R78). -/

namespace Sys2Proof.Machine

/-- `clock_pulse` attempts `CP` (R74). -/
theorem clockPulse_eq_attempt (s : State) : clockPulse s = attempt (pulseTrace s.link.pulse.toNat) s := by
  unfold clockPulse pulseTrace
  rw [drive_eq_attempt _ _ _ (by simp)]
  simp only [attempt, Event.isAccess, Bool.true_and]
  by_cases h0 : s.nextFails = true
  · simp [h0]
  simp only [h0, if_false, andThen_done, Bool.false_eq_true]
  rw [drive_eq_attempt _ _ _ (by simp)]
  simp only [attempt, Event.isAccess, Bool.true_and, Bool.false_and, State.waitLink, wait_eq_perform,
    perform_pulse, Bool.false_eq_true, if_false]
  split <;> simp

/-- `link_enable` attempts `EN` and then sets transferEnabled (R75). -/
theorem linkEnable_eq_attempt (s : State) :
    linkEnable s = (attempt (enableTrace s.link.pulse.toNat) s).andThen fun _ t => .done () (t.setTe true) := by
  unfold linkEnable enableTrace
  rw [drive_eq_attempt _ _ _ (by simp)]
  simp only [attempt, Event.isAccess, Bool.true_and]
  by_cases h0 : s.nextFails = true
  · simp [h0]
  simp only [h0, if_false, andThen_done, Bool.false_eq_true]
  rw [drive_eq_attempt _ _ _ (by simp)]
  simp only [attempt, Event.isAccess, Bool.true_and, Bool.false_and, State.waitLink, wait_eq_perform,
    perform_pulse, Bool.false_eq_true, if_false]
  split <;> simp

/-- `link_disable` attempts `DIS` and then clears transferEnabled (R76). -/
theorem linkDisable_eq_attempt (s : State) :
    linkDisable s = (attempt (disableTrace s.link.pulse.toNat) s).andThen fun _ t => .done () (t.setTe false) := by
  unfold linkDisable disableTrace
  rw [drive_eq_attempt _ _ _ (by simp)]
  simp only [attempt, Event.isAccess, Bool.true_and, Bool.false_and, Bool.false_eq_true, if_false]
  split <;> simp [State.waitLink, wait_eq_perform]

/-- All `link_disable` can do (R76): drive L_CE low and clear transferEnabled, or leave L_CE unknown. -/
theorem linkDisable_cases (s : State) :
    linkDisable s = .done () ((s.performAll (disableTrace s.link.pulse.toNat)).setTe false) ∨
      linkDisable s = .raised .ioFault (s.perform (.fail .lCe)) := by
  rw [linkDisable_eq_attempt]
  unfold disableTrace
  simp only [attempt, Event.isAccess, Bool.true_and, Bool.false_and, Bool.false_eq_true, if_false]
  split
  · exact .inr rfl
  · exact .inl rfl

/-- A bit of `clock_in` leaves the direction. -/
theorem performAll_txBit_dir (p : Nat) (v : Bool) (s : State) :
    (s.performAll (txBitTrace p v)).link.dir = s.link.dir := rfl

/-- The bit loop of `clock_in` attempts its bits, once the direction is OUT (R77). -/
theorem sendBits_eq_attempt (bs : List Bool) (s : State) (hd : s.link.dir = .output) :
    sendBits bs s = attempt (bs.flatMap (txBitTrace s.link.pulse.toNat)) s := by
  induction bs generalizing s with
  | nil => rfl
  | cons b bs ih =>
    simp only [sendBits, List.flatMap_cons, txBitTrace, List.cons_append, List.nil_append]
    rw [drive_eq_attempt _ _ _ (fun _ => hd)]
    simp only [attempt, Event.isAccess, Bool.true_and]
    by_cases h0 : s.nextFails = true
    · simp [h0]
    simp only [h0, if_false, andThen_done, Bool.false_eq_true, Bool.false_and, State.waitLink, perform_pulse,
      wait_eq_perform, clockPulse_eq_attempt, attempt_append]
    obtain h | ⟨b0, x, a, hes, hx, hf, h⟩ := attempt_cases (pulseTrace s.link.pulse.toNat)
      ((s.perform (.drive .lData b)).perform (.wait s.link.pulse.toNat))
    · rw [h]
      simp only [andThen_done]
      rw [ih _ (by exact hd)]
      simp
    · rw [h]
      rfl

/-- `clock_in` attempts `TX(x)` (R77). -/
theorem clockIn_eq_attempt (x : Byte) (s : State) :
    clockIn x s = attempt (txTrace s.link.pulse.toNat x) s := by
  unfold clockIn txTrace
  rw [setDir_eq_attempt]
  simp only [attempt, Event.isAccess, Bool.true_and]
  by_cases h0 : s.nextFails = true
  · simp [h0]
  simp only [h0, if_false, andThen_done, Bool.false_eq_true]
  exact sendBits_eq_attempt _ _ rfl

/-- The bits that `n` bit times of a clock-out sample when no access fails, first first (R78). -/
def outBits : Nat → State → List Bool
  | 0, _ => []
  | n + 1, s =>
      let v := s.env.sampleBit s.accesses s.trace
      v :: outBits n (s.performAll (rxBitTrace s.link.pulse.toNat v))

/-- The byte that bit positions and sampled bits make up (R78). -/
def placeBits : List Nat → List Bool → Byte → Byte
  | i :: is, v :: vs, r => placeBits is vs (placeBit r i v)
  | _, _, r => r

/-- The bit loop of `clock_out` attempts its bits, once the direction is IN (R78). -/
theorem receiveBits_eq_attempt (is : List Nat) (r : Byte) (s : State) (hd : s.link.dir ≠ .output) :
    receiveBits is r s =
      (attempt ((outBits is.length s).flatMap (rxBitTrace s.link.pulse.toNat)) s).andThen fun _ t =>
        .done (placeBits is (outBits is.length s) r) t := by
  induction is generalizing r s with
  | nil => rfl
  | cons i is ih =>
    simp only [receiveBits, List.length_cons, outBits, List.flatMap_cons, placeBits]
    rw [sample_eq_attempt _ hd]
    generalize hv : s.env.sampleBit s.accesses s.trace = v
    simp only [rxBitTrace, List.cons_append, List.nil_append, attempt, Event.isAccess,
      Bool.true_and]
    by_cases h0 : s.nextFails = true
    · simp [h0]
    simp only [h0, if_false, andThen_done, Bool.false_eq_true, Bool.false_and, State.waitLink, perform_pulse,
      wait_eq_perform, clockPulse_eq_attempt, attempt_append]
    obtain h | ⟨b0, x, a, hes, hx, hf, h⟩ := attempt_cases (pulseTrace s.link.pulse.toNat)
      ((s.perform (.sample v)).perform (.wait s.link.pulse.toNat))
    · rw [h]
      simp only [andThen_done]
      rw [ih _ _ (by exact hd)]
      simp
    · rw [h]
      rfl

/-- The bits a clock-out samples when no access fails (R78). -/
def sampledBits (s : State) : List Bool := outBits 8 (s.perform (.dir .input))

theorem outBits_length (n : Nat) (s : State) : (outBits n s).length = n := by
  induction n generalizing s <;> simp_all [outBits]

/-- `clock_out` attempts its direction change and its eight bits, and answers the byte they make up (R78). -/
theorem clockOut_eq_attempt (s : State) :
    clockOut s =
      (attempt (.dir .input :: (sampledBits s).flatMap (rxBitTrace s.link.pulse.toNat)) s).andThen fun _ t =>
        .done (placeBits [0, 1, 2, 3, 4, 5, 6, 7] (sampledBits s) 0) t := by
  unfold clockOut
  rw [setDir_eq_attempt]
  simp only [attempt, Event.isAccess, Bool.true_and]
  by_cases h0 : s.nextFails = true
  · simp [h0]
  simp only [h0, if_false, andThen_done, Bool.false_eq_true]
  exact receiveBits_eq_attempt _ _ _ (by simp [State.perform, Lines.event, DirState.ofDir])

/-- Eight bits put at their places, read back (R48, R78). -/
theorem wireBits_placeBits (b0 b1 b2 b3 b4 b5 b6 b7 : Bool) :
    wireBits (placeBits [0, 1, 2, 3, 4, 5, 6, 7] [b0, b1, b2, b3, b4, b5, b6, b7] 0) =
      [b0, b1, b2, b3, b4, b5, b6, b7] := by
  revert b0 b1 b2 b3 b4 b5 b6 b7
  decide

/-- The byte a clock-out answers when no access fails. -/
def outByte (s : State) : Byte := placeBits [0, 1, 2, 3, 4, 5, 6, 7] (sampledBits s) 0

theorem wireBits_outByte (s : State) : wireBits (outByte s) = sampledBits s := by
  have h := outBits_length 8 (s.perform (.dir .input))
  unfold outByte sampledBits
  match hl : outBits 8 (s.perform (.dir .input)), h with
  | [b0, b1, b2, b3, b4, b5, b6, b7], _ => exact wireBits_placeBits b0 b1 b2 b3 b4 b5 b6 b7

/-- `clock_out` attempts `RX` of the byte it answers (R78). -/
theorem clockOut_eq_attempt_rxTrace (s : State) :
    clockOut s = (attempt (rxTrace s.link.pulse.toNat (outByte s)) s).andThen fun _ t => .done (outByte s) t := by
  rw [clockOut_eq_attempt, rxTrace, wireBits_outByte, outByte]

@[simp] theorem accessCount_enableTrace (p : Nat) : accessCount (enableTrace p) = 2 := rfl
@[simp] theorem accessCount_disableTrace (p : Nat) : accessCount (disableTrace p) = 1 := rfl
@[simp] theorem accessCount_txTrace (p : Nat) (x : Byte) : accessCount (txTrace p x) = 25 := rfl
@[simp] theorem accessCount_rxTrace (p : Nat) (x : Byte) : accessCount (rxTrace p x) = 25 := rfl

/-- The enable sequence when its accesses succeed (R75). -/
theorem linkEnable_quiet {s : State} (h : s.Quiet 2) :
    linkEnable s = .done () ((s.performAll (enableTrace s.link.pulse.toNat)).setTe true) := by
  rw [linkEnable_eq_attempt, attempt_quiet _ (by simpa using h)]
  rfl

/-- The disable sequence when its access succeeds (R76). -/
theorem linkDisable_quiet {s : State} (h : s.Quiet 1) :
    linkDisable s = .done () ((s.performAll (disableTrace s.link.pulse.toNat)).setTe false) := by
  rw [linkDisable_eq_attempt, attempt_quiet _ (by simpa using h)]
  rfl

/-- A clock-in whose accesses succeed (R77). -/
theorem clockIn_quiet (x : Byte) {s : State} (h : s.Quiet 25) :
    clockIn x s = .done () (s.performAll (txTrace s.link.pulse.toNat x)) := by
  rw [clockIn_eq_attempt, attempt_quiet _ (by simpa using h)]

/-- A clock-out whose accesses succeed (R78). -/
theorem clockOut_quiet {s : State} (h : s.Quiet 25) :
    clockOut s = .done (outByte s) (s.performAll (rxTrace s.link.pulse.toNat (outByte s))) := by
  rw [clockOut_eq_attempt_rxTrace, attempt_quiet _ (by simpa using h)]
  rfl

end Sys2Proof.Machine
end

