-- ==== Sys2Proof/Laws/ShiftRegister.lean ====
section
/-! SUPPORT. What the internal sequences of the shift-register engine can do, each said once (R63 to R65, R68). -/

namespace Sys2Proof.Machine

/-- The counter rides along an attempt: no event reads or writes it. -/
theorem attempt_setBrem (es : List Event) (v : BitVec 16) (s : State) :
    attempt es (s.setBrem v) =
      match attempt es s with
      | .done _ t => .done () (t.setBrem v)
      | .raised e t => .raised e (t.setBrem v) := by
  induction es generalizing s with
  | nil => rfl
  | cons e es ih =>
    have hn : (s.setBrem v).nextFails = s.nextFails := rfl
    simp only [attempt, hn]
    split
    · rfl
    · rw [perform_setBrem, ih]

/-- `base_load` attempts `SL(b)` and then counts (R63). -/
theorem baseLoad_eq_attempt (b : Bool) (s : State) :
    baseLoad b s = (attempt (loadTrace s.params.srPulseNs b) s).andThen fun _ t =>
      .done () (t.setBrem (s.sr.brem - 1)) := by
  unfold baseLoad loadTrace
  rw [drive_eq_attempt _ _ _ (by simp)]
  simp only [attempt, Event.isAccess, Bool.true_and]
  by_cases h0 : s.nextFails = true
  · simp [h0]
  simp only [h0, if_false, andThen_done, Bool.false_eq_true]
  rw [drive_eq_attempt _ _ _ (by simp)]
  simp only [attempt, Event.isAccess, Bool.true_and]
  by_cases h1 : (s.perform (.drive .srData b)).nextFails = true
  · simp [h1]
  simp only [h1, if_false, andThen_done, Bool.false_eq_true]
  rw [drive_eq_attempt _ _ _ (by simp)]
  simp only [attempt, Event.isAccess, Bool.true_and, Bool.false_and, State.waitSr, wait_eq_perform,
    perform_params, Bool.false_eq_true, if_false]
  split <;> simp

/-- `base_latch` attempts `LT` and then resets the counter (R64). -/
theorem baseLatch_eq_attempt (s : State) :
    baseLatch s = (attempt latchTrace s).andThen fun _ t => .done () (t.setBrem s.sr.cap) := by
  unfold baseLatch latchTrace
  rw [drive_eq_attempt _ _ _ (by simp)]
  simp only [attempt, Event.isAccess, Bool.true_and]
  by_cases h0 : s.nextFails = true
  · simp [h0]
  simp only [h0, if_false, andThen_done, Bool.false_eq_true]
  rw [drive_eq_attempt _ _ _ (by simp)]
  simp only [attempt, Event.isAccess, Bool.true_and]
  split <;> simp

/-- All a replay can do (R68): attempt the loads of its bits; only the counter `sr.brem` differs besides. -/
theorem replay_eq_attempt (bs : List Bool) (s : State) :
    ∃ v, replay bs s =
      match attempt (replayTrace s.params.srPulseNs bs) s with
      | .done _ t => .done () (t.setBrem (s.sr.brem - BitVec.ofNat 16 bs.length))
      | .raised e t => .raised e (t.setBrem v) := by
  induction bs generalizing s with
  | nil => exact ⟨0, by simp [replay, replayTrace, attempt]; rfl⟩
  | cons b bs ih =>
    simp only [replay, baseLoad_eq_attempt]
    have happ : replayTrace s.params.srPulseNs (b :: bs) =
        loadTrace s.params.srPulseNs b ++ replayTrace s.params.srPulseNs bs := rfl
    rw [happ, attempt_append]
    obtain h | ⟨b0, x, a, hes, hx, hf, h⟩ := attempt_cases (loadTrace s.params.srPulseNs b) s
    · obtain ⟨v, hv⟩ := ih ((s.performAll (loadTrace s.params.srPulseNs b)).setBrem (s.sr.brem - 1))
      refine ⟨v, ?_⟩
      rw [h]
      simp only [andThen_done]
      rw [hv]
      simp only [State.setBrem_params, performAll_params, attempt_setBrem]
      cases attempt (replayTrace s.params.srPulseNs bs) (s.performAll (loadTrace s.params.srPulseNs b)) with
      | done _ t =>
        simp only [setBrem_setBrem, State.setBrem_sr, List.length_cons]
        congr 2
        rw [BitVec.ofNat_add]
        generalize BitVec.ofNat 16 bs.length = k
        bv_omega
      | raised e t => simp only [setBrem_setBrem]
    · refine ⟨s.sr.brem, ?_⟩
      rw [h]
      simp only [andThen_raised]
      congr 1
      have : (s.performAll (b0 ++ [failureOf x])).sr.brem = s.sr.brem := by simp
      rw [← this]
      rfl

@[simp] theorem accessCount_loadTrace (ps : Nat) (b : Bool) : accessCount (loadTrace ps b) = 3 := rfl
@[simp] theorem accessCount_latchTrace : accessCount latchTrace = 2 := rfl

theorem accessCount_append (a b : List Event) : accessCount (a ++ b) = accessCount a + accessCount b := by
  simp [accessCount]

theorem accessCount_replayTrace (ps : Nat) (bs : List Bool) :
    accessCount (replayTrace ps bs) = 3 * bs.length := by
  induction bs with
  | nil => rfl
  | cons b bs ih =>
    rw [show replayTrace ps (b :: bs) = loadTrace ps b ++ replayTrace ps bs from rfl, accessCount_append, ih,
      accessCount_loadTrace, List.length_cons]
    omega

/-- A base load whose accesses succeed (R63). -/
theorem baseLoad_quiet (b : Bool) {s : State} (h : s.Quiet 3) :
    baseLoad b s = .done () ((s.performAll (loadTrace s.params.srPulseNs b)).setBrem (s.sr.brem - 1)) := by
  rw [baseLoad_eq_attempt, attempt_quiet _ (by simpa using h)]
  rfl

/-- A latch whose accesses succeed (R64). -/
theorem baseLatch_quiet {s : State} (h : s.Quiet 2) :
    baseLatch s = .done () ((s.performAll latchTrace).setBrem s.sr.cap) := by
  rw [baseLatch_eq_attempt, attempt_quiet _ (by simpa using h)]
  rfl

/-- A replay whose accesses succeed (R68). -/
theorem replay_quiet (bs : List Bool) {s : State} (h : s.Quiet (3 * bs.length)) :
    replay bs s = .done () ((s.performAll (replayTrace s.params.srPulseNs bs)).setBrem
      (s.sr.brem - BitVec.ofNat 16 bs.length)) := by
  obtain ⟨v, hv⟩ := replay_eq_attempt bs s
  rw [hv, attempt_quiet _ (by rw [accessCount_replayTrace]; exact h)]

end Sys2Proof.Machine
end

