-- ==== Sys2Proof/Laws/Operations.lean ====
section
/-! SUPPORT. All that the shared bodies of the operations can do, each said once: which events, which failures, and what
is left of the registers. -/

namespace Sys2Proof.Machine

/-! ## transferEnabled rides along -/

theorem perform_setTe (v : Bool) (e : Event) (s : State) : (s.setTe v).perform e = (s.perform e).setTe v := rfl
theorem performAll_setTe (v : Bool) (es : List Event) (s : State) :
    (s.setTe v).performAll es = (s.performAll es).setTe v := by
  induction es generalizing s <;> simp_all [perform_setTe]
@[simp] theorem setTe_setTe (v w : Bool) (s : State) : (s.setTe v).setTe w = s.setTe w := rfl
theorem setTe_self (s : State) : s.setTe s.link.te = s := rfl

/-- transferEnabled rides along an attempt: no event reads or writes it. -/
theorem attempt_setTe (es : List Event) (v : Bool) (s : State) :
    attempt es (s.setTe v) =
      match attempt es s with
      | .done _ t => .done () (t.setTe v)
      | .raised e t => .raised e (t.setTe v) := by
  induction es generalizing s with
  | nil => rfl
  | cons e es ih =>
    have hn : (s.setTe v).nextFails = s.nextFails := rfl
    simp only [attempt, hn]
    split
    · rfl
    · rw [perform_setTe, ih]

/-- The events of a list that `attempt` got through when it failed: the events before, and the failure. -/
def FailsIn (es : List Event) (events : List Event) : Prop :=
  ∃ before e after, es = before ++ e :: after ∧ e.isAccess = true ∧ events = before ++ [failureOf e]

theorem FailsIn_append_left {es events : List Event} (fs : List Event) (h : FailsIn es events) :
    FailsIn (es ++ fs) events := by
  obtain ⟨b, e, a, rfl, he, rfl⟩ := h
  exact ⟨b, e, a ++ fs, by simp, he, rfl⟩
theorem FailsIn_append_right {es events : List Event} (fs : List Event) (h : FailsIn es events) :
    FailsIn (fs ++ es) (fs ++ events) := by
  obtain ⟨b, e, a, rfl, he, rfl⟩ := h
  exact ⟨fs ++ b, e, a, by simp, he, by simp⟩

/-- All an attempt can do, by the events it leaves. -/
theorem attempt_outcomes (es : List Event) (s : State) :
    attempt es s = .done () (s.performAll es) ∨
      ∃ events, FailsIn es events ∧ attempt es s = .raised .ioFault (s.performAll events) := by
  obtain h | ⟨b, e, a, h1, h2, -, h3⟩ := attempt_cases es s
  · exact .inl h
  · exact .inr ⟨_, ⟨b, e, a, h1, h2, rfl⟩, h3⟩

/-- All `link_enable` can do (R75). -/
theorem linkEnable_outcomes (s : State) :
    linkEnable s = .done () ((s.performAll (enableTrace s.link.pulse.toNat)).setTe true) ∨
      ∃ events, FailsIn (enableTrace s.link.pulse.toNat) events ∧
        linkEnable s = .raised .ioFault (s.performAll events) := by
  rw [linkEnable_eq_attempt]
  obtain h | ⟨ev, hf, h⟩ := attempt_outcomes (enableTrace s.link.pulse.toNat) s <;> rw [h]
  · exact .inl rfl
  · exact .inr ⟨ev, hf, rfl⟩

/-- All `clock_in` can do (R77). -/
theorem clockIn_outcomes (x : Byte) (s : State) :
    clockIn x s = .done () (s.performAll (txTrace s.link.pulse.toNat x)) ∨
      ∃ events, FailsIn (txTrace s.link.pulse.toNat x) events ∧ clockIn x s = .raised .ioFault (s.performAll events) := by
  rw [clockIn_eq_attempt]; exact attempt_outcomes _ _

/-- All `clock_out` can do (R78). -/
theorem clockOut_outcomes (s : State) :
    ∃ r, clockOut s = .done r (s.performAll (rxTrace s.link.pulse.toNat r)) ∨
      ∃ events, FailsIn (rxTrace s.link.pulse.toNat r) events ∧ clockOut s = .raised .ioFault (s.performAll events) := by
  refine ⟨outByte s, ?_⟩
  rw [clockOut_eq_attempt_rxTrace]
  obtain h | ⟨ev, hf, h⟩ := attempt_outcomes (rxTrace s.link.pulse.toNat (outByte s)) s <;> rw [h]
  · exact .inl rfl
  · exact .inr ⟨ev, hf, rfl⟩

/-- The events of CMD.WRITE before its disable (R89). -/
def writeEvents (p : Nat) (cls : RegClass) (index : BitVec 5) (value : Byte) : List Event :=
  enableTrace p ++ txTrace p (cmdByte cls .write index) ++ txTrace p value
/-- The events of CMD.READ before its disable, for the byte received (R90). -/
def readEvents (p : Nat) (cls : RegClass) (index : BitVec 5) (r : Byte) : List Event :=
  enableTrace p ++ txTrace p (cmdByte cls .read index) ++ rxTrace p r

/-- All the part of CMD.WRITE inside `try` can do (R89). -/
theorem writeTransfer_outcomes (cls : RegClass) (index : BitVec 5) (value : Byte) (s : State) :
    writeTransfer cls index value s = .done () ((s.performAll (writeEvents s.link.pulse.toNat cls index value)).setTe true) ∨
      ∃ events te, FailsIn (writeEvents s.link.pulse.toNat cls index value) events ∧ (te = s.link.te ∨ te = true) ∧
        writeTransfer cls index value s = .raised .ioFault ((s.performAll events).setTe te) := by
  unfold writeEvents
  generalize hp : s.link.pulse.toNat = p
  unfold writeTransfer
  have hen := linkEnable_outcomes s
  rw [hp] at hen
  obtain h | ⟨ev, hf, h⟩ := hen <;> rw [h]
  · simp only [andThen_done, recheck, State.setTe_link, if_true]
    rw [clockIn_eq_attempt]
    simp only [State.setTe_link, performAll_pulse, hp]
    rw [attempt_setTe]
    obtain h | ⟨ev, hf, h⟩ := attempt_outcomes (txTrace p (cmdByte cls .write index)) (s.performAll (enableTrace p)) <;> rw [h]
    · simp only [andThen_done]
      rw [clockIn_eq_attempt]
      simp only [State.setTe_link, performAll_pulse, hp]
      rw [attempt_setTe]
      obtain h | ⟨ev, hf, h⟩ := attempt_outcomes (txTrace p value) ((s.performAll (enableTrace p)).performAll (txTrace p (cmdByte cls .write index))) <;> rw [h]
      · left; simp only [performAll_append]
      · right
        exact ⟨_, true, FailsIn_append_right _ hf, .inr rfl, by simp only [performAll_append]⟩
    · right
      exact ⟨_, true, FailsIn_append_left _ (FailsIn_append_right _ hf), .inr rfl, by simp only [performAll_append, andThen_raised]⟩
  · right
    exact ⟨_, s.link.te, FailsIn_append_left _ (FailsIn_append_left _ hf), .inl rfl, by simp only [andThen_raised]; rw [← performAll_te s ev, setTe_self]⟩

/-- All the part of CMD.READ inside `try` can do (R90). -/
theorem readTransfer_outcomes (cls : RegClass) (index : BitVec 5) (s : State) :
    ∃ r,
    readTransfer cls index s = .done r ((s.performAll (readEvents s.link.pulse.toNat cls index r)).setTe true) ∨
      ∃ events te, FailsIn (readEvents s.link.pulse.toNat cls index r) events ∧ (te = s.link.te ∨ te = true) ∧
        readTransfer cls index s = .raised .ioFault ((s.performAll events).setTe te) := by
  unfold readTransfer readEvents
  generalize hp : s.link.pulse.toNat = p
  have hen := linkEnable_outcomes s
  rw [hp] at hen
  obtain h | ⟨ev, hf, h⟩ := hen <;> rw [h]
  · simp only [andThen_done, recheck, State.setTe_link, if_true]
    rw [clockIn_eq_attempt]
    simp only [State.setTe_link, performAll_pulse, hp]
    rw [attempt_setTe]
    obtain h | ⟨ev, hf, h⟩ := attempt_outcomes (txTrace p (cmdByte cls .read index)) (s.performAll (enableTrace p)) <;> rw [h]
    · simp only [andThen_done]
      rw [clockOut_eq_attempt_rxTrace]
      simp only [State.setTe_link, performAll_pulse, hp]
      rw [attempt_setTe]
      generalize outByte _ = r
      refine ⟨r, ?_⟩
      obtain h | ⟨ev, hf, h⟩ := attempt_outcomes (rxTrace p r) ((s.performAll (enableTrace p)).performAll (txTrace p (cmdByte cls .read index))) <;> rw [h]
      · left; simp only [performAll_append, andThen_done]
      · right
        exact ⟨_, true, FailsIn_append_right _ hf, .inr rfl, by simp only [performAll_append, andThen_raised]⟩
    · refine ⟨0, .inr ?_⟩
      exact ⟨_, true, FailsIn_append_left _ (FailsIn_append_right _ hf), .inr rfl, by simp only [performAll_append, andThen_raised]⟩
  · refine ⟨0, .inr ?_⟩
    exact ⟨_, s.link.te, FailsIn_append_left _ (FailsIn_append_left _ hf), .inl rfl, by simp only [andThen_raised]; rw [← performAll_te s ev, setTe_self]⟩

/-- What the link's cleanup leaves (R76, R79). -/
theorem linkDisable_state (s : State) :
    (linkDisable s).state = (s.performAll (disableTrace s.link.pulse.toNat)).setTe false ∨
      (linkDisable s).state = s.performAll [.fail .lCe] := by
  obtain h | h := linkDisable_cases s <;> rw [h]
  · exact .inl rfl
  · exact .inr rfl

/-! ## The shift-register engine -/

@[simp] theorem srCleanup_setBrem (v : BitVec 16) (s : State) : (s.setBrem v).srCleanup = s.srCleanup := rfl
theorem srCleanup_run (s : State) : srCleanup s = .done () s.srCleanup := rfl

/-- All a base load under SR.LOAD's cleanup can do (R67). -/
theorem baseLoad_onError_outcomes (b : Bool) (s : State) :
    (baseLoad b s).onError srCleanup =
        .done () ((s.performAll (loadTrace s.params.srPulseNs b)).setBrem (s.sr.brem - 1)) ∨
      ∃ events, FailsIn (loadTrace s.params.srPulseNs b) events ∧
        (baseLoad b s).onError srCleanup = .raised .ioFault (s.performAll events).srCleanup := by
  rw [baseLoad_eq_attempt]
  obtain h | ⟨ev, hf, h⟩ := attempt_outcomes (loadTrace s.params.srPulseNs b) s <;> rw [h]
  · exact .inl rfl
  · exact .inr ⟨ev, hf, rfl⟩

/-- All a base commit can do (R68). -/
theorem baseLatch_onError_outcomes (s : State) :
    (baseLatch s).onError srCleanup = .done () ((s.performAll latchTrace).setBrem s.sr.cap) ∨
      ∃ events, FailsIn latchTrace events ∧
        (baseLatch s).onError srCleanup = .raised .ioFault (s.performAll events).srCleanup := by
  rw [baseLatch_eq_attempt]
  obtain h | ⟨ev, hf, h⟩ := attempt_outcomes latchTrace s <;> rw [h]
  · exact .inl rfl
  · exact .inr ⟨ev, hf, rfl⟩

/-- All the replay and latch of an ordered commit can do, its cleanup included (R68). -/
theorem orderedCommit_outcomes (bs : List Bool) (s : State) :
    ((replay bs s).andThen fun _ s => baseLatch s).cleanup srCleanup =
        .done () (s.performAll (replayTrace s.params.srPulseNs bs ++ latchTrace)).srCleanup ∨
      ∃ events, FailsIn (replayTrace s.params.srPulseNs bs ++ latchTrace) events ∧
        ((replay bs s).andThen fun _ s => baseLatch s).cleanup srCleanup =
          .raised .ioFault (s.performAll events).srCleanup := by
  obtain ⟨v, hv⟩ := replay_eq_attempt bs s
  rw [hv]
  obtain h | ⟨ev, hf, h⟩ := attempt_outcomes (replayTrace s.params.srPulseNs bs) s <;> rw [h]
  · simp only [andThen_done]
    rw [baseLatch_eq_attempt, attempt_setBrem]
    obtain h | ⟨ev, hf, h⟩ :=
      attempt_outcomes latchTrace (s.performAll (replayTrace s.params.srPulseNs bs)) <;> rw [h]
    · left
      rw [performAll_append]
      rfl
    · right
      refine ⟨_, FailsIn_append_right _ hf, ?_⟩
      rw [performAll_append]
      rfl
  · exact .inr ⟨ev, FailsIn_append_left _ hf, rfl⟩

/-- The engine's elements set as a whole: what the ordered loads do. -/
def State.withSr (e : SrEngine) (s : State) : State := { s with sr := e }

/-- All `n` loads of a zero can do in the base personality with room for them (R69). -/
theorem loadZeros_base_outcomes (n : Nat) (s : State) (hc : s.sr.cfg = true) (ho : s.sr.ord = .base)
    (hn : n ≤ s.sr.brem.toNat) :
    loadZeros n s = .done () ((s.performAll (replayTrace s.params.srPulseNs (List.replicate n false))).setBrem
        (s.sr.brem - BitVec.ofNat 16 n)) ∨
      ∃ events, FailsIn (replayTrace s.params.srPulseNs (List.replicate n false)) events ∧
        loadZeros n s = .raised .ioFault (s.performAll events).srCleanup := by
  induction n generalizing s with
  | zero =>
    left
    simp only [loadZeros, List.replicate_zero, replayTrace, List.flatMap_nil, performAll_nil]
    congr 1
    have : s.sr.brem - BitVec.ofNat 16 0 = s.sr.brem := by bv_omega
    rw [this]
    rfl
  | succ n ih =>
    have hb : decide (0 < s.sr.brem.toNat) = true := by simp; omega
    have hbody : srLoadBody false s = (baseLoad false s).onError srCleanup := by
      simp only [srLoadBody, hc, ho, require_true, hb]
    have happ : replayTrace s.params.srPulseNs (List.replicate (n + 1) false) =
        loadTrace s.params.srPulseNs false ++ replayTrace s.params.srPulseNs (List.replicate n false) := rfl
    rw [happ]
    unfold loadZeros
    rw [hbody]
    obtain h | ⟨ev, hf, h⟩ := baseLoad_onError_outcomes false s <;> rw [h]
    · rw [andThen_done]
      generalize hev : loadTrace s.params.srPulseNs false = es
      have hsub : (s.sr.brem - 1).toNat = s.sr.brem.toNat - 1 := by
        have := s.sr.brem.isLt
        rw [BitVec.toNat_sub_of_le (by rw [BitVec.le_def]; simp; omega)]
        rfl
      obtain h | ⟨ev, hf, h⟩ := ih ((s.performAll es).setBrem (s.sr.brem - 1)) (by simpa using hc)
        (by simpa using ho) (by simp only [State.setBrem_sr]; omega) <;> rw [h]
      · left
        simp only [State.setBrem_params, performAll_params, State.setBrem_sr, performAll_setBrem, setBrem_setBrem,
          performAll_append]
        congr 2
        rw [BitVec.ofNat_add]
        generalize BitVec.ofNat 16 n = k
        bv_omega
      · right
        simp only [State.setBrem_params, performAll_params] at hf
        refine ⟨_, FailsIn_append_right _ hf, ?_⟩
        rw [performAll_setBrem, performAll_append]
        rfl
    · exact .inr ⟨ev, FailsIn_append_left _ hf, rfl⟩

/-- What `n` loads of a zero do in the ordered personality with room for them (R69). -/
theorem loadZeros_ordered (n : Nat) (s : State) (hc : s.sr.cfg = true) (ho : s.sr.ord = .ordered)
    (hn : n ≤ s.sr.orem.toNat) :
    loadZeros n s = .done () (s.withSr { s.sr with
      buf := s.sr.buf ++ List.replicate n false, orem := s.sr.orem - BitVec.ofNat 16 n }) := by
  induction n generalizing s with
  | zero =>
    have : s.sr.orem - BitVec.ofNat 16 0 = s.sr.orem := by bv_omega
    simp only [loadZeros, List.replicate_zero, List.append_nil, this]
    rfl
  | succ n ih =>
    have hb : decide (0 < s.sr.orem.toNat) = true := by simp; omega
    have hbody : srLoadBody false s = .done () (s.bufferBit false) := by
      simp only [srLoadBody, hc, ho, require_true, hb]
    have hsub : (s.sr.orem - 1).toNat = s.sr.orem.toNat - 1 := by
      have := s.sr.orem.isLt
      rw [BitVec.toNat_sub_of_le (by rw [BitVec.le_def]; simp; omega)]
      rfl
    unfold loadZeros
    rw [hbody, andThen_done, ih _ (by simpa using hc) (by simpa using ho)
      (by simp only [State.bufferBit_sr]; omega)]
    simp only [State.bufferBit_sr, List.append_assoc, List.replicate_succ, List.cons_append, List.nil_append]
    have : s.sr.orem - 1 - BitVec.ofNat 16 n = s.sr.orem - BitVec.ofNat 16 (n + 1) := by
      rw [BitVec.ofNat_add]
      generalize BitVec.ofNat 16 n = k
      bv_omega
    rw [this]
    rfl

/-! ## The bodies of the operations -/

/-- All the body of SR.LOAD can do (R67). -/
theorem srLoadBody_outcomes (b : Bool) (s : State) :
    ((s.sr.cfg = false ∨ s.sr.rem = 0) ∧ srLoadBody b s = .raised .precondViolation s) ∨
    (s.sr.cfg = true ∧ s.sr.ord = .base ∧ 0 < s.sr.brem.toNat ∧
      (srLoadBody b s = .done () ((s.performAll (loadTrace s.params.srPulseNs b)).setBrem (s.sr.brem - 1)) ∨
        ∃ events, FailsIn (loadTrace s.params.srPulseNs b) events ∧
          srLoadBody b s = .raised .ioFault (s.performAll events).srCleanup)) ∨
    (s.sr.cfg = true ∧ s.sr.ord = .ordered ∧ 0 < s.sr.orem.toNat ∧ srLoadBody b s = .done () (s.bufferBit b)) := by
  cases hc : s.sr.cfg
  · exact .inl ⟨.inl rfl, by simp only [srLoadBody, hc, require_false]⟩
  cases ho : s.sr.ord
  · by_cases hb : 0 < s.sr.brem.toNat
    · have hbody : srLoadBody b s = (baseLoad b s).onError srCleanup := by
        simp only [srLoadBody, hc, ho, require_true, decide_eq_true hb]
      rw [hbody]
      exact .inr (.inl ⟨rfl, rfl, hb, baseLoad_onError_outcomes b s⟩)
    · refine .inl ⟨.inr ?_, by simp only [srLoadBody, hc, ho, require_true, decide_eq_false hb, require_false]⟩
      simp only [SrEngine.rem, hc, ho, if_true]
      bv_omega
  · by_cases hb : 0 < s.sr.orem.toNat
    · exact .inr (.inr ⟨rfl, rfl, hb, by simp only [srLoadBody, hc, ho, require_true, decide_eq_true hb]⟩)
    · refine .inl ⟨.inr ?_, by simp only [srLoadBody, hc, ho, require_true, decide_eq_false hb, require_false]⟩
      simp only [SrEngine.rem, hc, ho, if_true]
      bv_omega

/-- All the body of SR.COMMIT can do (R68). -/
theorem srCommitBody_outcomes (s : State) :
    ((s.sr.cfg = false ∨ s.sr.ord = .ordered ∧ s.sr.orem ≠ 0) ∧ srCommitBody s = .raised .precondViolation s) ∨
    (s.sr.cfg = true ∧ s.sr.ord = .base ∧
      (srCommitBody s = .done () ((s.performAll latchTrace).setBrem s.sr.cap) ∨
        ∃ events, FailsIn latchTrace events ∧ srCommitBody s = .raised .ioFault (s.performAll events).srCleanup)) ∨
    (s.sr.cfg = true ∧ s.sr.ord = .ordered ∧ s.sr.orem = 0 ∧
      (srCommitBody s =
          .done () (s.performAll (replayTrace s.params.srPulseNs s.sr.drainOrder ++ latchTrace)).srCleanup ∨
        ∃ events, FailsIn (replayTrace s.params.srPulseNs s.sr.drainOrder ++ latchTrace) events ∧
          srCommitBody s = .raised .ioFault (s.performAll events).srCleanup)) := by
  cases hc : s.sr.cfg
  · exact .inl ⟨.inl rfl, by simp only [srCommitBody, hc, require_false]⟩
  cases ho : s.sr.ord
  · have hbody : srCommitBody s = (baseLatch s).onError srCleanup := by
      simp only [srCommitBody, hc, ho, require_true]
    rw [hbody]
    exact .inr (.inl ⟨rfl, rfl, baseLatch_onError_outcomes s⟩)
  · by_cases hb : s.sr.orem = 0
    · have hbody : srCommitBody s =
          ((replay s.sr.drainOrder s).andThen fun _ s => baseLatch s).cleanup srCleanup := by
        simp only [srCommitBody, hc, ho, require_true, hb, BEq.rfl]
      rw [hbody]
      exact .inr (.inr ⟨rfl, rfl, hb, orderedCommit_outcomes _ s⟩)
    · exact .inl ⟨.inr ⟨rfl, hb⟩, by
        simp only [srCommitBody, hc, ho, require_true, beq_eq_false_iff_ne.mpr hb, require_false]⟩

/-- The engine's elements ride along events, and the cleanup keeps only the configuration. -/
theorem performAll_withSr (e : SrEngine) (es : List Event) (s : State) :
    (s.withSr e).performAll es = (s.performAll es).withSr e := by
  induction es generalizing s with
  | nil => rfl
  | cons x es ih => exact ih (s.perform x)
theorem srCleanup_withSr (e : SrEngine) (s : State) (es : List Event) (h1 : e.cfg = s.sr.cfg) (h2 : e.cap = s.sr.cap)
    (h3 : e.ord = s.sr.ord) (h4 : e.mode = s.sr.mode) :
    ((s.withSr e).performAll es).srCleanup = (s.performAll es).srCleanup := by
  rw [performAll_withSr]
  unfold State.srCleanup State.withSr
  simp only [performAll_sr, h1, h2, h3, h4]

/-- All the body of SR.CLEAR can do (R69). An ordered engine that is empty by its counter has an empty buffer wherever
the invariant holds. -/
theorem srClearBody_outcomes (s : State) :
    ((s.sr.cfg = false ∨ s.sr.rem ≠ s.sr.cap) ∧ srClearBody s = .raised .precondViolation s) ∨
    (s.sr.cfg = true ∧ s.sr.rem = s.sr.cap ∧ ∃ bits,
      (s.sr.ord = .base ∧ bits = List.replicate s.sr.cap.toNat false ∧
          srClearBody s =
            .done () ((s.performAll (replayTrace s.params.srPulseNs bits ++ latchTrace)).setBrem s.sr.cap) ∨
        s.sr.ord = .ordered ∧
          bits = SrEngine.drainOrder { s.sr with buf := s.sr.buf ++ List.replicate s.sr.cap.toNat false } ∧
          srClearBody s = .done () (s.performAll (replayTrace s.params.srPulseNs bits ++ latchTrace)).srCleanup ∨
        ∃ events, FailsIn (replayTrace s.params.srPulseNs bits ++ latchTrace) events ∧
          srClearBody s = .raised .ioFault (s.performAll events).srCleanup)) := by
  cases hc : s.sr.cfg
  · exact .inl ⟨.inl rfl, by simp only [srClearBody, hc, require_false]⟩
  by_cases hr : s.sr.rem = s.sr.cap
  swap
  · exact .inl ⟨.inr hr, by
      simp only [srClearBody, hc, require_true, beq_eq_false_iff_ne.mpr hr, require_false]⟩
  right
  refine ⟨rfl, hr, ?_⟩
  have hbody : srClearBody s = (loadZeros s.sr.cap.toNat s).andThen fun _ s => srCommitBody s := by
    simp only [srClearBody, hc, require_true, hr, BEq.rfl]
  rw [hbody]
  cases ho : s.sr.ord
  · refine ⟨List.replicate s.sr.cap.toNat false, ?_⟩
    have hb : s.sr.brem = s.sr.cap := by simpa only [SrEngine.rem, hc, ho, if_true] using hr
    obtain h | ⟨ev, hf, h⟩ := loadZeros_base_outcomes s.sr.cap.toNat s hc ho (by rw [hb]) <;> rw [h]
    · rw [andThen_done]
      generalize hes : replayTrace s.params.srPulseNs (List.replicate s.sr.cap.toNat false) = es
      generalize s.sr.brem - BitVec.ofNat 16 s.sr.cap.toNat = v
      obtain ⟨hx, -⟩ | ⟨-, -, h | ⟨ev, hf, h⟩⟩ | ⟨-, hx, -⟩ :=
        srCommitBody_outcomes ((s.performAll es).setBrem v)
      · simp [hc, ho] at hx
      · left
        refine ⟨rfl, rfl, ?_⟩
        rw [h, performAll_setBrem, setBrem_setBrem, performAll_append]
        simp
      · right; right
        refine ⟨es ++ ev, FailsIn_append_right _ hf, ?_⟩
        rw [h, performAll_setBrem, srCleanup_setBrem, performAll_append]
      · simp [ho] at hx
    · exact .inr (.inr ⟨ev, FailsIn_append_left _ hf, by rw [andThen_raised]⟩)
  · refine ⟨SrEngine.drainOrder { s.sr with buf := s.sr.buf ++ List.replicate s.sr.cap.toNat false }, ?_⟩
    have hb : s.sr.orem = s.sr.cap := by simpa only [SrEngine.rem, hc, ho, if_true] using hr
    rw [loadZeros_ordered s.sr.cap.toNat s hc ho (by rw [hb]), andThen_done]
    generalize hv : s.sr.orem - BitVec.ofNat 16 s.sr.cap.toNat = v
    have hv0 : v = 0 := by rw [← hv, hb]; simp
    obtain ⟨hx, -⟩ | ⟨-, hx, -⟩ | ⟨-, -, -, h | ⟨ev, hf, h⟩⟩ := srCommitBody_outcomes
      (s.withSr { s.sr with buf := s.sr.buf ++ List.replicate s.sr.cap.toNat false, orem := v })
    · simp [State.withSr, hc, ho, hv0] at hx
    · simp [State.withSr, ho] at hx
    · right; left
      refine ⟨rfl, rfl, ?_⟩
      rw [h]
      exact congrArg (Result.done ()) (srCleanup_withSr _ s _ rfl rfl rfl rfl)
    · right; right
      refine ⟨ev, hf, ?_⟩
      rw [h]
      exact congrArg (Result.raised Err.ioFault) (srCleanup_withSr _ s _ rfl rfl rfl rfl)

/-- What is left after a failed transfer and its cleanup (R76, R79): the session closed, or L_CE unknown. -/
theorem raised_linkDisable (events : List Event) (s : State) :
    (linkDisable (s.performAll events)).state =
        (s.performAll (events ++ disableTrace s.link.pulse.toNat)).setTe false ∨
      (linkDisable (s.performAll events)).state = s.performAll (events ++ [.fail .lCe]) := by
  rw [performAll_append, performAll_append]
  have := linkDisable_state (s.performAll events)
  rwa [performAll_pulse] at this

end Sys2Proof.Machine
end

