-- ==== Sys2Proof/Laws/Frames.lean ====
section
/-! SUPPORT. The two sides of the block: the events of one side keep the other's frame, and what an operation of the
shift-register engine leaves. -/

namespace Sys2Proof.Machine

/-- An event that no pin of the link has a part in. -/
def Event.onSr : Event → Bool
  | .drive .srData _ | .drive .srClk _ | .drive .srLatch _ | .fail .srData | .fail .srClk | .fail .srLatch | .wait _ => true
  | _ => false
/-- An event that no pin of the shift register has a part in. -/
def Event.onLink : Event → Bool
  | .drive .srData _ | .drive .srClk _ | .drive .srLatch _ | .fail .srData | .fail .srClk | .fail .srLatch => false
  | _ => true

/-- `SrFrame` without the device on the link, which `performAll_link` gives. -/
def SrSide (s t : State) : Prop :=
  t.params = s.params ∧ t.link = s.link ∧ t.pins.lClk = s.pins.lClk ∧ t.pins.lCe = s.pins.lCe ∧ t.env.run = s.env.run ∧
    t.env.script = s.env.script ∧ t.env.resultReads = s.env.resultReads ∧ t.host = s.host ∧ t.replies = s.replies
/-- `LinkFrame` without the attached register, which `performAll_sipo` gives. -/
def LinkSide (s t : State) : Prop :=
  t.params = s.params ∧ t.sr = s.sr ∧ t.pins.srData = s.pins.srData ∧ t.pins.srClk = s.pins.srClk ∧
    t.pins.srLatch = s.pins.srLatch ∧ t.env.run = s.env.run ∧ t.env.script = s.env.script ∧
    t.env.resultReads = s.env.resultReads ∧ t.host = s.host ∧ t.replies = s.replies

/-- SrSide is reflexive. -/
theorem SrSide.refl (s : State) : SrSide s s := by simp [SrSide]
/-- SrSide is transitive. -/
theorem SrSide.trans {s t u : State} (h : SrSide s t) (k : SrSide t u) : SrSide s u := by simp_all [SrSide]
/-- LinkSide is reflexive. -/
theorem LinkSide.refl (s : State) : LinkSide s s := by simp [LinkSide]
/-- LinkSide is transitive. -/
theorem LinkSide.trans {s t u : State} (h : LinkSide s t) (k : LinkSide t u) : LinkSide s u := by simp_all [LinkSide]

/-! ## The devices -/

/-- The link's device does not see the shift register's events, but for a failed access (R119). -/
theorem linkDevice_observe_onSr (ce : Level) (e : Event) (d : LinkDevice) (h : e.onSr = true) (hf : e.isFailure = false) :
    d.observe ce e = d := by
  cases e with
  | drive p v => cases p <;> simp_all [Event.onSr] <;> cases d <;> rfl
  | wait n => cases d <;> rfl
  | fail p => exact nomatch hf
  | _ => exact nomatch h
/-- The attached register does not see the link's events, but for a failed access (R119). -/
theorem sipo_observe_onLink (ps : Pins) (e : Event) (d : Sipo) (h : e.onLink = true) (hf : e.isFailure = false) :
    d.observe ps e = d := by
  cases e with
  | drive p v => cases p <;> simp_all [Event.onLink] <;> rfl
  | fail p => exact nomatch hf
  | failDir => exact nomatch hf
  | _ => rfl

/-- Every level of a forgotten list is X. -/
theorem eq_x_of_mem_allX {l : Level} {ls : List Level} (h : l ∈ allX ls) : l = .x := by
  obtain ⟨-, -, rfl⟩ := List.mem_map.mp h
  rfl

/-- A failed access, on whichever pin, leaves the attached register unknown (R119). -/
theorem sipo_observe_failure (ps : Pins) (e : Event) (d : Sipo) (h : e.isFailure = true) : d.observe ps e = d.forget := by
  cases e <;> first | rfl | exact nomatch h

/-- A failed access, on whichever pin, leaves the device on the link unknown (R119). -/
theorem linkDevice_observe_failure (ce : Level) (e : Event) (d : LinkDevice) (h : e.isFailure = true) :
    d.observe ce e = d.forget := by
  simp [LinkDevice.observe, h]

/-- Forgetting twice is forgetting once. -/
@[simp] theorem linkDevice_forget_forget (d : LinkDevice) : d.forget.forget = d.forget := by cases d <;> rfl
@[simp] theorem sipo_forget_forget (d : Sipo) : d.forget.forget = d.forget := by simp [Sipo.forget, allX]

/-- What an event does to a device is forgotten with it. -/
theorem linkDevice_forget_observe (ce : Level) (e : Event) (d : LinkDevice) : (d.observe ce e).forget = d.forget := by
  unfold LinkDevice.observe
  split
  · cases d <;> rfl
  · cases d <;> rfl

/-- A forgotten device stays so in the cleanup's events. -/
theorem linkDevice_observe_forget (ce : Level) (e : Event) (d : LinkDevice)
    (h : e = .drive .lCe false ∨ e = .fail .lCe ∨ ∃ ns, e = .wait ns) : d.forget.observe ce e = d.forget := by
  rcases h with rfl | rfl | ⟨ns, rfl⟩ <;> cases d <;> rfl

/-- The device on the link after events of the shift register: unknown if an access failed, else as before. -/
theorem performAll_link (es : List Event) (s : State) (h : ∀ e ∈ es, e.onSr = true) :
    (s.performAll es).env.link = if es.any Event.isFailure then s.env.link.forget else s.env.link := by
  induction es generalizing s with
  | nil => rfl
  | cons e es ih =>
    rw [performAll_cons, ih _ fun x hx => h x (by simp [hx])]
    have hl : (s.perform e).env.link = s.env.link.observe s.pins.lCe e := rfl
    rw [hl, linkDevice_forget_observe]
    cases hf : e.isFailure
    · simp [hf, linkDevice_observe_onSr _ e _ (h e (by simp)) hf]
    · simp [hf, linkDevice_observe_failure _ e _ hf]

/-- The attached register after events of the link: unknown if an access failed, else as before. -/
theorem performAll_sipo (es : List Event) (s : State) (h : ∀ e ∈ es, e.onLink = true) :
    (s.performAll es).env.sipo = if es.any Event.isFailure then s.env.sipo.forget else s.env.sipo := by
  induction es generalizing s with
  | nil => rfl
  | cons e es ih =>
    rw [performAll_cons, ih _ fun x hx => h x (by simp [hx])]
    have hl : (s.perform e).env.sipo = s.env.sipo.observe s.pins e := rfl
    rw [hl]
    cases hf : e.isFailure
    · simp [hf, sipo_observe_onLink _ e _ (h e (by simp)) hf]
    · simp [hf, sipo_observe_failure _ e _ hf]

/-! ## The rest of each side -/

/-- One event of the shift register leaves the other side alone. -/
theorem perform_srSide (s : State) (e : Event) (h : e.onSr = true) : SrSide s (s.perform e) := by
  cases e with
  | drive p v => cases p <;> simp_all [Event.onSr] <;> simp [SrSide, State.perform, Lines.event, Lines.set, State.lines]
  | fail p => cases p <;> simp_all [Event.onSr] <;> simp [SrSide, State.perform, Lines.event, Lines.set, State.lines]
  | wait n => simp [SrSide, State.perform, Lines.event, State.lines]
  | _ => simp [Event.onSr] at h
/-- One event of the link leaves the other side alone. -/
theorem perform_linkSide (s : State) (e : Event) (h : e.onLink = true) : LinkSide s (s.perform e) := by
  cases e with
  | drive p v => cases p <;> simp_all [Event.onLink] <;> simp [LinkSide, State.perform, Lines.event, Lines.set, State.lines]
  | fail p => cases p <;> simp_all [Event.onLink] <;> simp [LinkSide, State.perform, Lines.event, Lines.set, State.lines] <;> (by_cases hd : s.link.dir = .output <;> simp [hd])
  | _ => simp [LinkSide, State.perform, Lines.event, State.lines]
/-- Events of the shift register leave the other side alone. -/
theorem performAll_srSide (es : List Event) (s : State) (h : ∀ e ∈ es, e.onSr = true) : SrSide s (s.performAll es) := by
  induction es generalizing s with
  | nil => exact .refl s
  | cons e es ih => exact (perform_srSide s e (h e (by simp))).trans (ih _ fun x hx => h x (by simp [hx]))
/-- Events of the link leave the other side alone. -/
theorem performAll_linkSide (es : List Event) (s : State) (h : ∀ e ∈ es, e.onLink = true) : LinkSide s (s.performAll es) := by
  induction es generalizing s with
  | nil => exact .refl s
  | cons e es ih => exact (perform_linkSide s e (h e (by simp))).trans (ih _ fun x hx => h x (by simp [hx]))

/-! ## The sequences -/

/-- The engine's sequences are events of the shift register. -/
theorem loadTrace_onSr (ps b) : ∀ e ∈ loadTrace ps b, e.onSr = true := by simp [loadTrace, Event.onSr]
theorem replayTrace_onSr (ps bs) : ∀ e ∈ replayTrace ps bs, e.onSr = true := by
  intro e he; simp only [replayTrace, List.mem_flatMap] at he; obtain ⟨b, -, h⟩ := he; exact loadTrace_onSr _ _ _ h
theorem latchTrace_onSr : ∀ e ∈ latchTrace, e.onSr = true := by simp [latchTrace, Event.onSr]
/-- The link's sequences are events of the link. -/
theorem pulseTrace_onLink (p) : ∀ e ∈ pulseTrace p, e.onLink = true := by simp [pulseTrace, Event.onLink]
theorem txTrace_onLink (p x) : ∀ e ∈ txTrace p x, e.onLink = true := by
  intro e he; simp only [txTrace, List.mem_cons, List.mem_flatMap, txBitTrace, List.mem_append] at he
  rcases he with rfl | ⟨b, -, h | h⟩
  · rfl
  · simp at h; rcases h with rfl | rfl <;> rfl
  · exact pulseTrace_onLink _ _ h
theorem rxTrace_onLink (p x) : ∀ e ∈ rxTrace p x, e.onLink = true := by
  intro e he; simp only [rxTrace, List.mem_cons, List.mem_flatMap, rxBitTrace, List.mem_append] at he
  rcases he with rfl | ⟨b, -, h | h⟩
  · rfl
  · simp at h; rcases h with rfl | rfl <;> rfl
  · exact pulseTrace_onLink _ _ h
theorem enableTrace_onLink (p) : ∀ e ∈ enableTrace p, e.onLink = true := by simp [enableTrace, Event.onLink]
theorem disableTrace_onLink (p) : ∀ e ∈ disableTrace p, e.onLink = true := by simp [disableTrace, Event.onLink]

/-- A property of a sequence's events and their failures holds of what a failed attempt leaves. -/
theorem FailsIn_all {es ev : List Event} {P : Event → Bool} (h : FailsIn es ev) (hP : ∀ e ∈ es, P e = true)
    (hf : ∀ e, P e = true → P (failureOf e) = true) : ∀ e ∈ ev, P e = true := by
  obtain ⟨b, e, a, rfl, -, rfl⟩ := h
  intro x hx
  simp at hx
  rcases hx with hx | rfl
  · exact hP _ (by simp [hx])
  · exact hf _ (hP _ (by simp))
/-- A failure is on the side of its event. -/
theorem failureOf_onSr (e : Event) (h : e.onSr = true) : (failureOf e).onSr = true := by
  cases e with
  | drive p v => cases p <;> simp_all [Event.onSr, failureOf]
  | _ => simp_all [Event.onSr, failureOf]
theorem failureOf_onLink (e : Event) (h : e.onLink = true) : (failureOf e).onLink = true := by
  cases e with
  | drive p v => cases p <;> simp_all [Event.onLink, failureOf]
  | _ => simp_all [Event.onLink, failureOf]

/-- No event of the spec's sequences is a failure. -/
@[simp] theorem loadTrace_noFailure (ps b) : (loadTrace ps b).any Event.isFailure = false := rfl
@[simp] theorem latchTrace_noFailure : latchTrace.any Event.isFailure = false := rfl
@[simp] theorem enableTrace_noFailure (p) : (enableTrace p).any Event.isFailure = false := rfl
@[simp] theorem disableTrace_noFailure (p) : (disableTrace p).any Event.isFailure = false := rfl
@[simp] theorem txTrace_noFailure (p x) : (txTrace p x).any Event.isFailure = false := rfl
@[simp] theorem rxTrace_noFailure (p x) : (rxTrace p x).any Event.isFailure = false := rfl
@[simp] theorem replayTrace_noFailure (ps bs) : (replayTrace ps bs).any Event.isFailure = false := by
  simp [replayTrace, loadTrace, Event.isFailure]

/-- A failed attempt leaves a failed access. -/
theorem FailsIn_any {es ev : List Event} (h : FailsIn es ev) : ev.any Event.isFailure = true := by
  obtain ⟨b, e, a, rfl, he, rfl⟩ := h
  cases e <;> simp_all [failureOf, Event.isFailure, Event.isAccess]

/-- What an operation of the engine leaves: its events performed, its own fields and RESULT set, and the completion,
which is IOFAULT exactly when an access among the events failed. -/
theorem exec_srOp_outcome (i : Instr) (s : State) (hi : isSrOp i = true) :
    ∃ ev sr k res, exec i s = .next (({ s.performAll ev with sr := sr, result := res } : State).complete k) ∧
      (∀ e ∈ ev, e.onSr = true) ∧ (ev.any Event.isFailure = true ↔ k = .ioFault) := by
  cases i with
  | srConfig cap m o =>
    simp only [exec, execSrConfig]
    cases capLegal s.params cap
    · exact ⟨[], s.sr, .precond, s.result, rfl, by simp, by simp⟩
    · exact ⟨[], _, .ok, s.result, rfl, by simp, by simp⟩
  | srLoad b =>
    simp only [exec, execSrLoad]
    obtain ⟨-, h⟩ | ⟨-, -, -, h | ⟨ev, hf, h⟩⟩ | ⟨-, -, -, h⟩ := srLoadBody_outcomes b s <;> rw [h]
    · exact ⟨[], s.sr, .precond, s.result, rfl, by simp, by simp⟩
    · exact ⟨_, _, .ok, _, rfl, loadTrace_onSr _ _, by simp⟩
    · exact ⟨_, _, .ioFault, _, rfl, FailsIn_all hf (loadTrace_onSr _ _) failureOf_onSr, by simp [FailsIn_any hf]⟩
    · exact ⟨[], _, .ok, s.result, rfl, by simp, by simp⟩
  | srCommit =>
    simp only [exec, execSrCommit]
    have hall : ∀ bs, ∀ e ∈ replayTrace s.params.srPulseNs bs ++ latchTrace, e.onSr = true := by
      intro bs e he; rcases List.mem_append.mp he with h | h
      · exact replayTrace_onSr _ _ _ h
      · exact latchTrace_onSr _ h
    obtain ⟨-, h⟩ | ⟨-, -, h | ⟨ev, hf, h⟩⟩ | ⟨-, -, -, h | ⟨ev, hf, h⟩⟩ := srCommitBody_outcomes s <;> rw [h]
    · exact ⟨[], s.sr, .precond, s.result, rfl, by simp, by simp⟩
    · exact ⟨_, _, .ok, _, rfl, latchTrace_onSr, by simp⟩
    · exact ⟨_, _, .ioFault, _, rfl, FailsIn_all hf latchTrace_onSr failureOf_onSr, by simp [FailsIn_any hf]⟩
    · exact ⟨_, _, .ok, _, rfl, hall _, by simp⟩
    · exact ⟨_, _, .ioFault, _, rfl, FailsIn_all hf (hall _) failureOf_onSr, by simp [FailsIn_any hf]⟩
  | srClear =>
    simp only [exec, execSrClear]
    have hall : ∀ bs, ∀ e ∈ replayTrace s.params.srPulseNs bs ++ latchTrace, e.onSr = true := by
      intro bs e he; rcases List.mem_append.mp he with h | h
      · exact replayTrace_onSr _ _ _ h
      · exact latchTrace_onSr _ h
    obtain ⟨-, h⟩ | ⟨-, -, bits, ⟨-, -, h⟩ | ⟨-, -, h⟩ | ⟨ev, hf, h⟩⟩ := srClearBody_outcomes s <;> rw [h]
    · exact ⟨[], s.sr, .precond, s.result, rfl, by simp, by simp⟩
    · exact ⟨_, _, .ok, _, rfl, hall _, by simp⟩
    · exact ⟨_, _, .ok, _, rfl, hall _, by simp⟩
    · exact ⟨_, _, .ioFault, _, rfl, FailsIn_all hf (hall _) failureOf_onSr, by simp [FailsIn_any hf]⟩
  | srIsfull =>
    simp only [exec, execSrIsfull]
    cases s.sr.cfg
    · exact ⟨[], s.sr, .precond, s.result, rfl, by simp, by simp⟩
    · exact ⟨[], s.sr, .ok, _, rfl, by simp, by simp⟩
  | _ => simp [isSrOp] at hi

end Sys2Proof.Machine
end

