-- ==== Sys2Proof/Laws/LinkOutcomes.lean ====
section
/-! SUPPORT. For each link and command operation, all the ways it can complete and the state it then leaves. -/

namespace Sys2Proof.Machine

/-- What a link or command operation leaves: its events performed, its own fields set, and the completion. -/
def linkLeft (s : State) (ev : List Event) (te : Bool) (res : Option Word)
    (k : Completion) : State :=
  ({ s.performAll ev with link := { (s.performAll ev).link with te := te }, result := res } : State).complete k

/-- Events, then transferEnabled set. -/
theorem linkLeft_of_setTe (s ev v k) : ((s.performAll ev).setTe v).complete k = linkLeft s ev v s.result k := by
  unfold linkLeft
  rw [← performAll_result s ev]
  exact Eq.trans rfl rfl

/-- Events alone. -/
theorem linkLeft_of_performAll (s ev k) : (s.performAll ev).complete k = linkLeft s ev s.link.te s.result k := by
  rw [← linkLeft_of_setTe, ← performAll_te s ev, setTe_self]

/-- Events, then transferEnabled and RESULT set. -/
theorem linkLeft_of_setTe_result (s ev v k r) : (((s.performAll ev).setTe v).setResult r).complete k = linkLeft s ev v (some r) k := by
  unfold linkLeft
  exact Eq.trans rfl rfl

/-- Events, then RESULT set. -/
theorem linkLeft_of_result (s ev k r) : ((s.performAll ev).setResult r).complete k = linkLeft s ev s.link.te (some r) k := by
  rw [← linkLeft_of_setTe_result, ← performAll_te s ev, setTe_self]

/-- A completion that did nothing else. -/
theorem linkLeft_nil (s k) : s.complete k = linkLeft s [] s.link.te s.result k := linkLeft_of_performAll s [] k

/-- The state of a transfer that failed after `f`, with the cleanup. -/
theorem linkLeft_of_failure (f : List Event) (s : State) :
    ∃ ev te, (ev = f ++ disableTrace s.link.pulse.toNat ∧ te = false ∨ ev = f ++ [.fail .lCe] ∧ te = s.link.te) ∧
      (linkDisable (s.performAll f)).state.complete .ioFault = linkLeft s ev te s.result .ioFault := by
  obtain h | h := raised_linkDisable f s <;> rw [h]
  · exact ⟨_, _, .inl ⟨rfl, rfl⟩, linkLeft_of_setTe _ _ _ _⟩
  · exact ⟨_, _, .inr ⟨rfl, rfl⟩, linkLeft_of_performAll _ _ _⟩

/-- All a byte transfer out can do (R83, R79). -/
theorem sendByte_outcomes (x : Byte) (s : State) :
    ∃ ev te k, finish (sendByte x s) = .next (linkLeft s ev te s.result k) ∧
      (ev = [] ∧ te = s.link.te ∧ (k = .precond ∧ s.link.cfg = false ∨ k = .notReady) ∨
       ev = txTrace s.link.pulse.toNat x ∧ te = s.link.te ∧ k = .ok ∨
       k = .ioFault ∧ ∃ f, FailsIn (txTrace s.link.pulse.toNat x) f ∧
         (ev = f ++ disableTrace s.link.pulse.toNat ∧ te = false ∨ ev = f ++ [.fail .lCe] ∧ te = s.link.te)) := by
  unfold sendByte
  cases hc : s.link.cfg
  · refine ⟨[], s.link.te, .precond, ?_, .inl ⟨rfl, rfl, .inl ⟨rfl, rfl⟩⟩⟩
    rw [require_false, finish_raised, linkLeft_nil]; rfl
  cases hte : s.link.te
  · refine ⟨[], s.link.te, .notReady, ?_, .inl ⟨rfl, hte, .inr rfl⟩⟩
    rw [require_true, hte, require_false, finish_raised, linkLeft_nil, hte]; rfl
  rw [require_true, hte, require_true]
  obtain h | ⟨f, hf, h⟩ := clockIn_outcomes x s <;> rw [h]
  · refine ⟨_, s.link.te, .ok, ?_, .inr (.inl ⟨rfl, hte, rfl⟩)⟩
    rw [onError_done, finish_done, linkLeft_of_performAll]
  · obtain ⟨ev, te, hev, hl⟩ := linkLeft_of_failure f s
    refine ⟨ev, te, .ioFault, ?_, .inr (.inr ⟨rfl, f, hf, ?_⟩)⟩
    · rw [onError_raised, finish_raised]
      exact congrArg _ hl
    · rw [hte] at hev; exact hev

/-- How a cleanup can leave the session. -/
def ClosedAfter (s : State) (f ev : List Event) (te : Bool) : Prop :=
  ev = f ++ disableTrace s.link.pulse.toNat ∧ te = false ∨ ev = f ++ [.fail .lCe] ∧ te = s.link.te

/-- All LINK.ENABLE can do (R81, R79). -/
theorem execLinkEnable_outcomes (s : State) :
    s.link.cfg = false ∧ execLinkEnable s = .next (s.complete .precond) ∨
    s.link.cfg = true ∧
      (execLinkEnable s = .next (linkLeft s (enableTrace s.link.pulse.toNat) true s.result .ok) ∨
        ∃ f ev te, FailsIn (enableTrace s.link.pulse.toNat) f ∧ ClosedAfter s f ev te ∧
          execLinkEnable s = .next (linkLeft s ev te s.result .ioFault)) := by
  unfold execLinkEnable
  cases hc : s.link.cfg
  · exact .inl ⟨rfl, by rw [require_false, finish_raised]; rfl⟩
  · refine .inr ⟨rfl, ?_⟩
    rw [require_true]
    obtain h | ⟨f, hf, h⟩ := linkEnable_outcomes s <;> rw [h]
    · left; rw [onError_done, finish_done, linkLeft_of_setTe]
    · obtain ⟨ev, te, hev, hl⟩ := linkLeft_of_failure f s
      right; refine ⟨f, ev, te, hf, hev, ?_⟩
      rw [onError_raised, finish_raised]
      exact congrArg _ hl

/-- All LINK.DISABLE can do (R82). -/
theorem execLinkDisable_outcomes (s : State) :
    s.link.cfg = false ∧ execLinkDisable s = .next (s.complete .precond) ∨
    s.link.cfg = true ∧
      (execLinkDisable s = .next (linkLeft s (disableTrace s.link.pulse.toNat) false s.result .ok) ∨
        execLinkDisable s = .next (linkLeft s [.fail .lCe] s.link.te s.result .ioFault)) := by
  unfold execLinkDisable
  cases hc : s.link.cfg
  · exact .inl ⟨rfl, by rw [require_false, finish_raised]; rfl⟩
  · refine .inr ⟨rfl, ?_⟩
    rw [require_true]
    obtain h | h := linkDisable_cases s <;> rw [h]
    · left; rw [finish_done, linkLeft_of_setTe]
    · right; rw [finish_raised]
      exact congrArg _ (linkLeft_of_performAll s [.fail .lCe] _)

/-- All LINK.RX can do (R84, R79). -/
theorem execLinkRx_outcomes (s : State) :
    s.link.cfg = false ∧ execLinkRx s = .next (s.complete .precond) ∨
    s.link.cfg = true ∧ s.link.te = false ∧ execLinkRx s = .next (s.complete .notReady) ∨
    s.link.cfg = true ∧ s.link.te = true ∧ ∃ r,
      (execLinkRx s = .next (linkLeft s (rxTrace s.link.pulse.toNat r) s.link.te (some (zextByte r)) .ok) ∨
        ∃ f ev te, FailsIn (rxTrace s.link.pulse.toNat r) f ∧ ClosedAfter s f ev te ∧
          execLinkRx s = .next (linkLeft s ev te s.result .ioFault)) := by
  unfold execLinkRx
  cases hc : s.link.cfg
  · exact .inl ⟨rfl, by rw [require_false, finish_raised]; rfl⟩
  cases hte : s.link.te
  · exact .inr (.inl ⟨rfl, rfl, by rw [require_true, hte, require_false, finish_raised]; rfl⟩)
  · rw [require_true, hte, require_true]
    obtain ⟨r, h⟩ := clockOut_outcomes s
    refine .inr (.inr ⟨rfl, rfl, r, ?_⟩)
    obtain h | ⟨f, hf, h⟩ := h <;> rw [h]
    · left; rw [onError_done, andThen_done, finish_done, linkLeft_of_result, hte]
    · obtain ⟨ev, te, hev, hl⟩ := linkLeft_of_failure f s
      right; refine ⟨f, ev, te, hf, hev, ?_⟩
      rw [onError_raised, andThen_raised, finish_raised]
      exact congrArg _ hl

/-- A cleanup that ends well keeps the body's value (R14). -/
theorem cleanup_done_of_done {α : Type} {a : α} {s t : State} {c : State → Result Unit} (h : c s = .done () t) :
    (Result.done a s).cleanup c = .done a t := by
  unfold Result.cleanup; simp only [h]

/-- A cleanup's own error stands after a body that ended well (R98). -/
theorem cleanup_done_of_raised {α : Type} {a : α} {s t : State} {e : Err} {c : State → Result Unit} (h : c s = .raised e t) :
    (Result.done a s).cleanup c = .raised e t := by
  unfold Result.cleanup; simp only [h]

/-- The cleanup of a CMD operation whose body failed (R89, R90). -/
theorem cleanup_failed (f : List Event) (v : Bool) (s : State) :
    ∃ ev te, (ev = f ++ disableTrace s.link.pulse.toNat ∧ te = false ∨ ev = f ++ [.fail .lCe] ∧ te = v) ∧
      (linkDisable ((s.performAll f).setTe v)).state.complete .ioFault = linkLeft s ev te s.result .ioFault := by
  have h := linkDisable_state ((s.performAll f).setTe v)
  simp only [State.setTe_link, performAll_pulse] at h
  rw [performAll_setTe, performAll_setTe, setTe_setTe, ← performAll_append, ← performAll_append] at h
  obtain h | h := h <;> rw [h]
  · exact ⟨_, _, .inl ⟨rfl, rfl⟩, linkLeft_of_setTe _ _ _ _⟩
  · exact ⟨_, _, .inr ⟨rfl, rfl⟩, linkLeft_of_setTe _ _ _ _⟩

/-- All CMD.WRITE can do (R89). -/
theorem execCmdWrite_outcomes (c : RegClass) (n : BitVec 5) (v : Byte) (s : State) :
    s.link.cfg = false ∧ execCmdWrite c n v s = .next (s.complete .precond) ∨
    s.link.cfg = true ∧
      (execCmdWrite c n v s = .next (linkLeft s (writeEvents s.link.pulse.toNat c n v ++ disableTrace s.link.pulse.toNat) false s.result .ok) ∨
       execCmdWrite c n v s = .next (linkLeft s (writeEvents s.link.pulse.toNat c n v ++ [.fail .lCe]) true s.result .ioFault) ∨
        ∃ f ev te v', FailsIn (writeEvents s.link.pulse.toNat c n v) f ∧ (v' = s.link.te ∨ v' = true) ∧
          (ev = f ++ disableTrace s.link.pulse.toNat ∧ te = false ∨ ev = f ++ [.fail .lCe] ∧ te = v') ∧
          execCmdWrite c n v s = .next (linkLeft s ev te s.result .ioFault)) := by
  unfold execCmdWrite
  cases hc : s.link.cfg
  · exact .inl ⟨rfl, by rw [require_false, finish_raised]; rfl⟩
  · refine .inr ⟨rfl, ?_⟩
    rw [require_true]
    obtain h | ⟨f, v', hf, hv, h⟩ := writeTransfer_outcomes c n v s <;> rw [h]
    · generalize writeEvents s.link.pulse.toNat c n v = w
      have hd := linkDisable_cases ((s.performAll w).setTe true)
      simp only [State.setTe_link, performAll_pulse] at hd
      rw [performAll_setTe, setTe_setTe, perform_setTe, ← performAll_append] at hd
      obtain hd | hd := hd
      · left; rw [cleanup_done_of_done hd, finish_done, linkLeft_of_setTe]
      · right; left
        rw [cleanup_done_of_raised hd, finish_raised]
        have := linkLeft_of_setTe s (w ++ [.fail .lCe]) true .ioFault
        rw [performAll_append] at this
        exact congrArg _ this
    · obtain ⟨ev, te, hev, hl⟩ := cleanup_failed f v' s
      right; right; refine ⟨f, ev, te, v', hf, hv, hev, ?_⟩
      rw [cleanup_raised, finish_raised]
      exact congrArg _ hl

/-- All CMD.READ can do (R90). -/
theorem execCmdRead_outcomes (c : RegClass) (n : BitVec 5) (s : State) :
    s.link.cfg = false ∧ execCmdRead c n s = .next (s.complete .precond) ∨
    s.link.cfg = true ∧ ∃ r,
      (execCmdRead c n s = .next (linkLeft s (readEvents s.link.pulse.toNat c n r ++ disableTrace s.link.pulse.toNat) false (some (zextByte r)) .ok) ∨
       execCmdRead c n s = .next (linkLeft s (readEvents s.link.pulse.toNat c n r ++ [.fail .lCe]) true s.result .ioFault) ∨
        ∃ f ev te v', FailsIn (readEvents s.link.pulse.toNat c n r) f ∧ (v' = s.link.te ∨ v' = true) ∧
          (ev = f ++ disableTrace s.link.pulse.toNat ∧ te = false ∨ ev = f ++ [.fail .lCe] ∧ te = v') ∧
          execCmdRead c n s = .next (linkLeft s ev te s.result .ioFault)) := by
  unfold execCmdRead
  cases hc : s.link.cfg
  · exact .inl ⟨rfl, by rw [require_false, finish_raised]; rfl⟩
  · refine .inr ⟨rfl, ?_⟩
    rw [require_true]
    obtain ⟨r, h⟩ := readTransfer_outcomes c n s
    refine ⟨r, ?_⟩
    obtain h | ⟨f, v', hf, hv, h⟩ := h <;> rw [h]
    · generalize readEvents s.link.pulse.toNat c n r = w
      have hd := linkDisable_cases ((s.performAll w).setTe true)
      simp only [State.setTe_link, performAll_pulse] at hd
      rw [performAll_setTe, setTe_setTe, perform_setTe, ← performAll_append] at hd
      obtain hd | hd := hd
      · left; rw [cleanup_done_of_done hd, andThen_done, finish_done, linkLeft_of_setTe_result]
      · right; left
        rw [cleanup_done_of_raised hd, andThen_raised, finish_raised]
        have := linkLeft_of_setTe s (w ++ [.fail .lCe]) true .ioFault
        rw [performAll_append] at this
        exact congrArg _ this
    · obtain ⟨ev, te, hev, hl⟩ := cleanup_failed f v' s
      right; right; refine ⟨f, ev, te, v', hf, hv, hev, ?_⟩
      rw [cleanup_raised, andThen_raised, finish_raised]
      exact congrArg _ hl

end Sys2Proof.Machine
end

