-- ==== Sys2Proof/Laws/PerInstr.lean ====
section
/-! SUPPORT. The families of statements made for each instruction: `OperandsFit` says that an instruction's operands fit
their fields (R55, R62), whatever they are. -/

namespace Sys2Proof.Laws

/-- Every operand of the instruction fits its field (R55, R56, R62). -/
def OperandsFit.Statement (i : Instr) : Prop := i.wellFormed = true

/-- The largest value of a field is one less than two to its width. -/
theorem toNat_le_of_width {n m : Nat} (x : BitVec n) (h : 2 ^ n ≤ m + 1) : x.toNat ≤ m := by
  have := x.isLt
  omega

theorem OperandsFit.srConfig (cap : BitVec 16) (mode : BitOrder) (ord : Personality) :
    OperandsFit.Statement (.srConfig cap mode ord) := by
  have := toNat_le_of_width (m := 65535) cap (by norm_num)
  simpa [OperandsFit.Statement, Instr.wellFormed, Instr.operandBounds] using this

theorem OperandsFit.srLoad (bit : Bool) : OperandsFit.Statement (.srLoad bit) := by
  cases bit <;> rfl

theorem OperandsFit.srCommit : OperandsFit.Statement .srCommit := rfl

theorem OperandsFit.srClear : OperandsFit.Statement .srClear := rfl

theorem OperandsFit.srIsfull : OperandsFit.Statement .srIsfull := rfl

theorem OperandsFit.linkConfig (pulse : BitVec 24) : OperandsFit.Statement (.linkConfig pulse) := by
  have := toNat_le_of_width (m := 16777215) pulse (by norm_num)
  simpa [OperandsFit.Statement, Instr.wellFormed, Instr.operandBounds] using this

theorem OperandsFit.linkEnable : OperandsFit.Statement .linkEnable := rfl

theorem OperandsFit.linkDisable : OperandsFit.Statement .linkDisable := rfl

theorem OperandsFit.linkTx (data : Byte) : OperandsFit.Statement (.linkTx data) := by
  have := toNat_le_of_width (m := 255) data (by norm_num)
  simpa [OperandsFit.Statement, Instr.wellFormed, Instr.operandBounds] using this

theorem OperandsFit.linkRx : OperandsFit.Statement .linkRx := rfl

theorem OperandsFit.linkIsen : OperandsFit.Statement .linkIsen := rfl

theorem OperandsFit.cmdWrite (cls : RegClass) (index : BitVec 5) (value : Byte) :
    OperandsFit.Statement (.cmdWrite cls index value) := by
  have hi := toNat_le_of_width (m := 31) index (by norm_num)
  have hv := toNat_le_of_width (m := 255) value (by norm_num)
  simpa [OperandsFit.Statement, Instr.wellFormed, Instr.operandBounds] using And.intro hi hv

theorem OperandsFit.cmdRead (cls : RegClass) (index : BitVec 5) : OperandsFit.Statement (.cmdRead cls index) := by
  have := toNat_le_of_width (m := 31) index (by norm_num)
  simpa [OperandsFit.Statement, Instr.wellFormed, Instr.operandBounds] using this

theorem OperandsFit.errClear : OperandsFit.Statement .errClear := rfl

theorem OperandsFit.cmdbyteWriteRam (index : BitVec 5) : OperandsFit.Statement (.cmdbyteWriteRam index) := by
  have := toNat_le_of_width (m := 31) index (by norm_num)
  simpa [OperandsFit.Statement, Instr.wellFormed, Instr.operandBounds] using this

theorem OperandsFit.cmdbyteReadRam (index : BitVec 5) : OperandsFit.Statement (.cmdbyteReadRam index) := by
  have := toNat_le_of_width (m := 31) index (by norm_num)
  simpa [OperandsFit.Statement, Instr.wellFormed, Instr.operandBounds] using this

theorem OperandsFit.cmdbyteWriteRtc (index : BitVec 5) : OperandsFit.Statement (.cmdbyteWriteRtc index) := by
  have := toNat_le_of_width (m := 31) index (by norm_num)
  simpa [OperandsFit.Statement, Instr.wellFormed, Instr.operandBounds] using this

theorem OperandsFit.cmdbyteReadRtc (index : BitVec 5) : OperandsFit.Statement (.cmdbyteReadRtc index) := by
  have := toNat_le_of_width (m := 31) index (by norm_num)
  simpa [OperandsFit.Statement, Instr.wellFormed, Instr.operandBounds] using this

end Sys2Proof.Laws
end

