-- ==== Sys2Proof/Tests/Slice0.lean ====
section
/-! SUPPORT. The model's own tests: the assembler's checks, words written out from the spec, single steps against
95_test_vectors.md, and for each obligation with hypotheses a state and operands that meet them together. -/

namespace Sys2Proof.Tests

open Sys2Proof Sys2Proof.Machine

/-! ## Helpers -/

/-- `n` draws: the accesses in `fails` fail, the samples at the accesses in `ones` are 1. -/
def draws (n : Nat) (fails ones : List Nat) : List Draw :=
  (List.range n).map fun k => { fail := fails.contains k, bit := ones.contains k }

/-- The state after reset, with draws for the first `n` accesses. -/
def fresh (n : Nat) (fails : List Nat := []) (ones : List Nat := []) : State :=
  { State.reset with env := { State.reset.env with script := draws n fails ones } }

/-- A base engine of capacity 4 with `rem` bits free. -/
def base4 (rem : BitVec 16) (s : State) : State :=
  { s with sr := { cfg := true, cap := 4, ord := .base, mode := .natural, brem := rem, orem := 4, buf := [] } }

/-- A base engine of capacity 1 in inverse mode, with its bit still free. -/
def base1 (s : State) : State :=
  { s with sr := { cfg := true, cap := 1, ord := .base, mode := .inverse, brem := 1, orem := 1, buf := [] } }

/-- An ordered engine of capacity 3 that holds `buf`. -/
def ordered3 (mode : BitOrder) (buf : List Bool) (s : State) : State :=
  { s with sr := { cfg := true, cap := 3, ord := .ordered, mode := mode, brem := 3, orem := .ofNat 16 (3 - buf.length),
                   buf := buf } }

/-- The engine's attached register with `n` positions, all low. -/
def register (n : Nat) (s : State) : State :=
  { s with env := { s.env with sipo := { stage := List.replicate n .low, outs := List.replicate n .low } } }

/-- The link configured with P = 1000, no session. -/
def link (s : State) : State := s.configureLink 1000

/-- The link configured with P = 1000, in a session. -/
def session (s : State) : State :=
  { link s with link := { (link s).link with te := true }, pins := { s.pins with lCe := .high } }

/-- LOOPBACK on the link. -/
def loopback (s : State) : State := { s with env := { s.env with link := .loopback { driven := [], next := 0 } } }

/-- RAMCHIP on the link, its RAM zero. -/
def ramchip (s : State) : State :=
  { s with env := { s.env with link := .ramchip { ram := List.replicate 32 0, phase := .idle, bits := [] } } }

/-- What an outcome's next state gives. -/
def after {α : Type} (o : Host.Outcome State Fault Refusal) (f : State → α) : Option α :=
  match o with
  | .next t => some (f t)
  | _ => none

/-- A next state whose completion code is known. -/
theorem exists_of_after {o : Host.Outcome State Fault Refusal} {k : Completion}
    (h : after o (fun t => t.status.err) = some k) : ∃ t, o = .next t ∧ t.status.err = k := by
  cases o with
  | next t => exact ⟨t, rfl, by simpa [after] using h⟩
  | fault f => simp [after] at h
  | refused r => simp [after] at h

/-- The levels driven on L_DATA. -/
def dataBits (tr : List Event) : List Bool :=
  tr.filterMap fun e => match e with | .drive .lData v => some v | _ => none

/-- The levels driven on SR_DATA. -/
def srBits (tr : List Event) : List Bool :=
  tr.filterMap fun e => match e with | .drive .srData v => some v | _ => none

/-! ## The assembler's checks (R60): an ill-formed line for each, refused; the largest operand that fits, accepted -/

theorem test_wf_refuses_cap : assemble (.srConfig 65536 .natural .base) = none := by decide
theorem test_wf_refuses_bit : assemble (.srLoad 2) = none := by decide
theorem test_wf_refuses_pulse : assemble (.linkConfig 16777216) = none := by decide
theorem test_wf_refuses_txByte : assemble (.linkTx 256) = none := by decide
theorem test_wf_refuses_writeIndex : assemble (.cmdWrite .ram 32 0) = none := by decide
theorem test_wf_refuses_writeByte : assemble (.cmdWrite .ram 0 256) = none := by decide
theorem test_wf_refuses_readIndex : assemble (.cmdRead .rtc 32) = none := by decide
theorem test_wf_refuses_writeRamIndex : assemble (.writeRam 32 0) = none := by decide
theorem test_wf_refuses_writeRamByte : assemble (.writeRam 0 256) = none := by decide
theorem test_wf_refuses_readRamIndex : assemble (.readRam 32) = none := by decide
theorem test_wf_refuses_writeRtcIndex : assemble (.writeRtc 32 0) = none := by decide
theorem test_wf_refuses_writeRtcByte : assemble (.writeRtc 0 256) = none := by decide
theorem test_wf_refuses_readRtcIndex : assemble (.readRtc 32) = none := by decide
/-- R60: capacity 0 is not rejected; R61's example; E12's and E15's operands at the top of their fields. -/
theorem test_wf_accepts :
    assemble (.srConfig 0 .natural .base) = some (.word 0x00000001) ∧
      assemble (.linkConfig 0) = some (.word 0x00000010) ∧
      assemble (.linkConfig 16777215) = some (.word 0xFFFFFF10) ∧
      assemble (.srConfig 65535 .inverse .ordered) = some (.word 0x03FFFF01) ∧
      assemble (.writeRam 5 0x2A) = some (.word 0x01052A20) ∧ assemble (.readRtc 2) = some (.word 0x00020021) ∧
      assemble (.writeRtc 31 255) = some (.word 0x001FFF20) ∧ assemble (.readRam 31) = some (.word 0x011F0021) := by
  decide

/-! ## Words of the spec, for every constructor (R55, R57, R62, and the examples of the operations' rules) -/

theorem test_decode_srConfig : decodeWord 0x02000801 = .ok (.srConfig 8 .natural .ordered) := by decide
theorem test_decode_srConfig_mode : decodeWord 0x01000401 = .ok (.srConfig 4 .inverse .base) := by decide
theorem test_decode_srLoad : decodeWord 0x00000102 = .ok (.srLoad true) := by decide
theorem test_decode_srCommit : decodeWord 0x00000003 = .ok .srCommit := by decide
theorem test_decode_srClear : decodeWord 0x00000004 = .ok .srClear := by decide
theorem test_decode_srIsfull : decodeWord 0x00000005 = .ok .srIsfull := by decide
theorem test_decode_linkConfig : decodeWord 0x0003E810 = .ok (.linkConfig 1000) := by decide
theorem test_decode_linkEnable : decodeWord 0x00000011 = .ok .linkEnable := by decide
theorem test_decode_linkDisable : decodeWord 0x00000012 = .ok .linkDisable := by decide
theorem test_decode_linkTx : decodeWord 0x0000CA13 = .ok (.linkTx 0xCA) := by decide
theorem test_decode_linkRx : decodeWord 0x00000014 = .ok .linkRx := by decide
theorem test_decode_linkIsen : decodeWord 0x00000015 = .ok .linkIsen := by decide
theorem test_decode_cmdWrite : decodeWord 0x01052A20 = .ok (.cmdWrite .ram 5 0x2A) := by decide
theorem test_decode_cmdRead : decodeWord 0x00020021 = .ok (.cmdRead .rtc 2) := by decide
theorem test_decode_errClear : decodeWord 0x00000030 = .ok .errClear := by decide
/-- R62, bit by bit: 1, CLASS 1, INDEX 00101, RW 0. -/
theorem test_decode_cmdbyteWriteRam : decodeWire 0b11001010 = .ok (.cmdbyteWriteRam 5) := by decide
theorem test_decode_cmdbyteReadRam : decodeWire 0b11111111 = .ok (.cmdbyteReadRam 31) := by decide
theorem test_decode_cmdbyteWriteRtc : decodeWire 0b10111110 = .ok (.cmdbyteWriteRtc 31) := by decide
theorem test_decode_cmdbyteReadRtc : decodeWire 0b10000101 = .ok (.cmdbyteReadRtc 2) := by decide
/-- Bytes in memory order, lowest lane first (R39). -/
theorem test_decode_bytes : decodeBytes [0x20, 0x2A, 0x05, 0x01] = .ok (.cmdWrite .ram 5 0x2A) := by decide
theorem test_decode_lengths : decodeBytes [0x03, 0x00] = .error (.wrongLength 2) := by decide
/-- E1 to E3 of 95_test_vectors.md: opcode bytes of no row. -/
theorem test_decode_unlisted :
    decodeWord 0x00000000 = .error (.unlistedOpcode 0) ∧ decodeWord 0x00000006 = .error (.unlistedOpcode 6) ∧
      decodeWord 0x000000FF = .error (.unlistedOpcode 0xFF) := by decide
/-- E4 to E10 of 95_test_vectors.md: a reserved bit set. -/
theorem test_decode_reserved :
    decodeWord 0x00000203 = .error (.reservedBitSet 0x03 0x00000203) ∧
      decodeWord 0x00000202 = .error (.reservedBitSet 0x02 0x00000202) ∧
      decodeWord 0x04000001 = .error (.reservedBitSet 0x01 0x04000001) ∧
      decodeWord 0x00010013 = .error (.reservedBitSet 0x13 0x00010013) ∧
      decodeWord 0x00200020 = .error (.reservedBitSet 0x20 0x00200020) ∧
      decodeWord 0x02000020 = .error (.reservedBitSet 0x20 0x02000020) ∧
      decodeWord 0x00000121 = .error (.reservedBitSet 0x21 0x00000121) := by decide
theorem test_decode_notACommandByte : decodeWire 0x7F = .error (.notACommandByte 0x7F) := by decide

/-! ## Single steps against the vectors of 95_test_vectors.md -/

/-- E14. -/
theorem test_srConfig_E14 :
    after (exec (.srConfig 1 .natural .base) (fresh 0)) State.statusWord = some 0x00010100 := by decide
/-- S2. -/
theorem test_srConfig_S2 :
    after (exec (.srConfig 0 .natural .base) (fresh 0)) State.statusWord = some 0x00000022 := by decide
/-- S3. -/
theorem test_srLoad_S3 :
    after (exec (.srLoad true) (base4 4 (fresh 3))) State.statusWord = some 0x00030100 := by decide
/-- S8, and R119: the attached register, known before, is unknown after the fault. -/
theorem test_srLoad_S8 :
    after (exec (.srLoad true) (base4 4 (register 1 (fresh 3 [1])))) (fun t => (t.statusWord, t.trace, t.env.sipo)) =
      some (0x00044143, [.drive .srData true, .fail .srClk], { stage := [.x], outs := [.x] }) := by decide
/-- S14. -/
theorem test_srCommit_S14 :
    after (exec .srCommit (ordered3 .natural [true, false, false] (fresh 11)))
      (fun t => (srBits t.trace, t.statusWord)) = some ([false, false, true], 0x00030100) := by decide
/-- S10, and R119: the attached register, known before, is unknown after the fault. -/
theorem test_srCommit_S10 :
    after (exec .srCommit (base4 3 (register 2 (fresh 2 [0]))))
      (fun t => (t.trace, t.sr.brem, t.pins.srLatch, t.env.sipo)) =
      some ([.fail .srLatch], 4, .x, { stage := [.x, .x], outs := [.x, .x] }) := by decide
/-- S6. -/
theorem test_srClear_S6 :
    after (exec .srClear (base4 4 (register 4 (fresh 14)))) (fun t => (t.env.sipo.outs, t.statusWord)) =
      some (List.replicate 4 .low, 0x00040100) := by decide
/-- S13. -/
theorem test_srClear_S13 :
    after (exec .srClear (base4 3 (fresh 14))) State.statusWord = some 0x00030122 := by decide
/-- S19. -/
theorem test_srIsfull_S19 : after (exec .srIsfull (base4 0 (fresh 0))) State.result = some (some 1) := by decide
/-- S20. -/
theorem test_srIsfull_S20 :
    after (exec .srIsfull (fresh 0)) (fun t => (t.result, t.status.err)) = some (none, .precond) := by decide
/-- L5. -/
theorem test_linkConfig_L5 :
    after (exec (.linkConfig 500) (session (fresh 0))) (fun t => (t.statusWord, t.link.pulse)) =
      some (0x00000622, 1000) := by decide
/-- E12. -/
theorem test_linkConfig_E12 :
    after (exec (.linkConfig 16777215) (fresh 0)) State.linkcfgWord = some 0x00FFFFFF := by decide
/-- L3. -/
theorem test_linkEnable_L3 :
    after (exec .linkEnable (link (fresh 2))) State.statusWord = some 0x00000600 := by decide
/-- L15. -/
theorem test_linkEnable_L15 :
    after (exec .linkEnable (link (fresh 3 [1]))) (fun t => (t.statusWord, t.trace)) =
      some (0x00000243, [.drive .lClk false, .wait 1000, .fail .lCe, .drive .lCe false, .wait 1000]) := by decide
/-- L13. -/
theorem test_linkDisable_L13 :
    after (exec .linkDisable (session (fresh 1))) State.statusWord = some 0x00000200 := by decide
/-- L8. -/
theorem test_linkTx_L8 :
    after (exec (.linkTx 0xCA) (session (fresh 25))) (fun t => (t.statusWord, dataBits t.trace)) =
      some (0x00001600, [false, true, false, true, false, false, true, true]) := by decide
/-- L17. -/
theorem test_linkTx_L17 :
    after (exec (.linkTx 1) (session (fresh 2 [0, 1]))) State.statusWord = some 0x00006643 := by decide
/-- L10: samples 1,0,1,0,0,1,0,0. -/
theorem test_linkRx_L10 :
    after (exec .linkRx (session (fresh 25 [] [1, 7, 16]))) (fun t => (t.result, t.statusWord)) =
      some (some 0x25, 0x00000600) := by decide
/-- L18. -/
theorem test_linkRx_L18 :
    after (exec .linkRx (session (fresh 3 [1]))) (fun t => (t.result, t.link.te, t.trace)) =
      some (none, false, [.dir .input, .fail .lData, .drive .lCe false, .wait 1000]) := by decide
/-- L19. -/
theorem test_linkIsen_L19 : after (exec .linkIsen (link (fresh 0))) State.result = some (some 0) := by decide
/-- CC2. -/
theorem test_cmdWrite_CC2 :
    after (exec (.cmdWrite .ram 5 0x2A) (link (fresh 53))) (fun t => (t.statusWord, t.link.te, t.link.dout)) =
      some (0x00001200, false, .low) := by decide
/-- CC5. -/
theorem test_cmdWrite_CC5 :
    after (exec (.cmdWrite .ram 5 0x2A) (link (fresh 53 [52]))) State.statusWord = some 0x00005643 := by decide
/-- The read of P2, with register 5 holding 0x2A. -/
theorem test_cmdRead_P2 :
    after (exec (.cmdRead .ram 5)
        { link (fresh 53) with
          env := { (fresh 53).env with
            link := .ramchip { ram := (List.replicate 32 0).set 5 0x2A, phase := .idle, bits := [] } } })
      State.result = some (some 0x2A) := by decide
/-- CC6. -/
theorem test_cmdRead_CC6 :
    after (exec (.cmdRead .ram 0) (link (fresh 53 [52]))) (fun t => (t.result, t.status.err)) =
      some (none, .ioFault) := by decide
/-- X3: SR_CLK stays X. -/
theorem test_errClear_X3 :
    after (exec .errClear
        { base4 4 (fresh 0) with
          pins := { Pins.reset with srClk := .x }, status := { StatusBits.reset with err := .ioFault, seIo := true } })
      State.statusWord = some 0x00044100 := by decide
/-- 0xCA on the wire, least significant bit first (R49). -/
theorem test_cmdbyteWriteRam_bits :
    after (exec (.cmdbyteWriteRam 5) (session (fresh 25))) (fun t => dataBits t.trace) =
      some [false, true, false, true, false, false, true, true] := by decide
/-- 0xCB (E17). -/
theorem test_cmdbyteReadRam_bits :
    after (exec (.cmdbyteReadRam 5) (session (fresh 25))) (fun t => dataBits t.trace) =
      some [true, true, false, true, false, false, true, true] := by decide
/-- 0xBE (E15). -/
theorem test_cmdbyteWriteRtc_bits :
    after (exec (.cmdbyteWriteRtc 31) (session (fresh 25))) (fun t => dataBits t.trace) =
      some [false, true, true, true, true, true, false, true] := by decide
/-- 0x85 (CC3). -/
theorem test_cmdbyteReadRtc_bits :
    after (exec (.cmdbyteReadRtc 2) (session (fresh 25))) (fun t => dataBits t.trace) =
      some [true, false, true, false, false, false, false, true] := by decide
/-- E1: from reset, an illegal word changes nothing but STATUS. -/
theorem test_step_illegal_E1 :
    after (step (State.reset.withFetchWord 32 0)) State.statusWord = some 0x00000011 := by decide
/-- The opcode table's words are what the next step runs. -/
theorem test_step_runs_table_words :
    after (step (State.reset.withFetchWord 32 0x00001001)) State.statusWord = some 0x00100100 ∧
      after (step (State.reset.withFetchWord 8 0x10)) State.statusWord = some 0x00000022 ∧
      after (step (State.reset.withFetchWord 8 0xC0)) State.statusWord = some 0x00000022 ∧
      decodeTableWord 8 0xC0 = some (.cmdbyteWriteRam 0) ∧ decodeTableWord 8 0x10 = some (.linkConfig 0) := by
  decide

/-! ## Witnesses: for each obligation with hypotheses, a state and operands that meet them together -/

/-- The premise on the environment for a state whose script has the draws. -/
theorem quiet {s : State} {n : Nat}
    (h : ∀ j < n, (s.env.script[s.accesses + j]?).map Draw.fail = some false) : s.Quiet n := Quiet_of_script h

/-- A state whose oldest waiting input is `i`. -/
def waiting (i : Input) (s : State) : State := s.withHost [i, .access (.read 4 4)]

theorem test_witness_DecodedCodeIsTheEncoding :
    (∃ w i, decodeWord w = .ok i) ∧ ∃ b i, decodeWire b = .ok i :=
  ⟨⟨0x01052A20, .cmdWrite .ram 5 0x2A, by decide⟩, ⟨0xFE, .cmdbyteWriteRam 31, by decide⟩⟩

theorem test_witness_IssuedWordRunsItsRowOrIsIllegal :
    (∃ w : Word, ∃ r ∈ opTable, w &&& r.mask = r.pattern) ∧ ∃ w : Word, ∀ r ∈ opTable, w &&& r.mask ≠ r.pattern := by
  refine ⟨⟨0x03FFFF01, opTable[0], List.getElem_mem (by decide), by decide⟩, ⟨0x00000203, ?_⟩⟩
  simp only [opTable, List.mem_cons, List.not_mem_nil, or_false, forall_eq_or_imp, forall_eq]
  decide

theorem test_witness_CommandByteHasItsFields :
    ∃ c r i c' r' i', cmdByte c r i = cmdByte c' r' i' := ⟨.ram, .read, 31, .ram, .read, 31, rfl⟩

theorem test_witness_AssemblerChecksAndExpands :
    ∃ cap ns index byte : Nat, cap ≤ 65535 ∧ ns ≤ 16777215 ∧ index ≤ 31 ∧ byte ≤ 255 :=
  ⟨65535, 16777215, 31, 255, by decide⟩

theorem test_witness_StepRunsTheDecodedInstruction :
    (∃ s rest i, State.host s = .access (.write s.params.base 4 0x00001001) :: rest ∧ decodeWord 0x00001001 = .ok i) ∧
      (∃ s rest e, State.host s = .access (.write s.params.base 4 0x00000203) :: rest ∧
        decodeWord 0x00000203 = .error e) ∧
      (∃ s rest i, State.host s = .wireByte 0xCA :: rest ∧ decodeWire 0xCA = .ok i) ∧
      (∃ i, decodeTableWord 32 0x01052A20 = some i) ∧ ∃ i, decodeTableWord 8 0x85 = some i :=
  ⟨⟨waiting (.access (.write 0 4 0x00001001)) (fresh 0), _, .srConfig 16 .natural .base, rfl, by decide⟩,
    ⟨waiting (.access (.write 0 4 0x00000203)) (fresh 0), _, .reservedBitSet 0x03 0x00000203, rfl, by decide⟩,
    ⟨waiting (.wireByte 0xCA) (fresh 0), _, .cmdbyteWriteRam 5, rfl, by decide⟩,
    ⟨.cmdWrite .ram 5 0x2A, by decide⟩, ⟨.cmdbyteReadRtc 2, by decide⟩⟩

theorem test_witness_StepWithNothingWaitingHolds : (fresh 0).host = [] := rfl

/-- Each port, the reserved ones at both ends of their range, with the value it answers. -/
theorem test_witness_PortReadAnswersAndChangesNothing :
    ∀ off ∈ [0x00, 0x04, 0x08, 0x0C, 0x10, 0x14, 0x3C],
      let s := waiting (.access (.read off 4)) { session (fresh 0) with result := some 7 }
      let v := readPort (portAt off) s
      s.host = [.access (.read (s.params.base + off) 4), .access (.read 4 4)] ∧
        (off = 0x00 ∧ v = 0 ∨ off = 0x04 ∧ v = s.statusWord ∨ off = 0x08 ∧ s.result = some v ∨
          off = 0x0C ∧ v = s.srcfgWord ∨ off = 0x10 ∧ v = s.linkcfgWord ∨
          0x14 ≤ off ∧ off ≤ 0x3C ∧ off % 4 = 0 ∧ v = 0) := by
  decide

theorem test_witness_UnwrittenResultReadIsAFreeValue :
    ∃ s rest, State.host s = .access (.read (s.params.base + 0x08) 4) :: rest ∧ s.result = none :=
  ⟨waiting (.access (.read 8 4)) (fresh 0), _, rfl, rfl⟩

theorem test_witness_WriteToOtherPortIsIgnored :
    ∀ off ∈ [0x04, 0x08, 0x0C, 0x10, 0x14, 0x3C],
      (waiting (.access (.write off 4 0xFFFFFFFF)) (fresh 0)).host =
          [.access (.write ((fresh 0).params.base + off) 4 0xFFFFFFFF), .access (.read 4 4)] ∧
        0x04 ≤ off ∧ off ≤ 0x3C ∧ off % 4 = 0 := by
  decide

theorem test_witness_UndefinedAccessIsRefused :
    (∃ s rest, State.host s = .access (.read (s.params.base + 63) 4) :: rest ∧ 63 < 64 ∧ (4 ≠ 4 ∨ 63 % 4 ≠ 0)) ∧
      (∃ s rest, State.host s = .access (.write (s.params.base + 0) 2 1) :: rest ∧ 0 < 64 ∧ (2 ≠ 4 ∨ 0 % 4 ≠ 0)) ∧
      (∃ s rest, State.host s = .access (.fetch (s.params.base + 0)) :: rest) ∧
      ∃ s rest, State.host s = .secondHost (.read 4 4) :: rest :=
  ⟨⟨waiting (.access (.read 63 4)) (fresh 0), _, rfl, by decide⟩,
    ⟨waiting (.access (.write 0 2 1)) (fresh 0), _, rfl, by decide⟩,
    ⟨waiting (.access (.fetch 0)) (fresh 0), _, rfl⟩, ⟨waiting (.secondHost (.read 4 4)) (fresh 0), _, rfl⟩⟩

/-- RST alone, with RAMCHIP attached, and RST that abandons an operation. -/
theorem test_witness_RstResetsTheBlock :
    (∃ s draws rest c, State.host s = .rst none draws :: rest ∧ s.env.link = .ramchip c) ∧
      ∃ s draws rest, State.host s = .rst (some 0x0000CA13) draws :: rest :=
  ⟨⟨waiting (.rst none []) (ramchip (session (fresh 0))), [], _, _, rfl, rfl⟩,
    ⟨waiting (.rst (some 0x0000CA13) []) (session (fresh 0)), [], _, rfl⟩⟩

theorem test_witness_OnlyConfigurationSucceedsAfterReset : ∃ w e, decodeWord w = .error e :=
  ⟨0x00000000, .unlistedOpcode 0, by decide⟩

/-- The smallest and the largest legal capacity, and an illegal one on each side. -/
theorem test_witness_SrConfigConfigures :
    let p := { Params.reference with capMax := 4 }
    let s : State := { fresh 0 with params := p }
    (1 ≤ (1 : BitVec 16).toNat ∧ (1 : BitVec 16).toNat ≤ s.params.capMax) ∧
      (1 ≤ (4 : BitVec 16).toNat ∧ (4 : BitVec 16).toNat ≤ s.params.capMax) ∧ (0 : BitVec 16) = 0 ∧
      s.params.capMax < (5 : BitVec 16).toNat := by
  decide

theorem test_witness_SrLoadBuffersInOrderedPersonality :
    ∃ s : State, s.sr.cfg = true ∧ s.sr.ord = .ordered ∧ 0 < s.sr.orem.toNat :=
  ⟨ordered3 .natural [true, false] (fresh 0), rfl, rfl, by decide⟩

/-- The last free bit, and SR_CLK at each level. -/
theorem test_witness_SrLoadShiftsOutInBasePersonality :
    ∀ l : Level, ∃ s : State,
      s.sr.cfg = true ∧ s.sr.ord = .base ∧ 0 < s.sr.brem.toNat ∧ s.Quiet 3 ∧ s.pins.srClk = l :=
  fun l => ⟨{ base4 1 (fresh 3) with pins := { Pins.reset with srClk := l } }, rfl, rfl, by cases l <;> decide,
    quiet (by decide : ∀ j < 3, ((draws 3 [] [])[0 + j]?).map Draw.fail = some false), rfl⟩

theorem test_witness_SrLoadRefusedWhenUnconfiguredOrFull :
    (fresh 0).sr.cfg = false ∧ (base4 0 (fresh 0)).sr.cfg = true ∧ (base4 0 (fresh 0)).sr.rem = 0 ∧
      (ordered3 .natural [true, true, true] (fresh 0)).sr.rem = 0 := by
  decide

/-- A failure at the first, the second and the third drive. -/
theorem test_witness_SrLoadFailureLeavesTheFailedPinUnknown :
    (∃ s b, State.sr s = (base4 4 (fresh 0)).sr ∧ (b = true ∨ b = false) ∧ s.env.ioFail s.accesses s.trace = true) ∧
      (∃ s b, State.sr s = (base4 4 (fresh 0)).sr ∧ s.env.ioFail s.accesses s.trace = false ∧
        s.env.ioFail (s.accesses + 1) (s.trace ++ [.drive .srData b]) = true) ∧
      ∃ s b, State.sr s = (base4 4 (fresh 0)).sr ∧ s.env.ioFail s.accesses s.trace = false ∧
        s.env.ioFail (s.accesses + 1) (s.trace ++ [.drive .srData b]) = false ∧
        s.env.ioFail (s.accesses + 2)
          (s.trace ++ [.drive .srData b, .drive .srClk true, .wait s.params.srPulseNs]) = true :=
  ⟨⟨base4 4 (fresh 3 [0]), true, rfl, .inl rfl, by decide⟩, ⟨base4 4 (fresh 3 [1]), true, rfl, by decide, by decide⟩,
    ⟨base4 4 (fresh 3 [2]), false, rfl, by decide, by decide, by decide⟩⟩

/-- Nothing loaded, part loaded and full, and SR_LATCH at each level. -/
theorem test_witness_SrCommitLatchesInBasePersonality :
    ∀ l : Level, ∀ rem ∈ [(0 : BitVec 16), 1, 4], ∃ s : State,
      s.sr.cfg = true ∧ s.sr.ord = .base ∧ s.sr.brem = rem ∧ s.Quiet 2 ∧ s.pins.srLatch = l :=
  fun l rem _ => ⟨{ base4 rem (fresh 2) with pins := { Pins.reset with srLatch := l } }, rfl, rfl, rfl,
    quiet (by decide : ∀ j < 2, ((draws 2 [] [])[0 + j]?).map Draw.fail = some false), rfl⟩

theorem test_witness_SrCommitReplaysInOrderedPersonality :
    ∀ m : BitOrder, ∃ s : State, s.sr.cfg = true ∧ s.sr.ord = .ordered ∧ s.sr.orem = 0 ∧ s.sr.mode = m ∧
      s.sr.buf = [true, false, false] ∧ s.Quiet (3 * s.sr.buf.length + 2) :=
  fun m => ⟨ordered3 m [true, false, false] (fresh 11), rfl, rfl, by cases m <;> decide, rfl, rfl,
    quiet (by decide : ∀ j < 11, ((draws 11 [] [])[0 + j]?).map Draw.fail = some false)⟩

theorem test_witness_SrCommitRefusedWhenUnconfiguredOrNotFull :
    (fresh 0).sr.cfg = false ∧ (ordered3 .natural [true] (fresh 0)).sr.ord = .ordered ∧
      (ordered3 .natural [true] (fresh 0)).sr.orem ≠ 0 := by
  decide

/-- A commit whose latch drive fails, an ordered replay whose data drive fails, a clear whose clock drive fails. -/
theorem test_witness_SrFailureResetsTheCounters :
    (∃ t, exec .srCommit (base4 3 (fresh 2 [0])) = .next t ∧ t.status.err = .ioFault) ∧
      (∃ t, exec .srCommit (ordered3 .inverse [true, false, true] (fresh 11 [3])) = .next t ∧
        t.status.err = .ioFault) ∧
      ∃ t, exec .srClear (base4 4 (fresh 14 [4])) = .next t ∧ t.status.err = .ioFault :=
  ⟨exists_of_after (by decide), exists_of_after (by decide), exists_of_after (by decide)⟩

/-- The counters of the test engines meet what SR.CONFIG and the operations keep. -/
theorem srInv_base4 {rem : BitVec 16} (s : State) (h : rem.toNat ≤ 4) (hp : 4 ≤ s.params.capMax) :
    SrInv (base4 rem s).params (base4 rem s).sr where
  unconfigured h := nomatch h
  capLegal _ := ⟨by simp [base4], hp⟩
  bremLe := h
  oremLe := by simp [base4]
  base _ := ⟨rfl, rfl⟩
  ordered h := nomatch h

theorem srInv_ordered3 (m : BitOrder) (s : State) (hp : 3 ≤ s.params.capMax) :
    SrInv (ordered3 m [] s).params (ordered3 m [] s).sr where
  unconfigured h := nomatch h
  capLegal _ := ⟨by simp [ordered3], hp⟩
  bremLe := by simp [ordered3]
  oremLe := by simp [ordered3]
  base h := nomatch h
  ordered _ := ⟨rfl, by simp [ordered3]⟩

/-- Either personality, with a register shorter than the capacity. -/
theorem test_witness_SrClearDrivesEveryOutputLow :
    (∃ s : State, SrInv s.params s.sr ∧ s.sr.cfg = true ∧ s.sr.ord = .base ∧ s.sr.rem = s.sr.cap ∧
      s.Quiet (3 * s.sr.cap.toNat + 2) ∧ s.pins.srClk = .low ∧ s.pins.srLatch = .low ∧
      s.env.sipo.stage.length ≤ s.sr.cap.toNat) ∧
      ∃ s : State, SrInv s.params s.sr ∧ s.sr.cfg = true ∧ s.sr.ord = .ordered ∧ s.sr.rem = s.sr.cap ∧
        s.Quiet (3 * s.sr.cap.toNat + 2) :=
  ⟨⟨base4 4 (register 3 (fresh 14)), srInv_base4 _ (by decide) (by decide), rfl, rfl, by decide,
      quiet (by decide : ∀ j < 14, ((draws 14 [] [])[0 + j]?).map Draw.fail = some false), rfl, rfl, by decide⟩,
    ⟨ordered3 .inverse [] (fresh 11), srInv_ordered3 _ _ (by decide), rfl, rfl, by decide,
      quiet (by decide : ∀ j < 11, ((draws 11 [] [])[0 + j]?).map Draw.fail = some false)⟩⟩

theorem test_witness_SrClearRefusedWhenUnconfiguredOrNotEmpty :
    (fresh 0).sr.cfg = false ∧ (base4 3 (fresh 0)).sr.rem ≠ (base4 3 (fresh 0)).sr.cap := by
  decide

theorem test_witness_SrIsfullReports :
    (base4 0 (fresh 0)).sr.cfg = true ∧ (base4 0 (fresh 0)).sr.rem = 0 ∧ (base4 1 (fresh 0)).sr.rem ≠ 0 ∧
      (fresh 0).sr.cfg = false := by
  decide

theorem test_witness_ModeHasNoEffectInBasePersonality :
    ∀ i ∈ [Instr.srLoad true, .srLoad false, .srCommit, .srClear, .srIsfull],
      (base1 (fresh 5)).sr.ord = .base ∧ after (exec i (base1 (fresh 5))) (fun t => t.status.err) = some .ok := by
  decide

theorem test_witness_DrainOrderOfAnOrderedCycle :
    ∀ m : BitOrder, ∃ s : State, s.sr.cfg = true ∧ s.sr.ord = .ordered ∧ s.sr.orem = s.sr.cap ∧ s.sr.buf = [] ∧
      s.sr.mode = m ∧ [true, false, false].length = s.sr.cap.toNat ∧ s.Quiet (3 * s.sr.cap.toNat + 2) :=
  fun m => ⟨ordered3 m [] (fresh 11), rfl, rfl, by cases m <;> decide, rfl, rfl, by cases m <;> decide,
    quiet (by decide : ∀ j < 11, ((draws 11 [] [])[0 + j]?).map Draw.fail = some false)⟩

/-- An ordered cycle, and base loads of one bit and of as many as fit. -/
theorem test_witness_OutputPositions :
    (∃ s : State, s.sr.cfg = true ∧ s.sr.ord = .ordered ∧ s.sr.orem = s.sr.cap ∧ s.sr.buf = [] ∧
      [true, false, false].length = s.sr.cap.toNat ∧ s.env.sipo.stage.length = s.sr.cap.toNat ∧
      s.pins.srClk = .low ∧ s.pins.srLatch = .low ∧ s.Quiet (3 * s.sr.cap.toNat + 2)) ∧
      ∀ cs ∈ [[true], [true, true, false, false]], ∃ s : State, s.sr.cfg = true ∧ s.sr.ord = .base ∧
        1 ≤ cs.length ∧ cs.length ≤ s.sr.brem.toNat ∧ s.sr.brem.toNat ≤ s.sr.cap.toNat ∧
        s.env.sipo.stage.length = s.sr.cap.toNat ∧ s.pins.srClk = .low ∧ s.pins.srLatch = .low ∧
        s.Quiet (3 * cs.length + 2) := by
  have q : ∀ n ≤ 14, (base4 4 (register 4 (fresh 14))).Quiet n := fun n hn =>
    Quiet_mono (quiet (by decide : ∀ j < 14, ((draws 14 [] [])[0 + j]?).map Draw.fail = some false)) hn
  refine ⟨⟨ordered3 .natural [] (register 3 (fresh 11)), rfl, rfl, by decide, rfl, by decide, by decide, rfl, rfl,
    quiet (by decide : ∀ j < 11, ((draws 11 [] [])[0 + j]?).map Draw.fail = some false)⟩, ?_⟩
  intro cs hcs
  simp only [List.mem_cons, List.not_mem_nil, or_false] at hcs
  rcases hcs with rfl | rfl
  · exact ⟨base4 4 (register 4 (fresh 14)), rfl, rfl, by decide, by decide, by decide, by decide, rfl, rfl,
      q _ (by decide)⟩
  · exact ⟨base4 4 (register 4 (fresh 14)), rfl, rfl, by decide, by decide, by decide, by decide, rfl, rfl,
      q _ (by decide)⟩

theorem test_witness_LinkConfigSetsThePulse :
    (1 ≤ (1 : BitVec 24).toNat ∧ (fresh 0).link.te = false) ∧
      (1 ≤ (16777215 : BitVec 24).toNat ∧ (link (fresh 0)).link.te = false) ∧
      (session (fresh 0)).link.te = true := by
  decide

/-- Configured, in a session or not, with `n` accesses that succeed. -/
theorem quiet_link (n : Nat) (f : State → State) (hf : (f (fresh 110)).env.script = draws 110 [] [])
    (ha : (f (fresh 110)).accesses = 0) (hn : n ≤ 110) : (f (fresh 110)).Quiet n := by
  refine Quiet_mono (quiet ?_) hn
  rw [hf, ha]
  decide

theorem test_witness_LinkEnableOpensASession :
    (∃ s : State, s.link.cfg = true ∧ s.link.te = false ∧ s.Quiet 2) ∧
      ∃ s : State, s.link.cfg = true ∧ s.link.te = true ∧ s.Quiet 2 :=
  ⟨⟨link (fresh 110), rfl, rfl, quiet_link 2 link rfl rfl (by decide)⟩,
    ⟨session (fresh 110), rfl, rfl, quiet_link 2 session rfl rfl (by decide)⟩⟩

theorem test_witness_LinkDisableClosesTheSession :
    (∃ s : State, s.link.cfg = true ∧ s.link.te = true ∧ s.Quiet 1) ∧
      (∃ s : State, s.link.cfg = true ∧ s.link.te = true ∧ s.env.ioFail s.accesses s.trace = true) ∧
      ∃ s : State, s.link.cfg = false :=
  ⟨⟨session (fresh 110), rfl, rfl, quiet_link 1 session rfl rfl (by decide)⟩,
    ⟨session (fresh 1 [0]), rfl, rfl, by decide⟩, ⟨fresh 0, rfl⟩⟩

/-- LINK.TX and LINK.RX. -/
theorem test_witness_LinkTxSendsTheByte : ∃ s : State, s.link.cfg = true ∧ s.link.te = true ∧ s.Quiet 25 :=
  ⟨session (fresh 110), rfl, rfl, quiet_link 25 session rfl rfl (by decide)⟩

theorem test_witness_LinkOperationsNeedConfigurationAndSession :
    (fresh 0).link.cfg = false ∧ (link (fresh 0)).link.cfg = true ∧ (link (fresh 0)).link.te = false := by
  decide

/-- The first and the last sample of the byte are scripted. -/
theorem test_witness_LinkRxReceivesTheByte :
    ∃ s : State, s.link.cfg = true ∧ s.link.te = true ∧ s.Quiet 25 ∧ s.env.link = .free ∧
      (∃ d, s.env.script[s.accesses + 1 + 3 * 0]? = some d) ∧ ∃ d, s.env.script[s.accesses + 1 + 3 * 7]? = some d :=
  ⟨session (fresh 110), rfl, rfl, quiet_link 25 session rfl rfl (by decide), rfl, ⟨⟨false, false⟩, by decide⟩,
    ⟨⟨false, false⟩, by decide⟩⟩

theorem test_witness_LinkIsenReports :
    (link (fresh 0)).link.cfg = true ∧ (session (fresh 0)).link.cfg = true ∧ (fresh 0).link.cfg = false := by
  decide

/-- Each operation with a failing access: at its first one, inside the byte, and with the cleanup failing too. -/
theorem test_witness_FailedTransferClosesTheSession :
    (∃ t, exec .linkEnable (link (fresh 3 [1])) = .next t ∧ t.status.err = .ioFault) ∧
      (∃ t, exec (.linkTx 0xFF) (session (fresh 26 [4])) = .next t ∧ t.status.err = .ioFault) ∧
      (∃ t, exec .linkRx (session (fresh 26 [1, 2])) = .next t ∧ t.status.err = .ioFault) ∧
      ∃ t, exec (.cmdbyteReadRam 31) (session (fresh 26 [0])) = .next t ∧ t.status.err = .ioFault :=
  ⟨exists_of_after (by decide), exists_of_after (by decide), exists_of_after (by decide),
    exists_of_after (by decide)⟩

/-- CMD.WRITE, and the four-operation sequence; in a session and not. -/
theorem test_witness_CmdWriteIsOneTransaction :
    (∃ s : State, s.link.cfg = true ∧ s.link.te = false ∧ s.Quiet 53) ∧
      ∃ s : State, s.link.cfg = true ∧ s.link.te = true ∧ s.Quiet 53 :=
  ⟨⟨link (fresh 110), rfl, rfl, quiet_link 53 link rfl rfl (by decide)⟩,
    ⟨session (fresh 110), rfl, rfl, quiet_link 53 session rfl rfl (by decide)⟩⟩

theorem test_witness_CmdReadIsOneTransaction :
    ∃ s : State, s.link.cfg = true ∧ s.Quiet 53 ∧ s.env.link = .free ∧
      (∃ d, s.env.script[s.accesses + 28 + 3 * 0]? = some d) ∧ ∃ d, s.env.script[s.accesses + 28 + 3 * 7]? = some d :=
  ⟨link (fresh 110), rfl, quiet_link 53 link rfl rfl (by decide), rfl, ⟨⟨false, false⟩, by decide⟩,
    ⟨⟨false, false⟩, by decide⟩⟩

theorem test_witness_CmdOperationIsItsFourLinkOperations : ∃ s : State, s.link.cfg = true ∧ s.Quiet 53 :=
  ⟨session (fresh 110), rfl, quiet_link 53 session rfl rfl (by decide)⟩

/-- All accesses succeed, only the last drive fails, and the enable's drive of L_CE fails with the last. -/
theorem test_witness_CmdAlwaysReleasesChipEnable :
    ∀ fails ∈ [[], [52], [1, 2]], ∃ s i, State.env s = (fresh 53 fails).env ∧ s.link.cfg = true ∧
      ((∃ c n v, i = Instr.cmdWrite c n v) ∨ ∃ c n, i = .cmdRead c n) :=
  fun fails _ => ⟨link (fresh 53 fails), .cmdWrite .ram 31 0xFF, rfl, rfl, .inl ⟨_, _, _, rfl⟩⟩

theorem test_witness_CmdNeverCompletesNotReady :
    ∃ s i t, ((∃ c n v, i = Instr.cmdWrite c n v) ∨ ∃ c n, i = .cmdRead c n) ∧ exec i s = .next t := by
  obtain ⟨t, h, -⟩ := exists_of_after (o := exec (.cmdRead .rtc 2) (link (fresh 53))) (k := .ok) (by decide)
  exact ⟨_, _, t, .inr ⟨_, _, rfl⟩, h⟩

theorem test_witness_WireByteIsSentInAnOpenSession :
    ∃ s i c, State.link s = (session (fresh 0)).link ∧ s.link.cfg = true ∧ s.link.te = true ∧ s.Quiet 25 ∧
      encode i = .wire c :=
  ⟨session (fresh 110), .cmdbyteReadRtc 31, 0xBF, rfl, rfl, rfl, quiet_link 25 session rfl rfl (by decide), by decide⟩

/-- Operations that complete with each code they can complete with; the illegal word. -/
theorem test_witness_CompletionUpdatesTheStatus :
    (∃ t, exec .srIsfull (base4 0 (fresh 0)) = .next t ∧ t.status.err = .ok) ∧
      (∃ t, exec .srCommit (fresh 0) = .next t ∧ t.status.err = .precond) ∧
      (∃ t, exec .linkDisable (session (fresh 1 [0])) = .next t ∧ t.status.err = .ioFault) ∧
      (∃ t, exec .linkRx (link (fresh 0)) = .next t ∧ t.status.err = .notReady) ∧
      ∃ w e, decodeWord w = .error e :=
  ⟨exists_of_after (by decide), exists_of_after (by decide), exists_of_after (by decide),
    exists_of_after (by decide), ⟨0, .unlistedOpcode 0, by decide⟩⟩

theorem test_witness_PreconditionErrorsArePrecise :
    (∃ t, exec (.srLoad true) (base4 0 (fresh 0)) = .next t ∧ t.status.err = .precond) ∧
      ∃ t, exec (.linkTx 0x55) (link (fresh 0)) = .next t ∧ t.status.err = .notReady :=
  ⟨exists_of_after (by decide), exists_of_after (by decide)⟩

theorem test_witness_ResultIsWrittenOnlyOnSuccess :
    (∃ t, exec .linkIsen (session (fresh 0)) = .next t ∧ t.status.err = .ok) ∧
      (∃ t, exec .linkRx (session (fresh 26 [3])) = .next t ∧ t.status.err = .ioFault) ∧
      ∃ t, exec .linkEnable (link (fresh 2)) = .next t ∧ t.status.err = .ok :=
  ⟨exists_of_after (by decide), exists_of_after (by decide), exists_of_after (by decide)⟩

/-- A shift-register operation, a link operation and ERR.CLEAR; and one of each engine that fails. -/
theorem test_witness_EnginesShareNoState :
    (∃ t, exec .srCommit (ramchip (base4 2 (fresh 1 [0]))) = .next t ∧ t.status.err = .ioFault) ∧
      (∃ t, exec .linkDisable (session (register 2 (fresh 1 [0]))) = .next t ∧ t.status.err = .ioFault) ∧
      (∃ t, exec .srCommit (session (base4 2 (fresh 2))) = .next t ∧ t.status.err = .ok) ∧
      (∃ t, exec .linkDisable (session (base4 2 (fresh 1))) = .next t ∧ t.status.err = .ok) ∧
      ∃ t, exec .errClear (session (base4 2 (fresh 0))) = .next t ∧ t.status.err = .ok :=
  ⟨exists_of_after (by decide), exists_of_after (by decide), exists_of_after (by decide), exists_of_after (by decide), exists_of_after (by decide)⟩

/-- Also for the words of SRCFG and LINKCFG; and L_DATA in each of its three directions. -/
theorem test_witness_OnlyConfigurationOperationsConfigure :
    (∃ t, exec .linkEnable (link (base4 2 (fresh 2))) = .next t ∧ t.status.err = .ok) ∧
      (∃ t, exec (.linkConfig 500) (base4 2 (fresh 0)) = .next t ∧ t.status.err = .ok) ∧
      (∃ t, exec (.srConfig 1 .inverse .ordered) (link (fresh 0)) = .next t ∧ t.status.err = .ok) ∧
      ∀ d : DirState, ∃ s : State, s.link.dir = d :=
  ⟨exists_of_after (by decide), exists_of_after (by decide), exists_of_after (by decide),
    fun d => ⟨{ fresh 0 with link := { SerialLink.reset with dir := d } }, rfl⟩⟩

/-- Also for the timing table: a clear that completes with OK; a load and a transfer with RAMCHIP that fail. -/
theorem test_witness_OperationAppendsABoundedSegment :
    (∃ s t, SrInv s.params s.sr ∧ exec .srClear s = .next t ∧ t.status.err = .ok) ∧
      (∃ s t, SrInv s.params s.sr ∧ exec (.srLoad true) s = .next t ∧ t.status.err = .ioFault) ∧
      ∃ s t, SrInv s.params s.sr ∧ exec (.linkTx 1) s = .next t ∧ t.status.err = .ioFault := by
  obtain ⟨t, h, hk⟩ := exists_of_after (o := exec .srClear (base4 4 (fresh 14))) (k := .ok) (by decide)
  obtain ⟨u, k, hu⟩ := exists_of_after (o := exec (.srLoad true) (base4 4 (fresh 3 [2]))) (k := .ioFault) (by decide)
  obtain ⟨v, l, hv⟩ :=
    exists_of_after (o := exec (.linkTx 1) (base4 4 (ramchip (session (fresh 26 [5]))))) (k := .ioFault) (by decide)
  exact ⟨⟨_, t, srInv_base4 _ (by decide) (by decide), h, hk⟩, ⟨_, u, srInv_base4 _ (by decide) (by decide), k, hu⟩,
    ⟨_, v, srInv_base4 _ (by decide) (by decide), l, hv⟩⟩

/-- R119, each device: a failed link drive leaves the attached register unknown, and a failed drive of the shift register
leaves RAMCHIP unknown. -/
theorem test_fault_forgets_each_device :
    after (exec .linkDisable (session (register 2 (fresh 1 [0])))) (fun t => t.env.sipo) =
        some { stage := [.x, .x], outs := [.x, .x] } ∧
      after (exec .srCommit (base4 4 (ramchip (fresh 1 [0])))) (fun t => t.env.link) = some .free := by decide

/-- Words at the top of the fields that each row's mask leaves open. -/
theorem test_witness_WrittenOutWordsDecode :
    (0x00000102 &&& 0xFFFFFEFF : Word) = 0x00000002 ∧ (0x00000003 &&& 0xFFFFFFFF : Word) = 0x00000003 ∧
      (0x00000004 &&& 0xFFFFFFFF : Word) = 0x00000004 ∧ (0x00000011 &&& 0xFFFFFFFF : Word) = 0x00000011 ∧
      (0x0000FF13 &&& 0xFFFF00FF : Word) = 0x00000013 ∧ (0x00000014 &&& 0xFFFFFFFF : Word) = 0x00000014 ∧
      (0x011FFF20 &&& 0xFEE000FF : Word) = 0x00000020 ∧ (0x011F0021 &&& 0xFEE0FFFF : Word) = 0x00000021 := by decide

theorem test_witness_WireOrderInvariants :
    (∃ t, exec (.cmdRead .ram 5) (link (fresh 53)) = .next t ∧ t.status.err = .ok) ∧
      ∃ t, exec (.cmdWrite .ram 5 1) (link (fresh 53 [30])) = .next t ∧ t.status.err = .ioFault :=
  ⟨exists_of_after (by decide), exists_of_after (by decide)⟩

/-- A configured machine in a session, RAMCHIP attached, with an operation waiting, meets the invariant. -/
theorem test_witness_EveryStepKeepsTheInvariant :
    ∃ s t, State.Inv s ∧ step s = .next t ∧ t.status.err = .ok := by
  let s : State := waiting (.access (.write 0 4 0x00000004)) (ramchip (link (base4 4 (register 16 (fresh 14)))))
  obtain ⟨t, h, hk⟩ := exists_of_after (o := step s) (k := .ok) (by decide)
  refine ⟨s, t, ?_, h, hk⟩
  exact {
    params := by decide
    sr := srInv_base4 _ (by decide) (by decide)
    link := { unconfigured := fun h => (nomatch h), pulseLegal := fun _ => by decide, enabledCe := fun h => (nomatch h),
              ceEnabled := fun h => (nomatch h) }
    status := rfl
    counted := rfl
    lines := rfl
    ceSafe := fun before after h => by
      have : ([] : List Event) = before ++ .drive .lCe true :: after := h
      simp at this
    env := by decide }

/-- A read and a write of STATUS. -/
theorem test_witness_StatusWordFields :
    (∃ s rest, State.host s = .access (.read (s.params.base + 0x04) 4) :: rest) ∧
      ∃ s rest, State.host s = .access (.write (s.params.base + 0x04) 4 7) :: rest :=
  ⟨⟨waiting (.access (.read 4 4)) (fresh 0), _, rfl⟩, ⟨waiting (.access (.write 4 4 7)) (fresh 0), _, rfl⟩⟩

/-- A read and a write of SRCFG and of LINKCFG. -/
theorem test_witness_ConfigurationWords :
    (∃ s rest v, State.host s = .access (.read (s.params.base + 0x0C) 4) :: rest ∧ v = s.srcfgWord) ∧
      (∃ s rest, State.host s = .access (.write (s.params.base + 0x0C) 4 7) :: rest) ∧
      (∃ s rest v, State.host s = .access (.read (s.params.base + 0x10) 4) :: rest ∧ v = s.linkcfgWord) ∧
      ∃ s rest, State.host s = .access (.write (s.params.base + 0x10) 4 7) :: rest :=
  ⟨⟨waiting (.access (.read 12 4)) (base4 4 (fresh 0)), _, _, rfl, rfl⟩,
    ⟨waiting (.access (.write 12 4 7)) (fresh 0), _, rfl⟩,
    ⟨waiting (.access (.read 16 4)) (link (fresh 0)), _, _, rfl, rfl⟩,
    ⟨waiting (.access (.write 16 4 7)) (fresh 0), _, rfl⟩⟩

theorem test_witness_LoopbackRoundTrip :
    ∃ s l, State.link s = (session (fresh 0)).link ∧ s.link.cfg = true ∧ s.link.te = true ∧
      s.env.link = .loopback l ∧ s.Quiet 50 :=
  ⟨loopback (session (fresh 110)), _, rfl, rfl, rfl, rfl,
    quiet_link 50 (fun s => loopback (session s)) rfl rfl (by decide)⟩

theorem test_witness_RamChipReadsBackWhatWasWritten :
    ∃ s c, State.link s = (link (fresh 0)).link ∧ s.link.cfg = true ∧ s.env.link = .ramchip c ∧ c.ram.length = 32 ∧
      s.pins.lCe = .low ∧ s.Quiet 106 :=
  ⟨ramchip (link (fresh 110)), _, rfl, rfl, rfl, by decide, rfl,
    quiet_link 106 (fun s => ramchip (link s)) rfl rfl (by decide)⟩

end Sys2Proof.Tests
end

section
/-! SUPPORT. The port window seen from the host (R37 to R40): what one step does with a defined read, and with a defined
write of a port other than CMD. -/

namespace Sys2Proof.Machine

/-- A defined read of a port is answered by the very next step (R37, R38). -/
theorem step_read {s : State} {off : Nat} {rest : List Input} (hlt : off < 64) (hal : off % 4 = 0)
    (h : s.host = .access (.read (s.params.base + off) 4) :: rest) :
    step s = .next ((s.withHost rest).answerRead (portAt off)) := by
  simp [step, h, serve, serveAccess, Params.inWindow, Params.definedAccess, hlt, hal]

/-- A defined write of a port other than CMD does nothing but leave the queue (R37, R38). -/
theorem step_write_of_ne_cmd {s : State} {off : Nat} {rest : List Input} {v : Word} (hlt : off < 64)
    (hal : off % 4 = 0) (hcmd : portAt off ≠ .cmd)
    (h : s.host = .access (.write (s.params.base + off) 4 v) :: rest) : step s = .next (s.withHost rest) := by
  simp [step, h, serve, serveAccess, Params.inWindow, Params.definedAccess, hlt, hal]

/-- No port's word depends on what the host has waiting. -/
@[simp] theorem readPort_withHost (p : Port) (is : List Input) (s : State) :
    readPort p (s.withHost is) = readPort p s := by cases p <;> rfl

/-- A read of a port other than RESULT adds the port's word to the replies and does nothing else (R40). -/
theorem answerRead_of_ne_result {p : Port} (hp : p ≠ .result) (s : State) :
    s.answerRead p = { s with replies := s.replies ++ [readPort p s] } := by
  cases p with
  | result => exact absurd rfl hp
  | cmd | status | srcfg | linkcfg | reserved => rfl

/-- A defined read of a port other than RESULT hands over the port's word and changes nothing of the block (R40). -/
theorem step_read_of_ne_result {s : State} {off : Nat} {rest : List Input} (hlt : off < 64) (hal : off % 4 = 0)
    (hres : portAt off ≠ .result) (h : s.host = .access (.read (s.params.base + off) 4) :: rest) :
    step s = .next { s with host := rest, replies := s.replies ++ [readPort (portAt off) s] } := by
  rw [step_read hlt hal h, answerRead_of_ne_result hres, readPort_withHost]
  rfl

end Sys2Proof.Machine
end

section
/-! SUPPORT. The fields of the computed registers: STATUS (R28), SRCFG (R30) and LINKCFG (R31). -/

namespace Sys2Proof.Machine

/-! ### STATUS -/

/-- Codes 5 to 7 do not exist (R96). -/
theorem Completion.code_toNat_le (k : Completion) : k.code.toNat ≤ 4 := by cases k <;> decide

/-- FULL is configured with REM = 0 (R22). -/
theorem SrEngine.full_eq_decide (e : SrEngine) : e.full = decide (e.cfg = true ∧ e.rem = 0) := by
  cases h : e.cfg <;> simp [SrEngine.full, h, beq_eq_decide]

theorem SerialLink.dirOut_eq_decide (l : SerialLink) : l.dirOut = decide (l.dir = .output) := beq_eq_decide _ _

theorem SerialLink.dirUnknown_eq_decide (l : SerialLink) : l.dirUnknown = decide (l.dir = .x) := beq_eq_decide _ _

/-- PINX is one of the five output pins, or `link.dout`, at X (R28). -/
theorem pinUnknown_eq_decide (s : State) :
    s.pinUnknown = decide (s.pins.srData = .x ∨ s.pins.srClk = .x ∨ s.pins.srLatch = .x ∨ s.pins.lClk = .x ∨
      s.pins.lCe = .x ∨ s.link.dout = .x) := by
  simp [State.pinUnknown, beq_eq_decide, Bool.or_assoc]

/-- ERR is the low field of STATUS (R28). -/
theorem statusWord_err (s : State) : s.statusWord.extractLsb' 0 3 = s.status.err.code :=
  BitVec.extractLsb'_append_eq_right

/-- REM is the high half of STATUS (R28). -/
theorem statusWord_rem (s : State) : s.statusWord.extractLsb' 16 16 = s.sr.rem := by
  ext i hi
  simp only [State.statusWord, BitVec.getElem_extractLsb', BitVec.getLsbD_append]
  grind

/-- The single bits of STATUS, from bit 3 to bit 15 (R28). -/
theorem statusWord_bits (s : State) :
    s.statusWord.getLsbD 3 = false ∧ s.statusWord.getLsbD 4 = s.status.seIll ∧
      s.statusWord.getLsbD 5 = s.status.sePre ∧ s.statusWord.getLsbD 6 = s.status.seIo ∧
      s.statusWord.getLsbD 7 = s.status.seNr ∧ s.statusWord.getLsbD 8 = s.sr.cfg ∧
      s.statusWord.getLsbD 9 = s.link.cfg ∧ s.statusWord.getLsbD 10 = s.link.te ∧
      s.statusWord.getLsbD 11 = s.sr.full ∧ s.statusWord.getLsbD 12 = s.link.dirOut ∧
      s.statusWord.getLsbD 13 = s.link.dirUnknown ∧ s.statusWord.getLsbD 14 = s.pinUnknown ∧
      s.statusWord.getLsbD 15 = false := by
  simp only [State.statusWord, BitVec.getLsbD_append]
  simp

/-! ### SRCFG and LINKCFG -/

theorem srcfgWord_cap (s : State) : s.srcfgWord.extractLsb' 0 16 = if s.sr.cfg then s.sr.cap else 0 :=
  BitVec.extractLsb'_append_eq_right

theorem srcfgWord_mode (s : State) : s.srcfgWord.getLsbD 16 = s.sr.mode.toBit := by
  simp only [State.srcfgWord, BitVec.getLsbD_append]
  simp

theorem srcfgWord_ord (s : State) : s.srcfgWord.getLsbD 17 = s.sr.ord.toBit := by
  simp only [State.srcfgWord, BitVec.getLsbD_append]
  simp

theorem srcfgWord_reserved (s : State) : s.srcfgWord.extractLsb' 18 14 = 0 := by
  ext i hi
  simp only [State.srcfgWord, BitVec.getElem_extractLsb', BitVec.getLsbD_append]
  grind

theorem linkcfgWord_pulse (s : State) : s.linkcfgWord.extractLsb' 0 24 = if s.link.cfg then s.link.pulse else 0 :=
  BitVec.extractLsb'_append_eq_right

theorem linkcfgWord_reserved (s : State) : s.linkcfgWord.extractLsb' 24 8 = 0 :=
  BitVec.extractLsb'_append_eq_left

end Sys2Proof.Machine
end

section
/-! SUPPORT. Who writes the configuration (R30, R31): every operation but SR.CONFIG keeps the engine's configuration, and
every operation but LINK.CONFIG keeps the link's. -/

namespace Sys2Proof.Machine

/-- The engine's configuration is the same in both states: all of the engine that SRCFG shows (R30). -/
def SameSrConfig (s t : State) : Prop :=
  t.sr.cfg = s.sr.cfg ∧ t.sr.cap = s.sr.cap ∧ t.sr.ord = s.sr.ord ∧ t.sr.mode = s.sr.mode

/-- The link's configuration is the same in both states: all of the link that LINKCFG shows (R31). -/
def SameLinkConfig (s t : State) : Prop := t.link.cfg = s.link.cfg ∧ t.link.pulse = s.link.pulse

theorem SameSrConfig.srcfgWord_eq {s t : State} (h : SameSrConfig s t) : t.srcfgWord = s.srcfgWord := by
  obtain ⟨hcfg, hcap, hord, hmode⟩ := h
  simp only [State.srcfgWord, hcfg, hcap, hord, hmode]

theorem SameLinkConfig.linkcfgWord_eq {s t : State} (h : SameLinkConfig s t) : t.linkcfgWord = s.linkcfgWord := by
  obtain ⟨hcfg, hpulse⟩ := h
  simp only [State.linkcfgWord, hcfg, hpulse]

theorem SameSrConfig.of_sr_eq {s t : State} (h : t.sr = s.sr) : SameSrConfig s t := by simp [SameSrConfig, h]

theorem SameLinkConfig.of_link_eq {s t : State} (h : t.link = s.link) : SameLinkConfig s t := by
  simp [SameLinkConfig, h]

/-- A completion changes STATUS alone, so the body decides what becomes of the engine's configuration (R97). -/
theorem SameSrConfig.of_finish {s t : State} {r : Result Unit} (hr : SameSrConfig s r.state) (h : finish r = .next t) :
    SameSrConfig s t := by
  obtain ⟨k, hk⟩ := finish_next r
  obtain rfl : r.state.complete k = t := by simpa [hk] using h
  exact hr

/-! ### The shift-register engine -/

theorem srLoadBody_sameSrConfig (b : Bool) (s : State) : SameSrConfig s (srLoadBody b s).state := by
  obtain ⟨-, h⟩ | ⟨-, -, -, h | ⟨ev, -, h⟩⟩ | ⟨-, -, -, h⟩ := srLoadBody_outcomes b s <;> simp [h, SameSrConfig]

theorem srCommitBody_sameSrConfig (s : State) : SameSrConfig s (srCommitBody s).state := by
  obtain ⟨-, h⟩ | ⟨-, -, h | ⟨ev, -, h⟩⟩ | ⟨-, -, -, h | ⟨ev, -, h⟩⟩ := srCommitBody_outcomes s <;>
    simp [h, SameSrConfig]

theorem srClearBody_sameSrConfig (s : State) : SameSrConfig s (srClearBody s).state := by
  obtain ⟨-, h⟩ | ⟨-, -, bits, ⟨-, -, h⟩ | ⟨-, -, h⟩ | ⟨ev, -, h⟩⟩ := srClearBody_outcomes s <;>
    simp [h, SameSrConfig]

/-- SR.ISFULL leaves the engine alone (R70). -/
theorem execSrIsfull_sr {s t : State} (h : execSrIsfull s = .next t) : t.sr = s.sr := by
  cases hc : s.sr.cfg <;> simp [execSrIsfull, hc] at h <;> simp [← h]

/-- No operation of the engine touches the link (R43). -/
theorem exec_srOp_link {i : Instr} {s t : State} (hi : isSrOp i = true) (h : exec i s = .next t) : t.link = s.link := by
  obtain ⟨ev, sr, k, res, hk, hev, -⟩ := exec_srOp_outcome i s hi
  obtain rfl := Host.Outcome.next.inj (hk.symm.trans h)
  obtain ⟨-, hlink, -⟩ := performAll_srSide ev s hev
  exact hlink

/-! ### The link and the command codec -/

@[simp] theorem linkLeft_sr (s : State) (ev : List Event) (te : Bool) (res : Option Word) (k : Completion) :
    (linkLeft s ev te res k).sr = s.sr := performAll_sr s ev

theorem linkLeft_sameLinkConfig (s : State) (ev : List Event) (te : Bool) (res : Option Word) (k : Completion) :
    SameLinkConfig s (linkLeft s ev te res k) := ⟨performAll_linkCfg s ev, performAll_pulse s ev⟩

/-- LINK.ISEN sets RESULT or is refused (R85). -/
theorem execLinkIsen_linkLeft (s : State) : ∃ res k, execLinkIsen s = .next (linkLeft s [] s.link.te res k) := by
  unfold execLinkIsen
  cases s.link.cfg
  · exact ⟨_, .precond, by rw [require_false, finish_raised, linkLeft_nil]; rfl⟩
  · exact ⟨_, .ok, by rw [require_true, finish_done]; exact congrArg _ (linkLeft_of_result s [] .ok _)⟩

/-- What any operation of the link but LINK.CONFIG leaves: its events performed, transferEnabled and RESULT set, and the
completion. -/
theorem exec_linkOp_linkLeft {i : Instr} (s : State) (hi : isLinkOp i = true) (hcfg : ∀ ns, i ≠ .linkConfig ns) :
    ∃ ev te res k, exec i s = .next (linkLeft s ev te res k) := by
  have hsend (x : Byte) : ∃ ev te res k, finish (sendByte x s) = .next (linkLeft s ev te res k) := by
    obtain ⟨ev, te, k, h, -⟩ := sendByte_outcomes x s
    exact ⟨ev, te, s.result, k, h⟩
  cases i with
  | linkConfig ns => exact absurd rfl (hcfg ns)
  | linkEnable =>
    obtain ⟨-, h⟩ | ⟨-, h | ⟨_, _, _, -, -, h⟩⟩ := execLinkEnable_outcomes s
    · exact ⟨_, _, _, _, h.trans (by rw [linkLeft_nil])⟩
    · exact ⟨_, _, _, _, h⟩
    · exact ⟨_, _, _, _, h⟩
  | linkDisable =>
    obtain ⟨-, h⟩ | ⟨-, h | h⟩ := execLinkDisable_outcomes s
    · exact ⟨_, _, _, _, h.trans (by rw [linkLeft_nil])⟩
    · exact ⟨_, _, _, _, h⟩
    · exact ⟨_, _, _, _, h⟩
  | linkRx =>
    obtain ⟨-, h⟩ | ⟨-, -, h⟩ | ⟨-, -, _, h | ⟨_, _, _, -, -, h⟩⟩ := execLinkRx_outcomes s
    · exact ⟨_, _, _, _, h.trans (by rw [linkLeft_nil])⟩
    · exact ⟨_, _, _, _, h.trans (by rw [linkLeft_nil])⟩
    · exact ⟨_, _, _, _, h⟩
    · exact ⟨_, _, _, _, h⟩
  | linkIsen =>
    obtain ⟨_, _, h⟩ := execLinkIsen_linkLeft s
    exact ⟨_, _, _, _, h⟩
  | cmdWrite cls index value =>
    obtain ⟨-, h⟩ | ⟨-, h | h | ⟨_, _, _, _, -, -, -, h⟩⟩ := execCmdWrite_outcomes cls index value s
    · exact ⟨_, _, _, _, h.trans (by rw [linkLeft_nil])⟩
    · exact ⟨_, _, _, _, h⟩
    · exact ⟨_, _, _, _, h⟩
    · exact ⟨_, _, _, _, h⟩
  | cmdRead cls index =>
    obtain ⟨-, h⟩ | ⟨-, _, h | h | ⟨_, _, _, _, -, -, -, h⟩⟩ := execCmdRead_outcomes cls index s
    · exact ⟨_, _, _, _, h.trans (by rw [linkLeft_nil])⟩
    · exact ⟨_, _, _, _, h⟩
    · exact ⟨_, _, _, _, h⟩
    · exact ⟨_, _, _, _, h⟩
  | linkTx x => exact hsend x
  | cmdbyteWriteRam index => exact hsend _
  | cmdbyteReadRam index => exact hsend _
  | cmdbyteWriteRtc index => exact hsend _
  | cmdbyteReadRtc index => exact hsend _
  | srConfig | srLoad | srCommit | srClear | srIsfull | errClear => exact nomatch hi

/-- LINK.CONFIG leaves the engine alone, legal or refused (R80). -/
theorem execLinkConfig_sr {ns : BitVec 24} {s t : State} (h : execLinkConfig ns s = .next t) : t.sr = s.sr := by
  cases hp : pulseLegal ns <;> cases hte : s.link.te <;> simp [execLinkConfig, hp, hte] at h <;> simp [← h]

/-- No operation of the link touches the engine (R43). -/
theorem exec_linkOp_sr {i : Instr} {s t : State} (hi : isLinkOp i = true) (h : exec i s = .next t) : t.sr = s.sr := by
  by_cases hcfg : ∃ ns, i = .linkConfig ns
  · obtain ⟨ns, rfl⟩ := hcfg
    exact execLinkConfig_sr h
  · obtain ⟨ev, te, res, k, hk⟩ := exec_linkOp_linkLeft s hi fun ns hns => hcfg ⟨ns, hns⟩
    obtain rfl := Host.Outcome.next.inj (hk.symm.trans h)
    exact linkLeft_sr s ev te res k

/-! ### Every operation -/

/-- The operations of the engine, those of the link, and ERR.CLEAR are all there are. -/
theorem isSrOp_or_isLinkOp_or_errClear (i : Instr) : isSrOp i = true ∨ isLinkOp i = true ∨ i = .errClear := by
  cases i with
  | srConfig | srLoad | srCommit | srClear | srIsfull => exact .inl rfl
  | errClear => exact .inr (.inr rfl)
  | _ => exact .inr (.inl rfl)

/-- Every operation but SR.CONFIG keeps the engine's configuration (R19, R30). -/
theorem exec_sameSrConfig {i : Instr} {s t : State} (hi : ∀ cap mode ord, i ≠ .srConfig cap mode ord)
    (h : exec i s = .next t) : SameSrConfig s t := by
  obtain hsr | hlink | rfl := isSrOp_or_isLinkOp_or_errClear i
  · cases i with
    | srConfig cap mode ord => exact absurd rfl (hi cap mode ord)
    | srLoad b => exact (srLoadBody_sameSrConfig b s).of_finish h
    | srCommit => exact (srCommitBody_sameSrConfig s).of_finish h
    | srClear => exact (srClearBody_sameSrConfig s).of_finish h
    | srIsfull => exact .of_sr_eq (execSrIsfull_sr h)
    | _ => exact nomatch hsr
  · exact .of_sr_eq (exec_linkOp_sr hlink h)
  · obtain rfl := Host.Outcome.next.inj h
    exact .of_sr_eq rfl

/-- Every operation but LINK.CONFIG keeps the link's configuration (R25, R31). -/
theorem exec_sameLinkConfig {i : Instr} {s t : State} (hi : ∀ ns, i ≠ .linkConfig ns) (h : exec i s = .next t) :
    SameLinkConfig s t := by
  obtain hsr | hlink | rfl := isSrOp_or_isLinkOp_or_errClear i
  · exact .of_link_eq (exec_srOp_link hsr h)
  · obtain ⟨ev, te, res, k, hk⟩ := exec_linkOp_linkLeft s hlink hi
    obtain rfl := Host.Outcome.next.inj (hk.symm.trans h)
    exact linkLeft_sameLinkConfig s ev te res k
  · obtain rfl := Host.Outcome.next.inj h
    exact .of_link_eq rfl

end Sys2Proof.Machine
end

section
/-! The statements about the state and its computed registers, settled. -/

namespace Sys2Proof.Machine

/-- Settles O56: the fields from the two words' layouts, the port's answers from the step of a defined access, and the
frame from the operations' outcomes. -/
theorem configurationWords : Obligations.ConfigurationWords := by
  refine ⟨fun s => ⟨srcfgWord_cap s, srcfgWord_mode s, srcfgWord_ord s, srcfgWord_reserved s, linkcfgWord_pulse s,
    linkcfgWord_reserved s⟩, ⟨rfl, rfl⟩, ?_, fun i s t h => ⟨fun hi => (exec_sameSrConfig hi h).srcfgWord_eq,
      fun hi => (exec_sameLinkConfig hi h).linkcfgWord_eq⟩⟩
  rintro s rest v off (⟨rfl, rfl⟩ | ⟨rfl, rfl⟩)
  · exact ⟨step_read_of_ne_result (by decide) (by decide) (by decide),
      fun _ => step_write_of_ne_cmd (by decide) (by decide) (by decide)⟩
  · exact ⟨step_read_of_ne_result (by decide) (by decide) (by decide),
      fun _ => step_write_of_ne_cmd (by decide) (by decide) (by decide)⟩

/-- Settles O14: the fields of the reset state, and the attached register's positions, all X. -/
theorem resetValues : Obligations.ResetValues := by
  have hunknown : ∀ l ∈ List.replicate Params.reference.devLen Level.x, l = .x := fun l hl => List.eq_of_mem_replicate hl
  refine ⟨rfl, rfl, rfl, rfl, rfl, rfl, rfl, rfl, rfl, rfl, rfl, rfl, rfl, rfl, rfl, rfl, rfl, rfl, rfl, rfl, rfl, rfl,
    rfl, rfl, rfl, rfl, rfl, rfl, hunknown, hunknown⟩

/-- Settles O55: the word's layout, with each computed flag as the condition it stands for. -/
theorem statusWordFields : Obligations.StatusWordFields := by
  refine ⟨rfl, fun s rest => step_read_of_ne_result (by decide) (by decide) (by decide),
    fun s rest v => step_write_of_ne_cmd (by decide) (by decide) (by decide), ⟨rfl, rfl, rfl, rfl, rfl⟩, fun s => ?_⟩
  obtain ⟨h3, h4, h5, h6, h7, h8, h9, h10, h11, h12, h13, h14, h15⟩ := statusWord_bits s
  exact ⟨statusWord_err s, h3, h4, h5, h6, h7, h8, h9, h10, h11.trans s.sr.full_eq_decide,
    h12.trans s.link.dirOut_eq_decide, h13.trans s.link.dirUnknown_eq_decide, h14.trans (pinUnknown_eq_decide s), h15,
    statusWord_rem s, s.status.err.code_toNat_le⟩

end Sys2Proof.Machine
end

section
/-! SUPPORT. What the host's side refuses (R37, R38, 60_exceptions.md section 5): where the window lies, which accesses in
it are defined, and the answer to those that are not. -/

namespace Sys2Proof.Machine

/-- One step serves the oldest waiting input (R41, R43). -/
theorem step_of_host_cons {s : State} {i : Input} {rest : List Input} (h : s.host = i :: rest) :
    step s = serve i (s.withHost rest) := by
  rw [step, h]

/-- The window is the 64 addresses from BASE on (R37). -/
theorem Params.inWindow_base_add_iff (p : Params) (off : Nat) :
    Params.inWindow p (p.base + off) = true ↔ off < 64 := by
  simp [Params.inWindow]

/-- The defined accesses are those of 4 bytes at an offset that is a multiple of 4 (R38). -/
theorem Params.definedAccess_base_add_iff (p : Params) (off width : Nat) :
    Params.definedAccess p (p.base + off) width = true ↔ width = 4 ∧ off % 4 = 0 := by
  simp [Params.definedAccess]

/-- An access of another width, or at another offset, is not defined (R38). -/
theorem Params.not_definedAccess_base_add (p : Params) {off width : Nat} (h : width ≠ 4 ∨ off % 4 ≠ 0) :
    ¬ Params.definedAccess p (p.base + off) width = true := by
  rw [Params.definedAccess_base_add_iff]
  omega

/-- A read in the window that is not a defined access is refused (R38). -/
theorem serveAccess_read_of_undefined {s : State} {addr width : Nat} (hin : Params.inWindow s.params addr = true)
    (hdef : ¬ Params.definedAccess s.params addr width = true) :
    serveAccess (.read addr width) s = .refused (.undefinedAccess addr width) := by
  rw [serveAccess, if_pos hin, if_neg hdef]

/-- A write in the window that is not a defined access is refused, whatever port and value it is for, so no operation is
issued (R38). -/
theorem serveAccess_write_of_undefined {s : State} {addr width : Nat} (v : Word)
    (hin : Params.inWindow s.params addr = true) (hdef : ¬ Params.definedAccess s.params addr width = true) :
    serveAccess (.write addr width v) s = .refused (.undefinedAccess addr width) := by
  rw [serveAccess, if_pos hin, if_neg hdef]

/-- A fetch in the window is refused, at any offset (R38). -/
theorem serveAccess_fetch_of_inWindow {s : State} {addr : Nat} (hin : Params.inWindow s.params addr = true) :
    serveAccess (.fetch addr) s = .refused (.instructionFetch addr) := by
  rw [serveAccess, if_pos hin]

end Sys2Proof.Machine
end

section
/-! The statements about the port window and the host's accesses, settled. -/

namespace Sys2Proof.Machine

/-- Settles O12: the offset lies in the window, the access is not defined there, and the step is the serving of it. -/
theorem undefinedAccessIsRefused : Obligations.UndefinedAccessIsRefused := by
  intro s off rest hlt
  have hin : Params.inWindow s.params (s.params.base + off) = true :=
    (Params.inWindow_base_add_iff s.params off).mpr hlt
  refine ⟨fun width hw => ?readOrWrite, fun h => ?fetch, fun a h => ?secondHost⟩
  case readOrWrite =>
    have hdef := Params.not_definedAccess_base_add s.params hw
    exact ⟨fun h => (step_of_host_cons h).trans (serveAccess_read_of_undefined hin hdef),
      fun v h => (step_of_host_cons h).trans (serveAccess_write_of_undefined v hin hdef)⟩
  case fetch => exact (step_of_host_cons h).trans (serveAccess_fetch_of_inWindow hin)
  case secondHost => exact step_of_host_cons h

end Sys2Proof.Machine
end

section
/-! SUPPORT. The opcode map selects at most one row for a word, what the issue of the word makes of that choice (R57 to
R59), and the assembler as its range check followed by the encoder (R60). -/

namespace Sys2Proof

/-! ### The opcode map -/

theorem OpRow.selects_iff (r : OpRow) (w : Word) : r.selects w = true ↔ w &&& r.mask = r.pattern := beq_iff_eq

/-- No row stands in the opcode map twice: the opcode bytes are all different. -/
theorem opTable_nodup : opTable.Nodup :=
  List.Nodup.of_map (fun r => r.pattern &&& 0xFF) (by decide)

/-- Two rows that select a word have its opcode byte in common, so they are one row. -/
theorem opTable_eq_of_selects {r q : OpRow} (hr : r ∈ opTable) (hq : q ∈ opTable) {w : Word}
    (hrw : r.selects w = true) (hqw : q.selects w = true) : r = q := by
  rw [OpRow.selects_iff] at hrw hqw
  exact opTable_eq_of_opcode hq hr (by rw [← opTable_comparesOpcode hr hrw, opTable_comparesOpcode hq hqw])

/-- At most one row selects a word (R58): the first two of those that do would be one row standing twice. -/
theorem opTable_filter_selects_length_le_one (w : Word) : (opTable.filter fun r => r.selects w).length ≤ 1 := by
  by_contra! hlen
  have hsel (k : Nat) (hk : k < (opTable.filter fun r => r.selects w).length) :=
    List.mem_filter.mp (List.getElem_mem hk)
  obtain ⟨hmem0, hsel0⟩ := hsel 0 (by omega)
  obtain ⟨hmem1, hsel1⟩ := hsel 1 hlen
  have hsame := opTable_eq_of_selects hmem0 hmem1 hsel0 hsel1
  exact absurd ((opTable_nodup.filter _).getElem_inj_iff.mp hsame) (by decide)

/-- A word that no row of the opcode map selects is illegal (R58, R59). -/
theorem decodeWord_of_no_row {w : Word} (h : ∀ r ∈ opTable, w &&& r.mask ≠ r.pattern) :
    decodeWord w = .error (illegalReason w) := by
  have hnone : opTable.find? (fun r => r.selects w) = none :=
    List.find?_eq_none.mpr fun r hr hsel => h r hr ((r.selects_iff w).mp hsel)
  rw [decodeWord, hnone]

/-! ### The assembler -/

/-- The assembler rejects a line exactly when its range check `P` fails, which is when `Q` holds, and else gives the code
of its operation (R60). -/
theorem assemble_of_wellFormed_iff {l : AsmLine} {P Q : Prop} (hwf : l.wellFormed = true ↔ P) (hnot : ¬ P ↔ Q) :
    (assemble l = none ↔ Q) ∧ (P → assemble l = some (encode l.toInstr)) := by
  rw [← hnot, ← hwf]
  exact ⟨by simp [assemble], fun h => if_pos h⟩

theorem wellFormed_srConfig_iff (cap : Nat) (mode : BitOrder) (ord : Personality) :
    (AsmLine.srConfig cap mode ord).wellFormed = true ↔ cap ≤ 65535 := decide_eq_true_iff

theorem wellFormed_srLoad_iff (bit : Nat) : (AsmLine.srLoad bit).wellFormed = true ↔ bit ≤ 1 := decide_eq_true_iff

theorem wellFormed_linkConfig_iff (ns : Nat) : (AsmLine.linkConfig ns).wellFormed = true ↔ ns ≤ 16777215 :=
  decide_eq_true_iff

theorem wellFormed_linkTx_iff (byte : Nat) : (AsmLine.linkTx byte).wellFormed = true ↔ byte ≤ 255 := decide_eq_true_iff

theorem wellFormed_cmdWrite_iff (cls : RegClass) (index byte : Nat) :
    (AsmLine.cmdWrite cls index byte).wellFormed = true ↔ index ≤ 31 ∧ byte ≤ 255 := by
  simp [AsmLine.wellFormed]

theorem wellFormed_cmdRead_iff (cls : RegClass) (index : Nat) :
    (AsmLine.cmdRead cls index).wellFormed = true ↔ index ≤ 31 := decide_eq_true_iff

end Sys2Proof

namespace Sys2Proof.Machine

/-! ### The issue of a word -/

theorem issue_of_decodes {w : Word} {i : Instr} (h : decodeWord w = .ok i) (s : State) : issue w s = exec i s := by
  rw [issue, h]

/-- A word that does not decode completes with ILLEGAL, and nothing but STATUS changes (R59). -/
theorem issue_of_illegal {w : Word} {e : DecodeError} (h : decodeWord w = .error e) (s : State) :
    issue w s = .next (s.refusedWith .illegal) := by
  rw [issue, h]
  rfl

end Sys2Proof.Machine
end

section
/-! The statements about the opcode map and the assembler, settled. -/

namespace Sys2Proof.Machine

/-- Settles O4: the selecting row is what the word decodes to, a word of no row does not decode, and rows that select one
word are one row. -/
theorem issuedWordRunsItsRowOrIsIllegal : Obligations.IssuedWordRunsItsRowOrIsIllegal := by
  refine fun w s => ⟨fun r hr hsel => ?row, fun hnone => ?noRow, opTable_filter_selects_length_le_one w⟩
  case row => exact issue_of_decodes (decodeWord_of_row hr hsel) s
  case noRow => exact issue_of_illegal (decodeWord_of_no_row hnone) s

/-- Settles O6: a pseudo-instruction has its expansion's check and operation by definition, and each line with operands
is its range check followed by the encoder. -/
theorem assemblerChecksAndExpands : Obligations.AssemblerChecksAndExpands := by
  refine ⟨fun _ _ => ⟨rfl, rfl, rfl⟩, fun _ => ⟨rfl, rfl⟩, fun cap mode ord => ?srConfig, fun ns => ?linkConfig,
    fun byte => ?linkTx, fun cls index byte => ?cmdWrite, fun cls index => ?cmdRead, fun bit => ?srLoad,
    rfl, rfl, rfl, rfl, rfl, rfl, rfl, rfl⟩
  case srConfig => exact assemble_of_wellFormed_iff (wellFormed_srConfig_iff cap mode ord) Nat.not_le
  case linkConfig => exact assemble_of_wellFormed_iff (wellFormed_linkConfig_iff ns) Nat.not_le
  case linkTx => exact assemble_of_wellFormed_iff (wellFormed_linkTx_iff byte) Nat.not_le
  case cmdRead => exact assemble_of_wellFormed_iff (wellFormed_cmdRead_iff cls index) Nat.not_le
  case cmdWrite =>
    have hnot : ¬ (index ≤ 31 ∧ byte ≤ 255) ↔ 31 < index ∨ 255 < byte := by omega
    obtain ⟨hrejected, hfits⟩ := assemble_of_wellFormed_iff (wellFormed_cmdWrite_iff cls index byte) hnot
    exact ⟨hrejected, fun hi hb => hfits ⟨hi, hb⟩⟩
  case srLoad =>
    have hnot : ¬ bit ≤ 1 ↔ bit ≠ 0 ∧ bit ≠ 1 := by omega
    obtain ⟨hrejected, -⟩ := assemble_of_wellFormed_iff (wellFormed_srLoad_iff bit) hnot
    exact ⟨hrejected, rfl, rfl⟩

end Sys2Proof.Machine
end

section
/-! SUPPORT. A row of the opcode map as the encoding it gives (R57), the outcomes of SR.CONFIG and SR.ISFULL (R66, R70),
and complete cycles of the shift-register engine with no failing access: the loads and the commit as one list of events, in
either personality, and what those events do to the attached register (R63 to R68, R34). -/

namespace Sys2Proof

/-- Every row of the opcode map encodes the operation it builds (R57). -/
theorem encodedAs_of_mem_opTable {r : OpRow} (hr : r ∈ opTable) : Machine.EncodedAs r.pattern r.mask r.build :=
  fun _ h => decodeWord_of_row hr h

/-- The order in which a bit order drains buffered bits: back to front in natural mode, front to back in inverse mode. -/
def BitOrder.drain : BitOrder → List Bool → List Bool
  | .natural, bits => bits.reverse
  | .inverse, bits => bits

@[simp] theorem BitOrder.length_drain (m : BitOrder) (bits : List Bool) : (m.drain bits).length = bits.length := by
  cases m with
  | natural => exact List.length_reverse
  | inverse => rfl

end Sys2Proof

namespace Sys2Proof.Machine

/-! ### SR.CONFIG and SR.ISFULL -/

theorem capLegal_iff (p : Params) (cap : BitVec 16) :
    capLegal p cap = true ↔ 1 ≤ cap.toNat ∧ cap.toNat ≤ p.capMax := by
  simp [capLegal]

/-- The capacities that SR.CONFIG refuses (R66). -/
theorem capLegal_eq_false_iff (p : Params) (cap : BitVec 16) :
    capLegal p cap = false ↔ cap = 0 ∨ p.capMax < cap.toNat := by
  have hzero : cap = 0 ↔ cap.toNat = 0 := BitVec.toNat_eq
  rw [← Bool.not_eq_true, capLegal_iff, hzero]
  omega

theorem exec_srConfig_of_capLegal {s : State} {cap : BitVec 16} (mode : BitOrder) (ord : Personality)
    (h : capLegal s.params cap = true) :
    exec (.srConfig cap mode ord) s = .next ((s.configureSr cap mode ord).complete .ok) := by
  rw [exec, execSrConfig, h, require_true, finish_done]

theorem exec_srConfig_of_not_capLegal {s : State} {cap : BitVec 16} (mode : BitOrder) (ord : Personality)
    (h : capLegal s.params cap = false) : exec (.srConfig cap mode ord) s = .next (s.refusedWith .precond) := by
  rw [exec, execSrConfig, h, require_false, finish_raised]
  rfl

theorem exec_srIsfull_of_cfg {s : State} (h : s.sr.cfg = true) :
    exec .srIsfull s = .next ((s.setResult (zextFlag (s.sr.rem == 0))).complete .ok) := by
  rw [exec, execSrIsfull, h, require_true, finish_done]

theorem exec_srIsfull_of_not_cfg {s : State} (h : s.sr.cfg = false) :
    exec .srIsfull s = .next (s.refusedWith .precond) := by
  rw [exec, execSrIsfull, h, require_false, finish_raised]
  rfl

/-! ### Completions along a run -/

/-- The completion of an operation rides along the events of the next one: no event reads or writes STATUS. -/
theorem performAll_complete (k : Completion) (es : List Event) (s : State) :
    (s.complete k).performAll es = (s.performAll es).complete k := by
  induction es generalizing s with
  | nil => rfl
  | cons e es ih => exact ih (s.perform e)

@[simp] theorem setBrem_complete (k : Completion) (v : BitVec 16) (s : State) :
    (s.complete k).setBrem v = (s.setBrem v).complete k := rfl

@[simp] theorem srCleanup_complete (k : Completion) (s : State) : (s.complete k).srCleanup = s.srCleanup.complete k := rfl

@[simp] theorem complete_ok_complete_ok (s : State) : (s.complete .ok).complete .ok = s.complete .ok := rfl

/-- Operations in order: the first one, and the rest from the state it left. -/
theorem execAll_cons_of_next {i : Instr} {is : List Instr} {s t : State} (h : exec i s = .next t) :
    execAll (i :: is) s = execAll is t := by
  rw [execAll, h]

theorem execAll_singleton_of_next {i : Instr} {s t : State} (h : exec i s = .next t) : execAll [i] s = .next t :=
  execAll_cons_of_next h

theorem replayTrace_cons (ps : Nat) (b : Bool) (bs : List Bool) :
    replayTrace ps (b :: bs) = loadTrace ps b ++ replayTrace ps bs := rfl

/-- A counter that is not 0 counts down. -/
theorem toNat_sub_one_of_pos {v : BitVec 16} (h : 0 < v.toNat) : (v - 1).toNat = v.toNat - 1 := by
  bv_omega

/-! ### The base personality -/

/-- A base SR.LOAD with room and no failing access (R67). -/
theorem exec_srLoad_base_quiet {s : State} (b : Bool) (hcfg : s.sr.cfg = true) (hord : s.sr.ord = .base)
    (hrem : 0 < s.sr.brem.toNat) (hq : s.Quiet 3) :
    exec (.srLoad b) s =
      .next (((s.performAll (loadTrace s.params.srPulseNs b)).setBrem (s.sr.brem - 1)).complete .ok) := by
  have hbody : srLoadBody b s = (baseLoad b s).onError srCleanup := by
    simp only [srLoadBody, hcfg, hord, require_true, decide_eq_true hrem]
  rw [exec, execSrLoad, hbody, baseLoad_quiet b hq, onError_done, finish_done]

/-- A base SR.COMMIT with no failing access (R68). -/
theorem exec_srCommit_base_quiet {s : State} (hcfg : s.sr.cfg = true) (hord : s.sr.ord = .base) (hq : s.Quiet 2) :
    exec .srCommit s = .next (((s.performAll latchTrace).setBrem s.sr.cap).complete .ok) := by
  have hbody : srCommitBody s = (baseLatch s).onError srCleanup := by
    simp only [srCommitBody, hcfg, hord, require_true]
  rw [exec, execSrCommit, hbody, baseLatch_quiet hq, onError_done, finish_done]

/-- Base loads that fit and a commit: the loads' events in the order of the bits, then the latch pulse. -/
theorem execAll_base_cycle {s : State} (cs : List Bool) (hcfg : s.sr.cfg = true) (hord : s.sr.ord = .base)
    (hfit : cs.length ≤ s.sr.brem.toNat) (hq : s.Quiet (3 * cs.length + 2)) :
    execAll (cs.map .srLoad ++ [.srCommit]) s =
      .next (((s.performAll (replayTrace s.params.srPulseNs cs ++ latchTrace)).setBrem s.sr.cap).complete .ok) := by
  induction cs generalizing s with
  | nil => exact execAll_singleton_of_next (exec_srCommit_base_quiet hcfg hord hq)
  | cons c cs ih =>
    rw [List.length_cons] at hfit hq
    have hload := exec_srLoad_base_quiet c hcfg hord (by omega) (Quiet_mono hq (by omega))
    generalize hevents : loadTrace s.params.srPulseNs c = events at hload
    have hcount : accessCount events = 3 := by rw [← hevents, accessCount_loadTrace]
    have hrest : (s.performAll events).Quiet (3 * cs.length + 2) :=
      Quiet_performAll events (Quiet_mono hq (by omega))
    have hroom : cs.length ≤ (s.sr.brem - 1).toNat := by rw [toNat_sub_one_of_pos] <;> omega
    have hcycle := ih (s := ((s.performAll events).setBrem (s.sr.brem - 1)).complete .ok) (by simpa using hcfg)
      (by simpa using hord) hroom hrest
    rw [List.map_cons, List.cons_append, execAll_cons_of_next hload, hcycle]
    simp [performAll_complete, performAll_setBrem, replayTrace_cons, hevents, performAll_append]

/-! ### The ordered personality -/

/-- An ordered SR.LOAD with room buffers its bit (R67). -/
theorem exec_srLoad_ordered {s : State} (b : Bool) (hcfg : s.sr.cfg = true) (hord : s.sr.ord = .ordered)
    (hrem : 0 < s.sr.orem.toNat) : exec (.srLoad b) s = .next ((s.bufferBit b).complete .ok) := by
  have hbody : srLoadBody b s = .done () (s.bufferBit b) := by
    simp only [srLoadBody, hcfg, hord, require_true, decide_eq_true hrem]
  rw [exec, execSrLoad, hbody, finish_done]

/-- The replay of SR.COMMIT drains the buffer in the engine's bit order (R68). -/
theorem drainOrder_eq_drain (e : SrEngine) : e.drainOrder = e.mode.drain e.buf := by
  rw [SrEngine.drainOrder]
  cases e.mode <;> rfl

/-- An ordered SR.COMMIT of a full buffer with no failing access (R68). -/
theorem exec_srCommit_ordered_quiet {s : State} (hcfg : s.sr.cfg = true) (hord : s.sr.ord = .ordered)
    (hfull : s.sr.orem = 0) (hq : s.Quiet (3 * s.sr.buf.length + 2)) :
    exec .srCommit s = .next
      ((s.performAll (replayTrace s.params.srPulseNs (s.sr.mode.drain s.sr.buf) ++
        latchTrace)).srCleanup.complete .ok) := by
  have hbody : srCommitBody s = ((replay s.sr.drainOrder s).andThen fun _ s => baseLatch s).cleanup srCleanup := by
    simp only [srCommitBody, hcfg, hord, require_true, hfull, BEq.rfl]
  rw [exec, execSrCommit, hbody, drainOrder_eq_drain, replay_quiet _ (Quiet_mono hq (by simp)), andThen_done]
  generalize hevents : replayTrace s.params.srPulseNs (s.sr.mode.drain s.sr.buf) = events
  have hlatch : (s.performAll events).Quiet 2 :=
    Quiet_performAll events (by simpa [← hevents, accessCount_replayTrace] using hq)
  generalize s.sr.brem - BitVec.ofNat 16 (s.sr.mode.drain s.sr.buf).length = v
  have hlatched : baseLatch ((s.performAll events).setBrem v) = _ := baseLatch_quiet hlatch
  rw [hlatched, performAll_append, performAll_setBrem]
  rfl

/-- The cleanup forgets a bit that was buffered before the events. -/
theorem srCleanup_performAll_bufferBit (b : Bool) (es : List Event) (s : State) :
    ((s.bufferBit b).performAll es).srCleanup = (s.performAll es).srCleanup :=
  srCleanup_withSr _ s es rfl rfl rfl rfl

/-- Ordered loads that fill the buffer and a commit: the events of a replay of the whole buffer, then the latch pulse. -/
theorem execAll_ordered_cycle {s : State} (bs : List Bool) (hcfg : s.sr.cfg = true) (hord : s.sr.ord = .ordered)
    (hfill : bs.length = s.sr.orem.toNat) (hq : s.Quiet (3 * (s.sr.buf.length + bs.length) + 2)) :
    execAll (bs.map .srLoad ++ [.srCommit]) s = .next
      ((s.performAll (replayTrace s.params.srPulseNs (s.sr.mode.drain (s.sr.buf ++ bs)) ++
        latchTrace)).srCleanup.complete .ok) := by
  induction bs generalizing s with
  | nil =>
    have hfull : s.sr.orem = 0 := BitVec.eq_of_toNat_eq hfill.symm
    rw [List.append_nil]
    exact execAll_singleton_of_next (exec_srCommit_ordered_quiet hcfg hord hfull hq)
  | cons b bs ih =>
    rw [List.length_cons] at hfill hq
    have hload := exec_srLoad_ordered b hcfg hord (by omega)
    have hroom : bs.length = (s.sr.orem - 1).toNat := by rw [toNat_sub_one_of_pos] <;> omega
    have hbuffered : (s.bufferBit b).sr.buf.length = s.sr.buf.length + 1 := List.length_append
    have hrest : s.Quiet (3 * ((s.bufferBit b).sr.buf.length + bs.length) + 2) := Quiet_mono hq (by omega)
    have hcycle := ih (s := (s.bufferBit b).complete .ok) hcfg hord hroom hrest
    rw [List.map_cons, List.cons_append, execAll_cons_of_next hload, hcycle, performAll_complete, srCleanup_complete,
      complete_ok_complete_ok, srCleanup_performAll_bufferBit]
    simp

/-- An ordered cycle of an empty engine: the events of a replay of its own bits, then the latch pulse. -/
theorem execAll_ordered_cycle_of_empty {s : State} {bs : List Bool} (hcfg : s.sr.cfg = true) (hord : s.sr.ord = .ordered)
    (hempty : s.sr.orem = s.sr.cap) (hbuf : s.sr.buf = []) (hlen : bs.length = s.sr.cap.toNat)
    (hq : s.Quiet (3 * s.sr.cap.toNat + 2)) :
    execAll (bs.map .srLoad ++ [.srCommit]) s = .next
      ((s.performAll (replayTrace s.params.srPulseNs (s.sr.mode.drain bs) ++ latchTrace)).srCleanup.complete .ok) := by
  rw [execAll_ordered_cycle bs hcfg hord (by rw [hlen, hempty]) (by simpa [hbuf, hlen] using hq), hbuf, List.nil_append]

/-! ### What a cycle's events do to the attached register -/

/-- The levels at the rising edges of SR_CLK in a replay and its latch pulse are the replayed bits (R72). -/
theorem clockedBits_replayTrace_latchTrace (ps : Nat) (bs : List Bool) (before : Bool) :
    clockedBits before (replayTrace ps bs ++ latchTrace) = bs := by
  induction bs generalizing before with
  | nil => rfl
  | cons b bs ih =>
    have hload : clockedBits before (replayTrace ps (b :: bs) ++ latchTrace) =
        b :: clockedBits b (replayTrace ps bs ++ latchTrace) := rfl
    rw [hload, ih]

/-- A base load shifts its bit into the attached register and leaves the clock low (R34, R63). -/
theorem performAll_loadTrace_register {s : State} (ps : Nat) (b : Bool) (hclk : s.pins.srClk = .low) :
    (s.performAll (loadTrace ps b)).env.sipo = { s.env.sipo with stage := shiftIn (.ofBit b) s.env.sipo.stage } ∧
      (s.performAll (loadTrace ps b)).pins.srClk = .low ∧
      (s.performAll (loadTrace ps b)).pins.srLatch = s.pins.srLatch := by
  refine ⟨?_, rfl, rfl⟩
  simp [loadTrace, State.perform, State.lines, Lines.event, Lines.set, Sipo.observe, Sipo.clkEvent, hclk, Level.ofBit]

/-- A latch pulse moves the stage of the attached register to its outputs (R34, R64). -/
theorem performAll_latchTrace_outs {s : State} (hlatch : s.pins.srLatch = .low) :
    (s.performAll latchTrace).env.sipo.outs = s.env.sipo.stage := by
  simp [latchTrace, State.perform, State.lines, Lines.event, Lines.set, Sipo.observe, Sipo.latchEvent, hlatch,
    Level.ofBit]

/-- A replay leaves the replayed bits in the attached register's stage, the last one first, before what was there, and a
latch pulse moves them to its outputs (R34, R73). -/
theorem performAll_replay_latch_outs {s : State} (ps : Nat) (bs : List Bool) (hclk : s.pins.srClk = .low)
    (hlatch : s.pins.srLatch = .low) :
    (s.performAll (replayTrace ps bs ++ latchTrace)).env.sipo.outs =
      (bs.reverse.map Level.ofBit ++ s.env.sipo.stage).take s.env.sipo.stage.length := by
  induction bs generalizing s with
  | nil => simpa [replayTrace] using performAll_latchTrace_outs hlatch
  | cons b bs ih =>
    obtain ⟨hsipo, hclk', hlatch'⟩ := performAll_loadTrace_register ps b hclk
    rw [replayTrace_cons, List.append_assoc, performAll_append, ih hclk' (hlatch'.trans hlatch), hsipo]
    simp [shiftIn, List.take_append, List.take_take]

end Sys2Proof.Machine
end

section
/-! The statements about SR.CONFIG, SR.ISFULL and the order of the bits of a cycle, settled. -/

namespace Sys2Proof.Machine

/-- Settles O16: the first row of the opcode map, and the two outcomes of the capacity check. -/
theorem srConfigConfigures : Obligations.SrConfigConfigures := by
  have hrow := encodedAs_of_mem_opTable (List.getElem_mem (l := opTable) (n := 0) (by decide))
  refine ⟨hrow, hrow 0x00001001 rfl, fun s cap mode ord hone hmax => ?legal, fun s cap mode ord hcap => ?illegal⟩
  case legal => exact exec_srConfig_of_capLegal mode ord ((capLegal_iff s.params cap).mpr ⟨hone, hmax⟩)
  case illegal => exact exec_srConfig_of_not_capLegal mode ord ((capLegal_eq_false_iff s.params cap).mpr hcap)

/-- Settles O27: the fifth row of the opcode map, and the two outcomes of the configuration check. -/
theorem srIsfullReports : Obligations.SrIsfullReports := by
  refine ⟨encodedAs_of_mem_opTable (List.getElem_mem (l := opTable) (n := 4) (by decide)), fun s hcfg => ?_,
    fun s hcfg => exec_srIsfull_of_not_cfg hcfg⟩
  have hflag : zextFlag (s.sr.rem == 0) = if s.sr.rem = 0 then 1 else 0 := by simp [zextFlag]
  rw [exec_srIsfull_of_cfg hcfg, hflag]
  rfl

/-- Settles O29: the cycle's events are one replay in the drain order, whose rising clock edges carry the replayed bits. -/
theorem drainOrderOfAnOrderedCycle : Obligations.DrainOrderOfAnOrderedCycle := by
  intro s bs hcfg hord hempty hbuf hlen hq
  refine ⟨_, _, execAll_ordered_cycle_of_empty hcfg hord hempty hbuf hlen hq, rfl, performAll_trace s _, fun before => ?_⟩
  rw [clockedBits_replayTrace_latchTrace]
  cases s.sr.mode <;> rfl

/-- Settles O30: a cycle's events leave its bits last first before the older stage; an ordered cycle replays as many bits
as the register holds. -/
theorem outputPositions : Obligations.OutputPositions := by
  constructor
  case left =>
    intro s bs hcfg hord hempty hbuf hlen hstage hclk hlatch hq
    refine ⟨_, execAll_ordered_cycle_of_empty hcfg hord hempty hbuf hlen hq, ?_⟩
    rw [State.complete_env, State.srCleanup_env, performAll_replay_latch_outs _ _ hclk hlatch]
    cases s.sr.mode <;> simp [BitOrder.drain, hstage, hlen]
  case right =>
    intro s cs hcfg hord hne hfit hcap hstage hclk hlatch hq
    refine ⟨_, execAll_base_cycle cs hcfg hord hfit hq, ?_⟩
    have hroom : cs.length ≤ s.sr.cap.toNat := hfit.trans hcap
    rw [State.complete_env, State.setBrem_env, performAll_replay_latch_outs _ _ hclk hlatch, hstage]
    simp [List.take_append, hroom]

end Sys2Proof.Machine
end

section
/-! SUPPORT. The link's operations with their premises met: the state each one leaves as its events performed, its own
fields and the completion (R80 to R85), and the frame that such a state keeps. -/

namespace Sys2Proof.Machine

/-! ### What a link operation leaves -/

theorem StatusBits.complete_err (k : Completion) (b : StatusBits) : (b.complete k).err = k := by cases k <;> rfl

section linkLeft
variable (s : State) (ev : List Event) (te : Bool) (res : Option Word) (k : Completion)

@[simp] theorem linkLeft_trace : (linkLeft s ev te res k).trace = s.trace ++ ev := performAll_trace s ev
@[simp] theorem linkLeft_linkCfg : (linkLeft s ev te res k).link.cfg = s.link.cfg := performAll_linkCfg s ev

/-- After an operation's events the rest of the premise remains. -/
theorem Quiet_linkLeft {n : Nat} (h : s.Quiet (accessCount ev + n)) : (linkLeft s ev te res k).Quiet n :=
  Quiet_performAll ev h

end linkLeft

/-- Events of the link that fail only where the code is IOFAULT leave the other side of the block alone (R43, R119). -/
theorem linkFrame_linkLeft {s : State} {ev : List Event} {te : Bool} {res : Option Word} {k : Completion}
    (hlink : ∀ e ∈ ev, e.onLink = true) (hok : k ≠ .ioFault → ev.any Event.isFailure = false) :
    LinkFrame s (linkLeft s ev te res k) := by
  obtain ⟨hparams, hsr, hdata, hclk, hlatch, hrun, hscript, hreads, hhost, hreplies⟩ := performAll_linkSide ev s hlink
  have hsipo (herr : (linkLeft s ev te res k).status.err ≠ .ioFault) : (s.performAll ev).env.sipo = s.env.sipo := by
    have hk : k ≠ .ioFault := fun h => herr ((StatusBits.complete_err k _).trans h)
    rw [performAll_sipo ev s hlink, hok hk, if_neg Bool.false_ne_true]
  exact ⟨hparams, hsr, hdata, hclk, hlatch, hsipo, hrun, hscript, hreads, hhost, hreplies⟩

/-! ### LINK.CONFIG -/

theorem pulseLegal_iff (ns : BitVec 24) : pulseLegal ns = true ↔ 1 ≤ ns.toNat := decide_eq_true_iff

theorem exec_linkConfig_of_legal {s : State} {ns : BitVec 24} (hns : pulseLegal ns = true) (hte : s.link.te = false) :
    exec (.linkConfig ns) s = .next ((s.configureLink ns).complete .ok) := by
  rw [exec, execLinkConfig, hns, require_true, hte, Bool.not_false, require_true, finish_done]

theorem exec_linkConfig_of_pulse_zero (s : State) : exec (.linkConfig 0) s = .next (s.refusedWith .precond) := rfl

theorem exec_linkConfig_in_session {s : State} (ns : BitVec 24) (hte : s.link.te = true) :
    exec (.linkConfig ns) s = .next (s.refusedWith .precond) := by
  rw [exec, execLinkConfig]
  cases pulseLegal ns with
  | false => rw [require_false, finish_raised]; rfl
  | true => rw [require_true, hte, Bool.not_true, require_false, finish_raised]; rfl

/-! ### LINK.DISABLE and LINK.ISEN -/

theorem linkDisable_of_nextFails {s : State} (h : s.nextFails = true) :
    linkDisable s = .raised .ioFault (s.perform (.fail .lCe)) := by
  rw [linkDisable, drive, if_pos h, andThen_raised]
  rfl

theorem exec_linkDisable_of_not_cfg {s : State} (hcfg : s.link.cfg = false) :
    exec .linkDisable s = .next (s.refusedWith .precond) := by
  rw [exec, execLinkDisable, hcfg, require_false, finish_raised]
  rfl

/-- LINK.DISABLE with no failing access (R82). -/
theorem exec_linkDisable_quiet {s : State} (hcfg : s.link.cfg = true) (hq : s.Quiet 1) :
    exec .linkDisable s = .next (linkLeft s (disableTrace s.link.pulse.toNat) false s.result .ok) := by
  rw [exec, execLinkDisable, hcfg, require_true, linkDisable_quiet hq, finish_done, linkLeft_of_setTe]

/-- LINK.DISABLE whose drive fails (R82). -/
theorem exec_linkDisable_of_nextFails {s : State} (hcfg : s.link.cfg = true) (hfail : s.nextFails = true) :
    exec .linkDisable s = .next (linkLeft s [.fail .lCe] s.link.te s.result .ioFault) := by
  rw [exec, execLinkDisable, hcfg, require_true, linkDisable_of_nextFails hfail, finish_raised, ← linkLeft_of_performAll]
  rfl

theorem exec_linkIsen_of_cfg {s : State} (hcfg : s.link.cfg = true) :
    exec .linkIsen s = .next ((s.setResult (zextFlag s.link.te)).complete .ok) := by
  rw [exec, execLinkIsen, hcfg, require_true, finish_done]

theorem exec_linkIsen_of_not_cfg {s : State} (hcfg : s.link.cfg = false) :
    exec .linkIsen s = .next (s.refusedWith .precond) := by
  rw [exec, execLinkIsen, hcfg, require_false, finish_raised]
  rfl

/-! ### LINK.TX and LINK.RX -/

/-- LINK.TX in an open session with no failing access (R83). -/
theorem exec_linkTx_quiet {s : State} (x : Byte) (hcfg : s.link.cfg = true) (hte : s.link.te = true) (hq : s.Quiet 25) :
    exec (.linkTx x) s = .next (linkLeft s (txTrace s.link.pulse.toNat x) s.link.te s.result .ok) := by
  rw [exec, execLinkTx, sendByte, hcfg, require_true, hte, require_true, clockIn_quiet x hq, onError_done, finish_done,
    linkLeft_of_performAll, hte]

/-- LINK.RX in an open session with no failing access (R84). -/
theorem exec_linkRx_quiet {s : State} (hcfg : s.link.cfg = true) (hte : s.link.te = true) (hq : s.Quiet 25) :
    exec .linkRx s = .next
      (linkLeft s (rxTrace s.link.pulse.toNat (outByte s)) s.link.te (some (zextByte (outByte s))) .ok) := by
  rw [exec, execLinkRx, hcfg, require_true, hte, require_true, clockOut_quiet hq, onError_done, andThen_done, finish_done,
    linkLeft_of_result, hte]

end Sys2Proof.Machine
end

section
/-! SUPPORT. LOOPBACK along the events of a byte (R35): a clock-in leaves the byte's bits with the device, and a clock-out
samples them back, first bit first (R77, R78). -/

namespace Sys2Proof.Machine

/-- What LOOPBACK makes of events in order. -/
def Loopback.observeAll (es : List Event) (l : Loopback) : Loopback := es.foldl (fun l e => l.observe e) l

/-- LOOPBACK stays on the link while no access fails, and sees every event. -/
theorem performAll_loopback {es : List Event} {s : State} {l : Loopback} (hok : es.any Event.isFailure = false)
    (hdev : s.env.link = .loopback l) : (s.performAll es).env.link = .loopback (l.observeAll es) := by
  induction es generalizing s l with
  | nil => exact hdev
  | cons e es ih =>
    obtain ⟨he, hes⟩ : e.isFailure = false ∧ es.any Event.isFailure = false := by simpa using hok
    have hnext : (s.perform e).env.link = .loopback (l.observe e) := by
      have hseen : (s.perform e).env.link = s.env.link.observe s.pins.lCe e := rfl
      rw [hseen, hdev, LinkDevice.observe, he, if_neg Bool.false_ne_true]
    exact ih hes hnext

/-- After a clock-in LOOPBACK holds the byte's bits, whatever it held before. -/
theorem Loopback.observeAll_txTrace (p : Nat) (x : Byte) (l : Loopback) :
    l.observeAll (txTrace p x) = { l with driven := wireBits x } := rfl

/-- The bits that a clock-out samples from LOOPBACK are those it holds, from its place on. -/
theorem outBits_loopback (n : Nat) {s : State} {l : Loopback} (hdev : s.env.link = .loopback l)
    (hn : l.next + n ≤ l.driven.length) : outBits n s = (l.driven.drop l.next).take n := by
  induction n generalizing s l with
  | zero => rw [outBits, List.take_zero]
  | succ n ih =>
    have hlt : l.next < l.driven.length := by omega
    have hbit : s.env.sampleBit s.accesses s.trace = l.driven[l.next] := by
      rw [Env.sampleBit, hdev, LinkDevice.answer, List.getElem?_eq_getElem hlt]
    have hnext : (s.performAll (rxBitTrace s.link.pulse.toNat l.driven[l.next])).env.link =
        .loopback { l with next := l.next + 1 } := performAll_loopback rfl hdev
    have hleft : l.next + 1 + n ≤ l.driven.length := by omega
    rw [outBits, hbit, ih hnext hleft, List.drop_eq_getElem_cons hlt, List.take_succ_cons]

/-- A byte is determined by its bits on the wire (R48). -/
theorem wireBits_injective : Function.Injective wireBits := by
  intro x y h
  simp only [wireBits, List.cons.injEq, and_true] at h
  obtain ⟨h0, h1, h2, h3, h4, h5, h6, h7⟩ := h
  refine BitVec.eq_of_getLsbD_eq fun i hi => ?_
  interval_cases i <;> assumption

/-- LINK.TX with no failing access leaves the session open and LOOPBACK with the bits of its byte (R83, R35). -/
theorem exec_linkTx_loopback {s : State} {l : Loopback} {n : Nat} (x : Byte) (hcfg : s.link.cfg = true)
    (hte : s.link.te = true) (hdev : s.env.link = .loopback l) (hq : s.Quiet (25 + n)) :
    ∃ t, exec (.linkTx x) s = .next t ∧ t.link.cfg = true ∧ t.link.te = true ∧
      t.env.link = .loopback { l with driven := wireBits x } ∧ t.Quiet n := by
  have htx := exec_linkTx_quiet x hcfg hte (Quiet_mono hq (by omega))
  have hdevice := performAll_loopback (txTrace_noFailure s.link.pulse.toNat x) hdev
  have hcount : accessCount (txTrace s.link.pulse.toNat x) = 25 := accessCount_txTrace _ x
  rw [Loopback.observeAll_txTrace] at hdevice
  generalize txTrace s.link.pulse.toNat x = events at htx hdevice hcount
  exact ⟨_, htx, (linkLeft_linkCfg ..).trans hcfg, hte, hdevice, Quiet_linkLeft _ _ _ _ _ (by rwa [hcount])⟩

/-- A clock-out from a LOOPBACK that holds the bits of a byte answers that byte. -/
theorem outByte_of_loopback {s : State} {l : Loopback} {x : Byte} (hdev : s.env.link = .loopback l)
    (hbits : l.driven = wireBits x) : outByte s = x := by
  have hstart : (s.perform (.dir .input)).env.link = .loopback { l with next := 0 } :=
    performAll_loopback (es := [.dir .input]) rfl hdev
  have hlen : (0 : Nat) + 8 ≤ l.driven.length := by rw [hbits]; exact Nat.le_refl 8
  have hsampled : sampledBits s = wireBits x := by
    rw [sampledBits, outBits_loopback 8 hstart hlen, hbits]
    rfl
  exact wireBits_injective ((wireBits_outByte s).trans hsampled)

end Sys2Proof.Machine
end

section
/-! The statements about LINK.CONFIG, LINK.DISABLE, LINK.ISEN and the loopback round trip, settled. -/

namespace Sys2Proof.Machine

/-- Settles O33: the eighth row of the opcode map, and the three outcomes of LINK.DISABLE, each with its events. -/
theorem linkDisableClosesTheSession : Obligations.LinkDisableClosesTheSession := by
  refine ⟨encodedAs_of_mem_opTable (List.getElem_mem (l := opTable) (n := 7) (by decide)), fun s hcfg hq => ?closed,
    fun s hcfg hfail => ?failed, fun s hcfg => exec_linkDisable_of_not_cfg hcfg⟩
  case closed =>
    have hframe := linkFrame_linkLeft (s := s) (te := false) (res := s.result) (k := .ok)
      (disableTrace_onLink s.link.pulse.toNat) fun _ => disableTrace_noFailure _
    exact ⟨_, exec_linkDisable_quiet hcfg hq, linkLeft_trace .., rfl, rfl, rfl, rfl, rfl, hframe⟩
  case failed =>
    have hframe := linkFrame_linkLeft (s := s) (ev := [.fail .lCe]) (te := s.link.te) (res := s.result) (k := .ioFault)
      (by simp [Event.onLink]) fun h => absurd rfl h
    exact ⟨_, exec_linkDisable_of_nextFails hcfg hfail, linkLeft_trace .., rfl, rfl, rfl, rfl, rfl, hframe⟩

/-- Settles O59: LINK.TX leaves LOOPBACK with the bits of its byte, which the clock-out of LINK.RX samples. -/
theorem loopbackRoundTrip : Obligations.LoopbackRoundTrip := by
  intro s x l hcfg hte hdev hq
  obtain ⟨sent, htx, hcfg', hte', hdev', hq'⟩ := exec_linkTx_loopback x hcfg hte hdev (n := 25) hq
  have hrx := exec_linkRx_quiet hcfg' hte' hq'
  rw [outByte_of_loopback hdev' rfl] at hrx
  exact ⟨_, (execAll_cons_of_next htx).trans (execAll_singleton_of_next hrx), rfl, rfl⟩

/-- Settles O31: the sixth row of the opcode map, and the outcomes of the two checks of LINK.CONFIG. -/
theorem linkConfigSetsThePulse : Obligations.LinkConfigSetsThePulse := by
  have hrow := encodedAs_of_mem_opTable (List.getElem_mem (l := opTable) (n := 5) (by decide))
  refine ⟨hrow, hrow 0x0003E810 rfl, fun s ns hone hte => ?legal, fun s ns hrefused => ?refused⟩
  case legal => exact exec_linkConfig_of_legal ((pulseLegal_iff ns).mpr hone) hte
  case refused =>
    obtain rfl | hte := hrefused
    · exact exec_linkConfig_of_pulse_zero s
    · exact exec_linkConfig_in_session ns hte

/-- Settles O37: the eleventh row of the opcode map, and the two outcomes of the configuration check. -/
theorem linkIsenReports : Obligations.LinkIsenReports := by
  exact ⟨encodedAs_of_mem_opTable (List.getElem_mem (l := opTable) (n := 10) (by decide)),
    fun s hcfg => exec_linkIsen_of_cfg hcfg, fun s hcfg => exec_linkIsen_of_not_cfg hcfg⟩

end Sys2Proof.Machine
end

section
/-! SUPPORT. The one outcome of a CMD operation on a configured link (R89, R90, R93): its whole sequence, or what it got
through before the access that failed, and then an attempt to drive L_CE low. -/

namespace Sys2Proof.Machine

/-! ### The final attempt to drive L_CE low -/

/-- How the cleanup of a CMD operation ends after the events `f` (R76, R93): L_CE driven low, or that drive failed. `ev`
is all the events, `te` is transferEnabled and `k` is the code. -/
def ReleaseAttempted (s : State) (f ev : List Event) (te : Bool) (k : Completion) : Prop :=
  ev = f ++ disableTrace s.link.pulse.toNat ∧ te = false ∧ (k = .ok ∨ k = .ioFault) ∨
    ev = f ++ [.fail .lCe] ∧ k = .ioFault

theorem ReleaseAttempted.ne_notReady {s : State} {f ev : List Event} {te : Bool} {k : Completion}
    (h : ReleaseAttempted s f ev te k) : k ≠ .notReady := by
  obtain ⟨-, -, rfl | rfl⟩ | ⟨-, rfl⟩ := h <;> decide

/-- After a body that failed, the cleanup's own error changes no code (R98). -/
theorem ReleaseAttempted.of_failed {s : State} {f ev : List Event} {te v : Bool}
    (h : ev = f ++ disableTrace s.link.pulse.toNat ∧ te = false ∨ ev = f ++ [.fail .lCe] ∧ te = v) :
    ReleaseAttempted s f ev te .ioFault := by
  obtain ⟨hev, hte⟩ | ⟨hev, -⟩ := h
  · exact .inl ⟨hev, hte, .inr rfl⟩
  · exact .inr ⟨hev, rfl⟩

@[simp] theorem linkLeft_err (s : State) (ev : List Event) (te : Bool) (res : Option Word) (k : Completion) :
    (linkLeft s ev te res k).status.err = k := StatusBits.complete_err k _

theorem linkLeft_lCe_of_disableTrace (s : State) (f : List Event) (p : Nat) (te : Bool) (res : Option Word)
    (k : Completion) : (linkLeft s (f ++ disableTrace p) te res k).pins.lCe = .low := by
  have h : (linkLeft s (f ++ disableTrace p) te res k).pins = (s.performAll (f ++ disableTrace p)).pins := rfl
  rw [h, performAll_append]
  rfl

theorem linkLeft_lCe_of_fail (s : State) (f : List Event) (te : Bool) (res : Option Word) (k : Completion) :
    (linkLeft s (f ++ [.fail .lCe]) te res k).pins.lCe = .x := by
  have h : (linkLeft s (f ++ [.fail .lCe]) te res k).pins = (s.performAll (f ++ [.fail .lCe])).pins := rfl
  rw [h, performAll_append]
  rfl

/-- An unknown chip-enable sets STATUS.PINX (R28). -/
theorem pinUnknown_of_lCe {s : State} (h : s.pins.lCe = .x) : s.pinUnknown = true := by
  rw [pinUnknown_eq_decide, decide_eq_true_eq]
  exact .inr (.inr (.inr (.inr (.inl h))))

/-- STATUS.PINX is bit 14 (R28). -/
theorem statusWord_pinx (s : State) : s.statusWord.getLsbD 14 = s.pinUnknown := by
  obtain ⟨-, -, -, -, -, -, -, -, -, -, -, hpinx, -⟩ := statusWord_bits s
  exact hpinx

/-! ### What comes before it -/

/-- An operation of the command codec. -/
def IsCmd (i : Instr) : Prop := (∃ c n v, i = .cmdWrite c n v) ∨ ∃ c n, i = .cmdRead c n

/-- The whole sequence of a CMD operation before its disable, with pulse `p` (R89, R90). -/
def IsCmdSequence (i : Instr) (p : Nat) (es : List Event) : Prop :=
  (∃ c n v, i = .cmdWrite c n v ∧ es = writeEvents p c n v) ∨ ∃ c n r, i = .cmdRead c n ∧ es = readEvents p c n r

theorem IsCmdSequence.onLink {i : Instr} {p : Nat} {es : List Event} (h : IsCmdSequence i p es) :
    ∀ e ∈ es, e.onLink = true := by
  obtain ⟨c, n, v, -, rfl⟩ | ⟨c, n, r, -, rfl⟩ := h
  · exact List.forall_mem_append.mpr
      ⟨List.forall_mem_append.mpr ⟨enableTrace_onLink p, txTrace_onLink p _⟩, txTrace_onLink p v⟩
  · exact List.forall_mem_append.mpr
      ⟨List.forall_mem_append.mpr ⟨enableTrace_onLink p, txTrace_onLink p _⟩, rxTrace_onLink p r⟩

/-- The failures that an access of the link can leave (R10 to R12). -/
theorem failureOf_mem_of_onLink {e : Event} (hlink : e.onLink = true) (haccess : e.isAccess = true) :
    failureOf e ∈ [Event.fail .lClk, .fail .lCe, .fail .lData, .failDir] := by
  cases e with
  | drive p _ | fail p => cases p <;> simp_all [Event.onLink, failureOf]
  | dir _ | sample _ | failDir => simp [failureOf]
  | wait _ => exact nomatch haccess

/-- A sequence of the link that fails ends with the failure of one of its accesses. -/
theorem FailsIn.ends_with_linkFailure {es f : List Event} (h : FailsIn es f) (hlink : ∀ e ∈ es, e.onLink = true) :
    ∃ start, ∃ failed ∈ [Event.fail .lClk, .fail .lCe, .fail .lData, .failDir], f = start ++ [failed] := by
  obtain ⟨before, e, after, rfl, haccess, rfl⟩ := h
  exact ⟨before, _, failureOf_mem_of_onLink (hlink e (by simp)) haccess, rfl⟩

/-! ### The outcome -/

/-- All a CMD operation can do (R89, R90, R93): refused on a link that is not configured, and else its sequence, whole or
up to the access that failed, and the attempt to drive L_CE low. -/
theorem exec_cmd_outcome {i : Instr} (hi : IsCmd i) (s : State) :
    s.link.cfg = false ∧ exec i s = .next (s.complete .precond) ∨
      s.link.cfg = true ∧ ∃ es f ev te res k, IsCmdSequence i s.link.pulse.toNat es ∧ (f = es ∨ FailsIn es f) ∧
        ReleaseAttempted s f ev te k ∧ exec i s = .next (linkLeft s ev te res k) := by
  obtain ⟨c, n, v, rfl⟩ | ⟨c, n, rfl⟩ := hi
  · have hseq : IsCmdSequence (.cmdWrite c n v) s.link.pulse.toNat _ := .inl ⟨c, n, v, rfl, rfl⟩
    obtain hrefused | ⟨hcfg, h | h | ⟨f, ev, te, v', hfail, -, hclose, h⟩⟩ := execCmdWrite_outcomes c n v s
    · exact .inl hrefused
    · exact .inr ⟨hcfg, _, _, _, _, _, _, hseq, .inl rfl, .inl ⟨rfl, rfl, .inl rfl⟩, h⟩
    · exact .inr ⟨hcfg, _, _, _, _, _, _, hseq, .inl rfl, .inr ⟨rfl, rfl⟩, h⟩
    · exact .inr ⟨hcfg, _, _, _, _, _, _, hseq, .inr hfail, .of_failed hclose, h⟩
  · obtain hrefused | ⟨hcfg, r, houtcome⟩ := execCmdRead_outcomes c n s
    · exact .inl hrefused
    have hseq : IsCmdSequence (.cmdRead c n) s.link.pulse.toNat _ := .inr ⟨c, n, r, rfl, rfl⟩
    obtain h | h | ⟨f, ev, te, v', hfail, -, hclose, h⟩ := houtcome
    · exact .inr ⟨hcfg, _, _, _, _, _, _, hseq, .inl rfl, .inl ⟨rfl, rfl, .inl rfl⟩, h⟩
    · exact .inr ⟨hcfg, _, _, _, _, _, _, hseq, .inl rfl, .inr ⟨rfl, rfl⟩, h⟩
    · exact .inr ⟨hcfg, _, _, _, _, _, _, hseq, .inr hfail, .of_failed hclose, h⟩

/-- No CMD operation completes with NOTREADY, configured or not (R91). -/
theorem exec_cmd_err_ne_notReady {i : Instr} (hi : IsCmd i) {s t : State} (h : exec i s = .next t) :
    t.status.err ≠ .notReady := by
  obtain ⟨-, hexec⟩ | ⟨-, es, f, ev, te, res, k, -, -, hrelease, hexec⟩ := exec_cmd_outcome hi s
  · obtain rfl := Host.Outcome.next.inj (hexec.symm.trans h)
    rw [State.complete_status, StatusBits.complete_err]
    decide
  · obtain rfl := Host.Outcome.next.inj (hexec.symm.trans h)
    rw [linkLeft_err]
    exact hrelease.ne_notReady

end Sys2Proof.Machine
end

section
/-! The statements about the release of L_CE and the re-check of the CMD operations, settled. -/

namespace Sys2Proof.Machine

/-- Settles O42: the operation's outcome, by the sequence it ran and by how the attempt to drive L_CE low ended. -/
theorem cmdAlwaysReleasesChipEnable : Obligations.CmdAlwaysReleasesChipEnable := by
  intro s i hcfg hi p
  obtain ⟨hunconfigured, -⟩ | ⟨-, es, f, ev, te, res, k, hseq, hbefore, hrelease, hexec⟩ := exec_cmd_outcome hi s
  · rw [hcfg] at hunconfigured
    exact nomatch hunconfigured
  refine ⟨_, f, hexec, ?before, ?release⟩
  case before =>
    obtain rfl | hfail := hbefore
    · exact hseq.imp_right .inl
    · exact .inr (.inr (hfail.ends_with_linkFailure hseq.onLink))
  case release =>
    obtain ⟨rfl, rfl, -⟩ | ⟨rfl, rfl⟩ := hrelease
    · refine .inl ⟨?_, linkLeft_lCe_of_disableTrace .., rfl⟩
      rw [linkLeft_trace, List.append_assoc]
      rfl
    · have hce := linkLeft_lCe_of_fail s f te res .ioFault
      have hpinx := pinUnknown_of_lCe hce
      refine .inr ⟨?_, hce, linkLeft_err .., hpinx, (statusWord_pinx _).trans hpinx⟩
      rw [linkLeft_trace, List.append_assoc]

/-- Settles O43: the two ways `link_enable` ends, and the codes of a CMD operation's outcome. -/
theorem cmdNeverCompletesNotReady : Obligations.CmdNeverCompletesNotReady := by
  refine ⟨fun s => ?enable, fun s i t hi h => exec_cmd_err_ne_notReady hi h⟩
  obtain h | ⟨ev, -, h⟩ := linkEnable_outcomes s
  · exact .inl ⟨_, h, rfl⟩
  · exact .inr ⟨_, h⟩

end Sys2Proof.Machine
end

section
/-! The statement about ERR.CLEAR, settled, with the operation's one outcome (R94). -/

namespace Sys2Proof.Machine

/-- The completion of ERR.CLEAR in the model's two steps: the body's clearing of the sticky bits, then the status update. -/
theorem exec_errClear (s : State) : exec .errClear s = .next (s.clearSticky.complete .ok) := by
  rw [exec, execErrClear, finish_done]

/-- The status update of an OK completion sets no sticky bit, so the cleared ones stay cleared (R97). -/
theorem clearSticky_complete_ok (s : State) :
    s.clearSticky.complete .ok =
      { s with status := { err := .ok, seIll := false, sePre := false, seIo := false, seNr := false } } := rfl

/-- Settles O45: the last row of the opcode map, and the one outcome of ERR.CLEAR. -/
theorem errClearClearsTheErrorStatus : Obligations.ErrClearClearsTheErrorStatus := by
  refine ⟨encodedAs_of_mem_opTable (List.getElem_mem (l := opTable) (n := 13) (by decide)), fun s => ?_⟩
  rw [exec_errClear, clearSticky_complete_ok]

end Sys2Proof.Machine
end

section
/-! SUPPORT. The status update of a completion (R97): each sticky bit after it, and which update each operation makes. -/

namespace Sys2Proof.Machine

/-! ### One completion -/

/-- A completion sets the sticky bit of the code it stores, and keeps the others (R97). -/
theorem StatusBits.complete_sticky (k : Completion) (b : StatusBits) :
    (b.complete k).seIll = (b.seIll || (b.complete k).err == .illegal) ∧
      (b.complete k).sePre = (b.sePre || (b.complete k).err == .precond) ∧
      (b.complete k).seIo = (b.seIo || (b.complete k).err == .ioFault) ∧
      (b.complete k).seNr = (b.seNr || (b.complete k).err == .notReady) := by
  rw [StatusBits.complete_err]
  cases k <;> simp [StatusBits.complete]

/-! ### Every operation -/

@[simp] theorem linkLeft_status (s : State) (ev : List Event) (te : Bool) (res : Option Word) (k : Completion) :
    (linkLeft s ev te res k).status = s.status.complete k :=
  congrArg (StatusBits.complete k) (performAll_status s ev)

/-- LINK.CONFIG completes once, on an otherwise untouched STATUS, legal or refused (R80). -/
theorem exec_linkConfig_status (ns : BitVec 24) (s : State) :
    ∃ t k, exec (.linkConfig ns) s = .next t ∧ t.status = s.status.complete k := by
  cases hns : pulseLegal ns with
  | false => exact ⟨_, .precond, by rw [exec, execLinkConfig, hns, require_false, finish_raised], rfl⟩
  | true =>
    cases hte : s.link.te with
    | true => exact ⟨_, .precond, exec_linkConfig_in_session ns hte, rfl⟩
    | false => exact ⟨_, .ok, exec_linkConfig_of_legal hns hte, rfl⟩

/-- Every operation but ERR.CLEAR does one thing to STATUS: the update of its completion (R97). -/
theorem exec_status_eq_complete {i : Instr} {s t : State} (hi : i ≠ .errClear) (h : exec i s = .next t) :
    ∃ k, t.status = s.status.complete k := by
  obtain hsr | hlink | herr := isSrOp_or_isLinkOp_or_errClear i
  · obtain ⟨ev, sr, k, res, hk, -⟩ := exec_srOp_outcome i s hsr
    obtain rfl := Host.Outcome.next.inj (hk.symm.trans h)
    exact ⟨k, congrArg (StatusBits.complete k) (performAll_status s ev)⟩
  · by_cases hcfg : ∃ ns, i = .linkConfig ns
    · obtain ⟨ns, rfl⟩ := hcfg
      obtain ⟨t', k, hk, hstatus⟩ := exec_linkConfig_status ns s
      obtain rfl := Host.Outcome.next.inj (hk.symm.trans h)
      exact ⟨k, hstatus⟩
    · obtain ⟨ev, te, res, k, hk⟩ := exec_linkOp_linkLeft s hlink fun ns hns => hcfg ⟨ns, hns⟩
      obtain rfl := Host.Outcome.next.inj (hk.symm.trans h)
      exact ⟨k, linkLeft_status s ev te res k⟩
  · exact absurd herr hi

end Sys2Proof.Machine
end

section
/-! The statement about the status update of a completion, settled. -/

namespace Sys2Proof.Machine

/-- Settles O47: the two ways a body ends, the one status update of each operation, and the completion of an illegal
word. -/
theorem completionUpdatesTheStatus : Obligations.CompletionUpdatesTheStatus := by
  refine ⟨fun s => ⟨finish_done s, finish_raised .illegal s, finish_raised .precondViolation s,
    finish_raised .ioFault s, finish_raised .linkNotReady s⟩, fun i s t h hi => ?_, fun w s e h => issue_of_illegal h s⟩
  obtain ⟨k, hk⟩ := exec_status_eq_complete hi h
  rw [hk]
  exact s.status.complete_sticky k

end Sys2Proof.Machine
end

section
/-! SUPPORT. Words as the concatenation of their fields (R54, R55): the encoded word of each layout lies in its row
with its operands in its fields, a word in a row is the concatenation of its fields with 0 in the reserved ones, and
the command byte's formula (R88) is the concatenation of R62. -/

namespace Sys2Proof

/-! ### Slices -/

/-- A slice that a mask compares whole is the pattern's slice. -/
theorem slice_eq_of_and_eq {w mask pattern : Word} (h : w &&& mask = pattern) {start len : Nat}
    (hmask : mask.extractLsb' start len = BitVec.allOnes len) :
    w.extractLsb' start len = pattern.extractLsb' start len := by
  rw [← h, BitVec.extractLsb'_and, hmask, BitVec.and_allOnes]

/-- One bit as a slice. -/
theorem ofBool_getLsbD {n : Nat} (x : BitVec n) (k : Nat) : BitVec.ofBool (x.getLsbD k) = x.extractLsb' k 1 := by
  ext i hi
  obtain rfl : i = 0 := by omega
  simp [BitVec.getElem_extractLsb']

@[simp] theorem BitOrder.ofBit_toBit (m : BitOrder) : BitOrder.ofBit m.toBit = m := by cases m <;> rfl
@[simp] theorem BitOrder.toBit_ofBit (b : Bool) : (BitOrder.ofBit b).toBit = b := by cases b <;> rfl
@[simp] theorem Personality.ofBit_toBit (p : Personality) : Personality.ofBit p.toBit = p := by cases p <;> rfl
@[simp] theorem Personality.toBit_ofBit (b : Bool) : (Personality.ofBit b).toBit = b := by cases b <;> rfl
@[simp] theorem RegClass.ofBit_toBit (c : RegClass) : RegClass.ofBit c.toBit = c := by cases c <;> rfl
@[simp] theorem RegClass.toBit_ofBit (b : Bool) : (RegClass.ofBit b).toBit = b := by cases b <;> rfl

/-! ### The fields of a concatenation -/

section fields
variable (cap : BitVec 16) (mode ord bit cls : Bool) (pulse : BitVec 24) (data opc : Byte) (index : BitVec 5)

theorem fieldCap_append :
    fieldCap ((0 : BitVec 6) ++ BitVec.ofBool ord ++ BitVec.ofBool mode ++ cap ++ opc) = cap := by
  rw [fieldCap, BitVec.extractLsb'_append_eq_of_le (by decide)]
  exact BitVec.extractLsb'_append_eq_right

theorem fieldMode_append :
    fieldMode ((0 : BitVec 6) ++ BitVec.ofBool ord ++ BitVec.ofBool mode ++ cap ++ opc) = .ofBit mode := by
  simp only [fieldMode, BitVec.getLsbD_append]
  simp

theorem fieldOrd_append :
    fieldOrd ((0 : BitVec 6) ++ BitVec.ofBool ord ++ BitVec.ofBool mode ++ cap ++ opc) = .ofBit ord := by
  simp only [fieldOrd, BitVec.getLsbD_append]
  simp

theorem fieldBit_append : fieldBit ((0 : BitVec 23) ++ BitVec.ofBool bit ++ opc) = bit := by
  simp only [fieldBit, BitVec.getLsbD_append]
  simp

theorem fieldPulse_append : fieldPulse (pulse ++ opc) = pulse := BitVec.extractLsb'_append_eq_left

theorem fieldByte_append {n : Nat} (hi : BitVec n) : (hi ++ data ++ opc).extractLsb' 8 8 = data := by
  rw [BitVec.extractLsb'_append_eq_of_le (by decide)]
  exact BitVec.extractLsb'_append_eq_right

theorem fieldIndex_append :
    fieldIndex ((0 : BitVec 7) ++ BitVec.ofBool cls ++ (0 : BitVec 3) ++ index ++ data ++ opc) = index := by
  rw [fieldIndex, BitVec.extractLsb'_append_eq_of_le (by decide), BitVec.extractLsb'_append_eq_of_le (by decide)]
  exact BitVec.extractLsb'_append_eq_right

theorem fieldClass_append :
    fieldClass ((0 : BitVec 7) ++ BitVec.ofBool cls ++ (0 : BitVec 3) ++ index ++ data ++ opc) = .ofBit cls := by
  simp only [fieldClass, BitVec.getLsbD_append]
  simp

end fields

/-! ### Every encoded word decodes -/

/-- A concatenation is masked part by part. -/
theorem append_and_append {m n : Nat} {x a p : BitVec m} {y b q : BitVec n} (hx : x &&& a = p) (hy : y &&& b = q) :
    (x ++ y) &&& (a ++ b) = p ++ q := by
  rw [BitVec.and_append, hx, hy]

/-- A word that lies in the `n`-th row of the opcode map decodes to that row's operation (R57). -/
theorem decodeWord_of_getElem {w mask pattern : Word} {i : Instr} (n : Nat) (hn : n < opTable.length)
    (hrow : w &&& mask = pattern) (hmask : opTable[n].mask = mask) (hpattern : opTable[n].pattern = pattern)
    (hfields : opTable[n].build w = i) : decodeWord w = .ok i := by
  rw [← hmask, ← hpattern] at hrow
  rw [decodeWord_of_row (List.getElem_mem hn) hrow, hfields]

theorem decodeWord_srConfig (cap : BitVec 16) (mode : BitOrder) (ord : Personality) :
    decodeWord ((0 : BitVec 6) ++ BitVec.ofBool ord.toBit ++ BitVec.ofBool mode.toBit ++ cap ++ (0x01 : Byte)) =
      .ok (.srConfig cap mode ord) := by
  have hrow := append_and_append (append_and_append (append_and_append (append_and_append
    (BitVec.and_allOnes (x := (0 : BitVec 6))) (BitVec.and_zero (x := BitVec.ofBool ord.toBit)))
    (BitVec.and_zero (x := BitVec.ofBool mode.toBit))) (BitVec.and_zero (x := cap)))
    (BitVec.and_allOnes (x := (0x01 : Byte)))
  refine decodeWord_of_getElem 0 (by decide) hrow rfl rfl ?_
  show Instr.srConfig (fieldCap _) (fieldMode _) (fieldOrd _) = _
  rw [fieldCap_append, fieldMode_append, fieldOrd_append, BitOrder.ofBit_toBit, Personality.ofBit_toBit]

theorem decodeWord_srLoad (bit : Bool) :
    decodeWord ((0 : BitVec 23) ++ BitVec.ofBool bit ++ (0x02 : Byte)) = .ok (.srLoad bit) := by
  have hrow := append_and_append (append_and_append (BitVec.and_allOnes (x := (0 : BitVec 23)))
    (BitVec.and_zero (x := BitVec.ofBool bit))) (BitVec.and_allOnes (x := (0x02 : Byte)))
  exact decodeWord_of_getElem 1 (by decide) hrow rfl rfl (congrArg Instr.srLoad (fieldBit_append bit _))

theorem decodeWord_linkConfig (pulse : BitVec 24) : decodeWord (pulse ++ (0x10 : Byte)) = .ok (.linkConfig pulse) := by
  have hrow := append_and_append (BitVec.and_zero (x := pulse)) (BitVec.and_allOnes (x := (0x10 : Byte)))
  exact decodeWord_of_getElem 5 (by decide) hrow rfl rfl (congrArg Instr.linkConfig (fieldPulse_append pulse _))

theorem decodeWord_linkTx (data : Byte) :
    decodeWord ((0 : BitVec 16) ++ data ++ (0x13 : Byte)) = .ok (.linkTx data) := by
  have hrow := append_and_append (append_and_append (BitVec.and_allOnes (x := (0 : BitVec 16)))
    (BitVec.and_zero (x := data))) (BitVec.and_allOnes (x := (0x13 : Byte)))
  exact decodeWord_of_getElem 8 (by decide) hrow rfl rfl (congrArg Instr.linkTx (fieldByte_append data _ _))

/-- The part of the two CMD layouts above the byte (R55), masked: only the reserved bits are compared. -/
theorem cmdLayout_and (cls : Bool) (index : BitVec 5) :
    ((0 : BitVec 7) ++ BitVec.ofBool cls ++ (0 : BitVec 3) ++ index) &&&
      (BitVec.allOnes 7 ++ 0#1 ++ BitVec.allOnes 3 ++ 0#5) = (0 : BitVec 7) ++ 0#1 ++ (0 : BitVec 3) ++ 0#5 :=
  append_and_append (append_and_append (append_and_append BitVec.and_allOnes BitVec.and_zero) BitVec.and_allOnes)
    BitVec.and_zero

theorem decodeWord_cmdWrite (cls : RegClass) (index : BitVec 5) (value : Byte) :
    decodeWord ((0 : BitVec 7) ++ BitVec.ofBool cls.toBit ++ (0 : BitVec 3) ++ index ++ value ++ (0x20 : Byte)) =
      .ok (.cmdWrite cls index value) := by
  have hrow := append_and_append (append_and_append (cmdLayout_and cls.toBit index) (BitVec.and_zero (x := value)))
    (BitVec.and_allOnes (x := (0x20 : Byte)))
  refine decodeWord_of_getElem 11 (by decide) hrow rfl rfl ?_
  show Instr.cmdWrite (fieldClass _) (fieldIndex _) (fieldByte _) = _
  rw [fieldClass_append, fieldIndex_append, fieldByte, fieldByte_append, RegClass.ofBit_toBit]

theorem decodeWord_cmdRead (cls : RegClass) (index : BitVec 5) :
    decodeWord ((0 : BitVec 7) ++ BitVec.ofBool cls.toBit ++ (0 : BitVec 3) ++ index ++ (0 : Byte) ++ (0x21 : Byte)) =
      .ok (.cmdRead cls index) := by
  have hrow := append_and_append (append_and_append (cmdLayout_and cls.toBit index)
    (BitVec.and_allOnes (x := (0 : Byte)))) (BitVec.and_allOnes (x := (0x21 : Byte)))
  refine decodeWord_of_getElem 12 (by decide) hrow rfl rfl ?_
  show Instr.cmdRead (fieldClass _) (fieldIndex _) = _
  rw [fieldClass_append, fieldIndex_append, RegClass.ofBit_toBit]

/-! ### Every wire byte decodes -/

/-- The bits of a wire byte that select its row (R62): all but the index. -/
theorem wireByte_and (cls : RegClass) (rw : Rw) (index : BitVec 5) :
    wireByte cls rw index &&& 0xC1 = wireByte cls rw 0 :=
  append_and_append (append_and_append (append_and_append (BitVec.and_allOnes (x := (1 : BitVec 1)))
    (BitVec.and_allOnes (x := BitVec.ofBool cls.toBit))) (BitVec.and_zero (x := index)))
    (BitVec.and_allOnes (x := BitVec.ofBool rw.toBit))

@[simp] theorem wireIndex_wireByte (cls : RegClass) (rw : Rw) (index : BitVec 5) :
    wireIndex (wireByte cls rw index) = index := by
  rw [wireIndex, wireByte, BitVec.extractLsb'_append_eq_of_le (by decide)]
  exact BitVec.extractLsb'_append_eq_right

theorem decodeWire_writeRam (index : BitVec 5) :
    decodeWire (wireByte .ram .write index) = .ok (.cmdbyteWriteRam index) := by
  rw [decodeWire, wireByte_and, wireIndex_wireByte]
  rfl

theorem decodeWire_readRam (index : BitVec 5) :
    decodeWire (wireByte .ram .read index) = .ok (.cmdbyteReadRam index) := by
  rw [decodeWire, wireByte_and, wireIndex_wireByte]
  rfl

theorem decodeWire_writeRtc (index : BitVec 5) :
    decodeWire (wireByte .rtc .write index) = .ok (.cmdbyteWriteRtc index) := by
  rw [decodeWire, wireByte_and, wireIndex_wireByte]
  rfl

theorem decodeWire_readRtc (index : BitVec 5) :
    decodeWire (wireByte .rtc .read index) = .ok (.cmdbyteReadRtc index) := by
  rw [decodeWire, wireByte_and, wireIndex_wireByte]
  rfl

/-- Every instruction's code decodes to it. -/
theorem decode_encode (i : Instr) : decode (encode i) = .ok i := by
  cases i with
  | srConfig cap mode ord => exact decodeWord_srConfig cap mode ord
  | srLoad bit => exact decodeWord_srLoad bit
  | linkConfig pulse => exact decodeWord_linkConfig pulse
  | linkTx data => exact decodeWord_linkTx data
  | cmdWrite cls index value => exact decodeWord_cmdWrite cls index value
  | cmdRead cls index => exact decodeWord_cmdRead cls index
  | cmdbyteWriteRam index => exact decodeWire_writeRam index
  | cmdbyteReadRam index => exact decodeWire_readRam index
  | cmdbyteWriteRtc index => exact decodeWire_writeRtc index
  | cmdbyteReadRtc index => exact decodeWire_readRtc index
  | srCommit | srClear | srIsfull | linkEnable | linkDisable | linkRx | linkIsen | errClear => rfl

/-! ### A word in a row is the concatenation of its fields -/

theorem slices_srConfig (w : Word) :
    w.extractLsb' 26 6 ++ w.extractLsb' 25 1 ++ w.extractLsb' 24 1 ++ w.extractLsb' 8 16 ++ w.extractLsb' 0 8 = w := by
  rw [BitVec.extractLsb'_append_extractLsb'_eq_extractLsb' (show 26 = 25 + 1 from rfl),
    BitVec.extractLsb'_append_extractLsb'_eq_extractLsb' (show 25 = 24 + 1 from rfl),
    BitVec.extractLsb'_append_extractLsb'_eq_extractLsb' (show 24 = 8 + 16 from rfl),
    BitVec.extractLsb'_append_extractLsb'_eq_extractLsb' (show 8 = 0 + 8 from rfl)]
  exact BitVec.extractLsb'_eq_self

theorem slices_srLoad (w : Word) : w.extractLsb' 9 23 ++ w.extractLsb' 8 1 ++ w.extractLsb' 0 8 = w := by
  rw [BitVec.extractLsb'_append_extractLsb'_eq_extractLsb' (show 9 = 8 + 1 from rfl),
    BitVec.extractLsb'_append_extractLsb'_eq_extractLsb' (show 8 = 0 + 8 from rfl)]
  exact BitVec.extractLsb'_eq_self

theorem slices_linkConfig (w : Word) : w.extractLsb' 8 24 ++ w.extractLsb' 0 8 = w := by
  rw [BitVec.extractLsb'_append_extractLsb'_eq_extractLsb' (show 8 = 0 + 8 from rfl)]
  exact BitVec.extractLsb'_eq_self

theorem slices_linkTx (w : Word) : w.extractLsb' 16 16 ++ w.extractLsb' 8 8 ++ w.extractLsb' 0 8 = w := by
  rw [BitVec.extractLsb'_append_extractLsb'_eq_extractLsb' (show 16 = 8 + 8 from rfl),
    BitVec.extractLsb'_append_extractLsb'_eq_extractLsb' (show 8 = 0 + 8 from rfl)]
  exact BitVec.extractLsb'_eq_self

theorem slices_cmd (w : Word) :
    w.extractLsb' 25 7 ++ w.extractLsb' 24 1 ++ w.extractLsb' 21 3 ++ w.extractLsb' 16 5 ++ w.extractLsb' 8 8 ++
      w.extractLsb' 0 8 = w := by
  rw [BitVec.extractLsb'_append_extractLsb'_eq_extractLsb' (show 25 = 24 + 1 from rfl),
    BitVec.extractLsb'_append_extractLsb'_eq_extractLsb' (show 24 = 21 + 3 from rfl),
    BitVec.extractLsb'_append_extractLsb'_eq_extractLsb' (show 21 = 16 + 5 from rfl),
    BitVec.extractLsb'_append_extractLsb'_eq_extractLsb' (show 16 = 8 + 8 from rfl),
    BitVec.extractLsb'_append_extractLsb'_eq_extractLsb' (show 8 = 0 + 8 from rfl)]
  exact BitVec.extractLsb'_eq_self

/-- A word that decodes lies in the row it decodes by (R58). -/
theorem exists_row_of_decodeWord {w : Word} {i : Instr} (h : decodeWord w = .ok i) :
    ∃ r ∈ opTable, w &&& r.mask = r.pattern ∧ i = r.build w := by
  rw [decodeWord] at h
  cases hfind : opTable.find? fun r => r.selects w with
  | none => simp [hfind] at h
  | some r =>
    rw [hfind] at h
    have hselects := List.find?_some (p := fun r : OpRow => r.selects w) hfind
    exact ⟨r, List.mem_of_find?_eq_some hfind, (r.selects_iff w).mp hselects, (Except.ok.inj h).symm⟩

/-- A row that compares every bit holds one word (L-NONE, R55). -/
theorem eq_of_and_eq {w pattern : Word} (h : w &&& 0xFFFFFFFF = pattern) : w = pattern := by
  rw [← h]
  exact BitVec.and_allOnes.symm

/-- A word in the row of an operation with operands is the encoding of its fields: its reserved slices are the
pattern's (R55). -/
theorem encode_srConfig_of_row {w : Word} (h : w &&& 0xFC0000FF = 0x00000001) :
    encode (.srConfig (fieldCap w) (fieldMode w) (fieldOrd w)) = .word w := by
  refine congrArg Code.word (Eq.trans ?_ (slices_srConfig w))
  rw [slice_eq_of_and_eq h (start := 26) (len := 6) rfl, slice_eq_of_and_eq h (start := 0) (len := 8) rfl, fieldOrd,
    fieldMode, Personality.toBit_ofBit, BitOrder.toBit_ofBit, ofBool_getLsbD, ofBool_getLsbD, fieldCap]
  rfl

theorem encode_srLoad_of_row {w : Word} (h : w &&& 0xFFFFFEFF = 0x00000002) :
    encode (.srLoad (fieldBit w)) = .word w := by
  refine congrArg Code.word (Eq.trans ?_ (slices_srLoad w))
  rw [slice_eq_of_and_eq h (start := 9) (len := 23) rfl, slice_eq_of_and_eq h (start := 0) (len := 8) rfl, fieldBit,
    ofBool_getLsbD]
  rfl

theorem encode_linkConfig_of_row {w : Word} (h : w &&& 0x000000FF = 0x00000010) :
    encode (.linkConfig (fieldPulse w)) = .word w := by
  refine congrArg Code.word (Eq.trans ?_ (slices_linkConfig w))
  rw [slice_eq_of_and_eq h (start := 0) (len := 8) rfl]
  rfl

theorem encode_linkTx_of_row {w : Word} (h : w &&& 0xFFFF00FF = 0x00000013) :
    encode (.linkTx (fieldByte w)) = .word w := by
  refine congrArg Code.word (Eq.trans ?_ (slices_linkTx w))
  rw [slice_eq_of_and_eq h (start := 16) (len := 16) rfl, slice_eq_of_and_eq h (start := 0) (len := 8) rfl]
  rfl

theorem encode_cmdWrite_of_row {w : Word} (h : w &&& 0xFEE000FF = 0x00000020) :
    encode (.cmdWrite (fieldClass w) (fieldIndex w) (fieldByte w)) = .word w := by
  refine congrArg Code.word (Eq.trans ?_ (slices_cmd w))
  rw [slice_eq_of_and_eq h (start := 25) (len := 7) rfl, slice_eq_of_and_eq h (start := 21) (len := 3) rfl,
    slice_eq_of_and_eq h (start := 0) (len := 8) rfl, fieldClass, RegClass.toBit_ofBit, ofBool_getLsbD]
  rfl

theorem encode_cmdRead_of_row {w : Word} (h : w &&& 0xFEE0FFFF = 0x00000021) :
    encode (.cmdRead (fieldClass w) (fieldIndex w)) = .word w := by
  refine congrArg Code.word (Eq.trans ?_ (slices_cmd w))
  rw [slice_eq_of_and_eq h (start := 25) (len := 7) rfl, slice_eq_of_and_eq h (start := 21) (len := 3) rfl,
    slice_eq_of_and_eq h (start := 8) (len := 8) rfl, slice_eq_of_and_eq h (start := 0) (len := 8) rfl, fieldClass,
    RegClass.toBit_ofBit, ofBool_getLsbD]
  rfl

/-- A row without operands compares every bit, so it holds one word (L-NONE, R55). -/
theorem word_eq_of_whole_row {w pattern : Word} (h : w &&& 0xFFFFFFFF = pattern) : Code.word pattern = .word w := by
  rw [← h]
  exact congrArg Code.word BitVec.and_allOnes

/-- What a row of the opcode map builds from a word that it selects is encoded as that word: no bit is dropped and the
reserved bits are 0 (R55, R57). -/
theorem encode_build {r : OpRow} (hr : r ∈ opTable) {w : Word} (h : w &&& r.mask = r.pattern) :
    encode (r.build w) = .word w := by
  simp only [opTable, List.mem_cons, List.not_mem_nil, or_false] at hr
  rcases hr with rfl | rfl | rfl | rfl | rfl | rfl | rfl | rfl | rfl | rfl | rfl | rfl | rfl | rfl
  exacts [encode_srConfig_of_row h, encode_srLoad_of_row h, word_eq_of_whole_row h, word_eq_of_whole_row h,
    word_eq_of_whole_row h, encode_linkConfig_of_row h, word_eq_of_whole_row h, word_eq_of_whole_row h,
    encode_linkTx_of_row h, word_eq_of_whole_row h, word_eq_of_whole_row h, encode_cmdWrite_of_row h,
    encode_cmdRead_of_row h, word_eq_of_whole_row h]

theorem encode_of_decodeWord {w : Word} {i : Instr} (h : decodeWord w = .ok i) : encode i = .word w := by
  obtain ⟨r, hr, hrow, rfl⟩ := exists_row_of_decodeWord h
  exact encode_build hr hrow

/-! ### A wire byte is the concatenation of its fields -/

theorem slices_wireByte (b : Byte) :
    b.extractLsb' 7 1 ++ b.extractLsb' 6 1 ++ b.extractLsb' 1 5 ++ b.extractLsb' 0 1 = b := by
  rw [BitVec.extractLsb'_append_extractLsb'_eq_extractLsb' (show 7 = 6 + 1 from rfl),
    BitVec.extractLsb'_append_extractLsb'_eq_extractLsb' (show 6 = 1 + 5 from rfl),
    BitVec.extractLsb'_append_extractLsb'_eq_extractLsb' (show 1 = 0 + 1 from rfl)]
  exact BitVec.extractLsb'_eq_self

/-- A byte with the fixed bits of a class and a direction is the command byte of its index (R62). -/
theorem wireByte_wireIndex {b : Byte} {cls : RegClass} {rw : Rw} (h : b &&& 0xC1 = wireByte cls rw 0) :
    wireByte cls rw (wireIndex b) = b := by
  have hslice {start : Nat} (hmask : (0xC1 : Byte).extractLsb' start 1 = BitVec.allOnes 1) :
      b.extractLsb' start 1 = (wireByte cls rw 0).extractLsb' start 1 := by
    rw [← h, BitVec.extractLsb'_and, hmask, BitVec.and_allOnes]
  refine Eq.trans ?_ (slices_wireByte b)
  rw [hslice (start := 7) rfl, hslice (start := 6) rfl, hslice (start := 0) rfl]
  cases cls <;> cases rw <;> rfl

theorem encode_of_decodeWire {b : Byte} {i : Instr} (h : decodeWire b = .ok i) : encode i = .wire b := by
  unfold decodeWire at h
  split_ifs at h with hwriteRam hreadRam hwriteRtc hreadRtc
  · obtain rfl := Except.ok.inj h
    exact congrArg Code.wire (wireByte_wireIndex (beq_iff_eq.mp hwriteRam))
  · obtain rfl := Except.ok.inj h
    exact congrArg Code.wire (wireByte_wireIndex (beq_iff_eq.mp hreadRam))
  · obtain rfl := Except.ok.inj h
    exact congrArg Code.wire (wireByte_wireIndex (beq_iff_eq.mp hwriteRtc))
  · obtain rfl := Except.ok.inj h
    exact congrArg Code.wire (wireByte_wireIndex (beq_iff_eq.mp hreadRtc))

/-! ### The command byte -/

section commandByte
variable (cls : RegClass) (rw : Rw) (index : BitVec 5)

/-- The formula of R88 gives the fields of R62: a check of the 128 command bytes. -/
theorem cmdByte_eq_wireByte : Machine.cmdByte cls rw index = wireByte cls rw index := by
  revert index
  cases cls <;> cases rw <;> decide

@[simp] theorem wireByte_bit7 : (wireByte cls rw index).getLsbD 7 = true := by
  simp only [wireByte, BitVec.getLsbD_append]
  simp

@[simp] theorem wireByte_class : (wireByte cls rw index).getLsbD 6 = cls.toBit := by
  simp only [wireByte, BitVec.getLsbD_append]
  simp

@[simp] theorem wireByte_rw : (wireByte cls rw index).getLsbD 0 = rw.toBit := by
  simp only [wireByte, BitVec.getLsbD_append]
  simp

end commandByte

theorem RegClass.toBit_injective : Function.Injective RegClass.toBit :=
  Function.LeftInverse.injective RegClass.ofBit_toBit

theorem Rw.toBit_injective : Function.Injective Rw.toBit := by
  rintro (_ | _) (_ | _) h
  · rfl
  · exact nomatch h
  · exact nomatch h
  · rfl

/-- A command byte is read back field by field, so its operands are known from it. -/
theorem wireByte_injective {c c' : RegClass} {r r' : Rw} {i i' : BitVec 5} (h : wireByte c r i = wireByte c' r' i') :
    c = c' ∧ r = r' ∧ i = i' := by
  refine ⟨RegClass.toBit_injective ?_, Rw.toBit_injective ?_, ?_⟩
  · rw [← wireByte_class c r i, h, wireByte_class]
  · rw [← wireByte_rw c r i, h, wireByte_rw]
  · rw [← wireIndex_wireByte c r i, h, wireIndex_wireByte]

/-- Five bits fill no more than the low five of eight. -/
theorem index_and_eq (index : BitVec 5) : (index.setWidth 8 &&& 0x1F : Byte) = index.setWidth 8 := by
  revert index
  decide

end Sys2Proof
end

section
/-! The statements about the encoding, settled. -/

namespace Sys2Proof.Machine

/-- Settles O1: each instruction's word or byte is read back field by field, and its bytes are put together again. -/
theorem decodeEncodeRoundTrip : Obligations.DecodeEncodeRoundTrip := by
  intro i
  rw [decodeBytes_bytes]
  exact ⟨decode_encode i, decode_encode i⟩

/-- Settles O2: a word or byte in a row is the concatenation of its fields and the row's fixed bits. -/
theorem decodedCodeIsTheEncoding : Obligations.DecodedCodeIsTheEncoding :=
  ⟨fun _ _ => encode_of_decodeWord, fun _ _ => encode_of_decodeWire⟩

/-- Settles O3: the rows of the opcode map, and one word or byte in each. -/
theorem writtenOutWordsDecode : Obligations.WrittenOutWordsDecode := by
  have hrow (n : Nat) (hn : n < opTable.length) := encodedAs_of_mem_opTable (List.getElem_mem hn)
  refine ⟨hrow 0 (by decide) _ rfl, hrow 1 (by decide) _ rfl, hrow 2 (by decide) _ rfl, hrow 3 (by decide) _ rfl,
    hrow 4 (by decide) _ rfl, hrow 5 (by decide) _ rfl, hrow 6 (by decide) _ rfl, hrow 7 (by decide) _ rfl,
    hrow 8 (by decide) _ rfl, hrow 9 (by decide) _ rfl, hrow 10 (by decide) _ rfl, hrow 11 (by decide) _ rfl,
    hrow 12 (by decide) _ rfl, hrow 13 (by decide) _ rfl, ?_, ?_, ?_, ?_, hrow 1 (by decide), hrow 2 (by decide),
    hrow 3 (by decide), hrow 6 (by decide), hrow 8 (by decide), hrow 9 (by decide), hrow 11 (by decide),
    hrow 12 (by decide)⟩
  exacts [decodeWire_writeRam 5, decodeWire_readRam 31, decodeWire_writeRtc 31, decodeWire_readRtc 2]

/-- Settles O5: the formula gives the wire byte, whose fields are read back one by one. -/
theorem commandByteHasItsFields : Obligations.CommandByteHasItsFields := by
  refine ⟨fun cls rw index => ?fields, fun c r i c' r' i' h => ?injective, fun i => ?readBack, ⟨rfl, rfl, rfl, rfl⟩,
    ⟨rfl, rfl, rfl, rfl⟩, rfl, rfl⟩
  case fields =>
    rw [cmdByte_eq_wireByte]
    exact ⟨wireByte_bit7 cls rw index, wireByte_class cls rw index, wireIndex_wireByte cls rw index,
      wireByte_rw cls rw index, rfl, index_and_eq index⟩
  case injective =>
    rw [cmdByte_eq_wireByte, cmdByte_eq_wireByte] at h
    exact wireByte_injective h
  case readBack =>
    simp only [cmdByte_eq_wireByte]
    exact ⟨decodeWire_writeRam i, decodeWire_readRam i, decodeWire_writeRtc i, decodeWire_readRtc i⟩

end Sys2Proof.Machine
end

section
/-! SUPPORT. All the ways any operation can complete, said once for all of them: refused, whole, or failed part way.
Each comes with the operation's events, so that what holds of every operation is read off its sequence. -/

namespace Sys2Proof.Machine

/-! ### What events leave -/

/-- `t` is as the events `ev` leave `s`, in all that events write and in the host's side. -/
structure Performs (s : State) (ev : List Event) (t : State) : Prop where
  params : t.params = s.params
  host : t.host = s.host
  replies : t.replies = s.replies
  trace : t.trace = s.trace ++ ev
  accesses : t.accesses = s.accesses + accessCount ev
  lines : t.lines = (s.performAll ev).lines
  env : t.env = (s.performAll ev).env

section performs
variable {s t : State} {ev : List Event}

theorem performs_performAll (s : State) (ev : List Event) : Performs s ev (s.performAll ev) :=
  ⟨performAll_params s ev, performAll_host s ev, performAll_replies s ev, performAll_trace s ev,
    performAll_accesses s ev, rfl, rfl⟩

theorem performs_nil (s : State) : Performs s [] s := performs_performAll s []

/-- The fields that no event writes are free. -/
theorem Performs.with_fields (h : Performs s ev t) {u : State} (hparams : u.params = t.params) (hhost : u.host = t.host)
    (hreplies : u.replies = t.replies) (htrace : u.trace = t.trace) (haccesses : u.accesses = t.accesses)
    (hlines : u.lines = t.lines) (henv : u.env = t.env) : Performs s ev u :=
  ⟨hparams.trans h.params, hhost.trans h.host, hreplies.trans h.replies, htrace.trans h.trace,
    haccesses.trans h.accesses, hlines.trans h.lines, henv.trans h.env⟩

theorem Performs.complete (h : Performs s ev t) (k : Completion) : Performs s ev (t.complete k) :=
  h.with_fields rfl rfl rfl rfl rfl rfl rfl

theorem Performs.setBrem (h : Performs s ev t) (v : BitVec 16) : Performs s ev (t.setBrem v) :=
  h.with_fields rfl rfl rfl rfl rfl rfl rfl

theorem Performs.srCleanup (h : Performs s ev t) : Performs s ev t.srCleanup :=
  h.with_fields rfl rfl rfl rfl rfl rfl rfl

theorem performs_linkLeft (s : State) (ev : List Event) (te : Bool) (res : Option Word) (k : Completion) :
    Performs s ev (linkLeft s ev te res k) := (performs_performAll s ev).with_fields rfl rfl rfl rfl rfl rfl rfl

theorem Performs.pins (h : Performs s ev t) : t.pins = (s.performAll ev).pins := congrArg Lines.pins h.lines

end performs

/-! ### The sequence of an operation -/

/-- A replay of as many bits as the capacity and a latch pulse (R68, R69). -/
def IsFullReplay (s : State) (es : List Event) : Prop :=
  ∃ bits, (SrInv s.params s.sr → bits.length = s.sr.cap.toNat) ∧
    es = replayTrace s.params.srPulseNs bits ++ latchTrace

/-- The events of an operation that no access interrupts, without the release of L_CE that ends some (R66 to R90). -/
def IsBody (s : State) (es : List Event) : Instr → Prop
  | .srLoad b => es = match s.sr.ord with | .base => loadTrace s.params.srPulseNs b | .ordered => []
  | .srCommit => match s.sr.ord with | .base => es = latchTrace | .ordered => IsFullReplay s es
  | .srClear => IsFullReplay s es
  | .linkEnable => es = enableTrace s.link.pulse.toNat
  | .linkTx x => es = txTrace s.link.pulse.toNat x
  | .linkRx => ∃ r, es = rxTrace s.link.pulse.toNat r
  | .cmdWrite c n v => es = writeEvents s.link.pulse.toNat c n v
  | .cmdRead c n => ∃ r, es = readEvents s.link.pulse.toNat c n r
  | .cmdbyteWriteRam n => es = txTrace s.link.pulse.toNat (cmdByte .ram .write n)
  | .cmdbyteReadRam n => es = txTrace s.link.pulse.toNat (cmdByte .ram .read n)
  | .cmdbyteWriteRtc n => es = txTrace s.link.pulse.toNat (cmdByte .rtc .write n)
  | .cmdbyteReadRtc n => es = txTrace s.link.pulse.toNat (cmdByte .rtc .read n)
  | .srConfig .. | .srIsfull | .linkConfig _ | .linkDisable | .linkIsen | .errClear => es = []

/-- The operations that end with L_CE driven low (R82, R89, R90). -/
def releasesCe : Instr → Bool
  | .linkDisable | .cmdWrite .. | .cmdRead .. => true
  | _ => false

/-- The events that end an operation that completes with OK. -/
def closing (i : Instr) (p : Nat) : List Event := if releasesCe i then disableTrace p else []

/-- transferEnabled after an operation that completes with OK (R75, R76). -/
def teAfter (i : Instr) (te : Bool) : Bool :=
  match i with
  | .linkEnable => true
  | .linkDisable | .cmdWrite .. | .cmdRead .. => false
  | _ => te

/-- The events of the cleanup of a failed operation, none for the engine's, and the transferEnabled that it leaves (R65,
R79, R89). -/
inductive IsCleanup (i : Instr) (s t : State) : List Event → Prop
  | engine (hi : isSrOp i = true) : IsCleanup i s t []
  | closed (hi : isLinkOp i = true) (hte : t.link.te = false) : IsCleanup i s t (disableTrace s.link.pulse.toNat)
  | unknown (hi : isLinkOp i = true) (hte : releasesCe i = false → t.link.te = s.link.te) : IsCleanup i s t [.fail .lCe]

/-- All the ways the operation `i` can complete from `s`, with the state `t` it leaves. -/
inductive Completes (i : Instr) (s t : State) : Prop
  /-- A check fails, and nothing but STATUS changes. -/
  | refused (k : Completion) (hk : k = .precond ∨ k = .notReady) (ht : t = s.refusedWith k)
  /-- Every access succeeds. -/
  | whole (es : List Event) (hbody : IsBody s es i) (hran : Performs s (es ++ closing i s.link.pulse.toNat) t)
      (herr : t.status.err = .ok) (hte : isLinkOp i = true → t.link.te = teAfter i s.link.te)
      (hresult : if returnsValue i then ∃ v, t.result = some v else t.result = s.result)
  /-- An access fails, in the sequence or at its final release of L_CE, and the cleanup follows. -/
  | failed (es f c : List Event) (hbody : IsBody s es i)
      (hfails : FailsIn es f ∨ releasesCe i = true ∧ f = es ∧ c = [.fail .lCe])
      (hcleanup : IsCleanup i s t c) (hran : Performs s (f ++ c) t) (herr : t.status.err = .ioFault)
      (hresult : t.result = s.result)

/-! ### The bodies of SR.COMMIT and SR.CLEAR as one attempt -/

/-- A body's result with its state changed, by `f` where it ended well and by `g` where it raised. -/
def Result.mapStates {α : Type} (f g : State → State) : Result α → Result α
  | .done a s => .done a (f s)
  | .raised e s => .raised e (g s)

@[simp] theorem mapStates_done {α : Type} (f g : State → State) (a : α) (s : State) :
    (Result.done a s).mapStates f g = .done a (f s) := Eq.trans rfl rfl

@[simp] theorem mapStates_raised {α : Type} (f g : State → State) (e : Err) (s : State) :
    (Result.raised e s : Result α).mapStates f g = .raised e (g s) := Eq.trans rfl rfl

theorem mapStates_mapStates {α : Type} (f g f' g' : State → State) (r : Result α) :
    (r.mapStates f g).mapStates f' g' = r.mapStates (f' ∘ f) (g' ∘ g) := by
  cases r <;> rfl

/-- A change of fields that no event reads or writes rides along an attempt. -/
theorem attempt_commutes (f : State → State) (hperform : ∀ s e, (f s).perform e = f (s.perform e))
    (hfails : ∀ s, (f s).nextFails = s.nextFails) (es : List Event) (s : State) :
    attempt es (f s) = (attempt es s).mapStates f f := by
  induction es generalizing s with
  | nil => rfl
  | cons e es ih =>
    simp only [attempt, hperform, hfails]
    split
    · rfl
    · exact ih _

/-- What a commit that ends well leaves of the engine (R64, R68). -/
def committed (e : SrEngine) (s : State) : State :=
  match e.ord with
  | .base => s.setBrem e.cap
  | .ordered => s.srCleanup

theorem committed_result (e : SrEngine) (s : State) : (committed e s).result = s.result := by
  rw [committed]
  cases e.ord <;> rfl

/-- The events of a commit (R68). -/
def commitTrace (ps : Nat) (e : SrEngine) : List Event :=
  match e.ord with
  | .base => latchTrace
  | .ordered => replayTrace ps e.drainOrder ++ latchTrace

/-- The bits that SR.CLEAR shifts out (R69): a capacity of zeros, in the ordered personality after what the buffer
holds, which is nothing wherever the invariant holds. -/
def clearedBits (e : SrEngine) : List Bool :=
  match e.ord with
  | .base => List.replicate e.cap.toNat false
  | .ordered => e.mode.drain (e.buf ++ List.replicate e.cap.toNat false)

/-- SR.COMMIT on an engine that is ready for it attempts its events (R68). -/
theorem srCommitBody_eq_attempt {s : State} (hcfg : s.sr.cfg = true) (hfull : s.sr.ord = .ordered → s.sr.orem = 0) :
    srCommitBody s =
      (attempt (commitTrace s.params.srPulseNs s.sr) s).mapStates (committed s.sr) State.srCleanup := by
  cases hord : s.sr.ord with
  | base =>
    simp only [srCommitBody, hcfg, hord, require_true, baseLatch_eq_attempt, commitTrace]
    cases attempt latchTrace s with
    | done a u => simp [committed, hord]
    | raised e u => simp [srCleanup]
  | ordered =>
    obtain ⟨v, hreplay⟩ := replay_eq_attempt s.sr.drainOrder s
    simp only [srCommitBody, hcfg, hord, require_true, hfull hord, BEq.rfl, hreplay, commitTrace, attempt_append]
    obtain hrun | ⟨f, -, hrun⟩ := attempt_outcomes (replayTrace s.params.srPulseNs s.sr.drainOrder) s
    · simp only [hrun, andThen_done, baseLatch_eq_attempt, attempt_setBrem]
      cases attempt latchTrace (s.performAll (replayTrace s.params.srPulseNs s.sr.drainOrder)) with
      | done a u =>
        simp only [andThen_done, cleanup_done_of_done (srCleanup_run _), mapStates_done, committed, hord]
        rfl
      | raised e u => rfl
    · simp only [hrun, andThen_raised, cleanup_raised, mapStates_raised]
      rfl

/-- The commit of a full ordered buffer attempts the replay of its bits, and its cleanup forgets them (R68). -/
theorem srCommitBody_of_buffered {s : State} {e : SrEngine} {bits : List Bool} (hcfg : s.sr.cfg = true)
    (hord : s.sr.ord = .ordered) (he : e = { s.sr with buf := bits, orem := 0 }) :
    srCommitBody (s.withSr e) =
      (attempt (replayTrace s.params.srPulseNs (s.sr.mode.drain bits) ++ latchTrace) s).mapStates State.srCleanup
        State.srCleanup := by
  have htrace : commitTrace s.params.srPulseNs e =
      replayTrace s.params.srPulseNs (s.sr.mode.drain bits) ++ latchTrace := by
    simp only [commitTrace, he, hord, drainOrder_eq_drain]
  have hcleaned (es : List Event) : ((s.performAll es).withSr e).srCleanup = (s.performAll es).srCleanup := by
    rw [← performAll_withSr, he]
    exact srCleanup_withSr _ s es rfl rfl rfl rfl
  have hcommit : srCommitBody (s.withSr e) =
      (attempt (commitTrace s.params.srPulseNs e) (s.withSr e)).mapStates (committed e) State.srCleanup :=
    srCommitBody_eq_attempt (by rw [he]; exact hcfg) fun _ => by rw [he]; rfl
  rw [hcommit, htrace, attempt_commutes (State.withSr e) (fun _ _ => rfl) (fun _ => rfl), mapStates_mapStates]
  generalize replayTrace s.params.srPulseNs (s.sr.mode.drain bits) ++ latchTrace = es
  have hord' : e.ord = .ordered := by rw [he, hord]
  obtain hrun | ⟨f, -, hrun⟩ := attempt_outcomes es s
  · rw [hrun, mapStates_done, mapStates_done, Function.comp, committed, hord']
    exact congrArg _ (hcleaned es)
  · rw [hrun, mapStates_raised, mapStates_raised]
    exact congrArg _ (hcleaned f)

theorem srCommitBody_of_not_ready {s : State} (h : ¬ (s.sr.cfg = true ∧ (s.sr.ord = .ordered → s.sr.orem = 0))) :
    srCommitBody s = .raised .precondViolation s := by
  obtain ⟨-, hr⟩ | ⟨hcfg, hord, -⟩ | ⟨hcfg, -, hfull, -⟩ := srCommitBody_outcomes s
  · exact hr
  · exact absurd ⟨hcfg, by simp [hord]⟩ h
  · exact absurd ⟨hcfg, fun _ => hfull⟩ h

/-- A base SR.LOAD with room attempts its events (R67). -/
theorem srLoadBody_base_eq_attempt {s : State} (b : Bool) (hcfg : s.sr.cfg = true) (hord : s.sr.ord = .base)
    (hroom : 0 < s.sr.brem.toNat) :
    srLoadBody b s = (attempt (loadTrace s.params.srPulseNs b) s).mapStates (State.setBrem (s.sr.brem - 1))
      State.srCleanup := by
  simp only [srLoadBody, hcfg, hord, require_true, decide_eq_true hroom, baseLoad_eq_attempt]
  cases attempt (loadTrace s.params.srPulseNs b) s <;> rfl

/-- Base loads of zeros with room for them attempt their events (R69). -/
theorem loadZeros_base_eq_attempt (n : Nat) {s : State} (hcfg : s.sr.cfg = true) (hord : s.sr.ord = .base)
    (hn : n ≤ s.sr.brem.toNat) :
    loadZeros n s = (attempt (replayTrace s.params.srPulseNs (List.replicate n false)) s).mapStates
      (State.setBrem (s.sr.brem - BitVec.ofNat 16 n)) State.srCleanup := by
  induction n generalizing s with
  | zero =>
    have hcount : s.sr.brem - BitVec.ofNat 16 0 = s.sr.brem := by bv_omega
    rw [hcount]
    rfl
  | succ n ih =>
    have hbody := srLoadBody_base_eq_attempt false hcfg hord (show 0 < s.sr.brem.toNat by omega)
    rw [loadZeros, hbody, List.replicate_succ, replayTrace_cons, attempt_append]
    generalize loadTrace s.params.srPulseNs false = load
    obtain hrun | ⟨f, -, hrun⟩ := attempt_outcomes load s
    · have hrest := ih (s := (s.performAll load).setBrem (s.sr.brem - 1)) (by simpa using hcfg) (by simpa using hord)
        (by rw [State.setBrem_sr, toNat_sub_one_of_pos] <;> omega)
      have hcount : s.sr.brem - 1 - BitVec.ofNat 16 n = s.sr.brem - BitVec.ofNat 16 (n + 1) := by
        rw [BitVec.ofNat_add]
        generalize BitVec.ofNat 16 n = k
        bv_omega
      simp only [hrun, mapStates_done, andThen_done]
      rw [hrest, attempt_commutes (State.setBrem _) (fun _ _ => rfl) (fun _ => rfl), mapStates_mapStates]
      simp only [State.setBrem_params, performAll_params, State.setBrem_sr, hcount]
      rfl
    · rw [hrun]
      rfl

/-- SR.CLEAR on a configured and empty engine attempts its events (R69). -/
theorem srClearBody_eq_attempt {s : State} (hcfg : s.sr.cfg = true) (hrem : s.sr.rem = s.sr.cap) :
    srClearBody s = (attempt (replayTrace s.params.srPulseNs (clearedBits s.sr) ++ latchTrace) s).mapStates
      (committed s.sr) State.srCleanup := by
  have hbody : srClearBody s = (loadZeros s.sr.cap.toNat s).andThen fun _ s => srCommitBody s := by
    simp only [srClearBody, hcfg, require_true, hrem, BEq.rfl]
  rw [hbody]
  cases hord : s.sr.ord with
  | base =>
    have hempty : s.sr.brem = s.sr.cap := by simpa only [SrEngine.rem, hcfg, hord, if_true] using hrem
    rw [loadZeros_base_eq_attempt _ hcfg hord (by rw [hempty]), attempt_append]
    simp only [clearedBits, hord]
    generalize replayTrace s.params.srPulseNs (List.replicate s.sr.cap.toNat false) = load
    obtain hrun | ⟨f, -, hrun⟩ := attempt_outcomes load s
    · simp only [hrun, mapStates_done, andThen_done]
      rw [srCommitBody_eq_attempt (by simpa using hcfg) (by simp [hord]), commitTrace]
      simp only [State.setBrem_sr, performAll_sr, hord]
      rw [attempt_commutes (State.setBrem _) (fun _ _ => rfl) (fun _ => rfl), mapStates_mapStates]
      congr 1
      funext u
      simp only [Function.comp, committed, hord, setBrem_setBrem]
    · rw [hrun]
      rfl
  | ordered =>
    have hempty : s.sr.orem = s.sr.cap := by simpa only [SrEngine.rem, hcfg, hord, if_true] using hrem
    rw [loadZeros_ordered _ s hcfg hord (by rw [hempty]), andThen_done]
    have hfull : s.sr.orem - BitVec.ofNat 16 s.sr.cap.toNat = 0 := by simp [hempty]
    have hcommitted : committed s.sr = State.srCleanup := by
      funext u
      rw [committed, hord]
    rw [hcommitted, clearedBits, hord]
    exact srCommitBody_of_buffered hcfg hord (by rw [hfull])

theorem srClearBody_of_not_ready {s : State} (h : ¬ (s.sr.cfg = true ∧ s.sr.rem = s.sr.cap)) :
    srClearBody s = .raised .precondViolation s := by
  obtain ⟨-, hr⟩ | ⟨hcfg, hrem, -⟩ := srClearBody_outcomes s
  · exact hr
  · exact absurd ⟨hcfg, hrem⟩ h

/-! ### The operations of the engine -/

@[simp] theorem complete_err (k : Completion) (s : State) : (s.complete k).status.err = k := StatusBits.complete_err k _

section engine
variable {s t u : State} {i : Instr} {r : Result Unit} {es f : List Event}

/-- A body that was refused. -/
theorem completes_of_precond (hr : r = .raised .precondViolation s) (h : finish r = .next t) : Completes i s t := by
  rw [hr, finish_raised] at h
  exact .refused .precond (.inl rfl) (Host.Outcome.next.inj h).symm

/-- A body of the engine that ran whole. -/
theorem completes_of_srDone (hr : r = .done () u) (h : finish r = .next t) (hi : isSrOp i = true)
    (hbody : IsBody s es i) (hran : Performs s es u)
    (hresult : if returnsValue i then ∃ v, u.result = some v else u.result = s.result) : Completes i s t := by
  rw [hr, finish_done] at h
  obtain rfl := Host.Outcome.next.inj h
  have hclosing : es ++ closing i s.link.pulse.toNat = es := by
    cases i with
    | srConfig | srLoad | srCommit | srClear | srIsfull => exact List.append_nil es
    | _ => exact nomatch hi
  refine .whole es hbody ?_ (complete_err ..) (fun hlink => ?_) hresult
  · rw [hclosing]
    exact hran.complete .ok
  · cases i with
    | srConfig | srLoad | srCommit | srClear | srIsfull => exact nomatch hlink
    | _ => exact nomatch hi

/-- A body of the engine that failed, with its cleanup. -/
theorem completes_of_srFailure (hr : r = .raised .ioFault (s.performAll f).srCleanup) (h : finish r = .next t)
    (hi : isSrOp i = true) (hbody : IsBody s es i) (hfails : FailsIn es f) : Completes i s t := by
  rw [hr, finish_raised] at h
  obtain rfl := Host.Outcome.next.inj h
  refine .failed es f [] hbody (.inl hfails) (.engine hi) ?_ (complete_err ..) (performAll_result s f)
  rw [List.append_nil]
  exact (performs_performAll s f).srCleanup.complete _

theorem Performs.committed (h : Performs s es u) (e : SrEngine) : Performs s es (committed e u) := by
  rw [Machine.committed]
  cases e.ord with
  | base => exact h.setBrem _
  | ordered => exact h.srCleanup

/-- A commit or a clear that was not refused. -/
theorem completes_of_committed {e : SrEngine} (hr : r = (attempt es s).mapStates (committed e) State.srCleanup)
    (h : finish r = .next t) (hi : isSrOp i = true) (hvalue : returnsValue i = false) (hbody : IsBody s es i) :
    Completes i s t := by
  obtain hrun | ⟨f, hfails, hrun⟩ := attempt_outcomes es s
  · rw [hrun, mapStates_done] at hr
    refine completes_of_srDone hr h hi hbody ((performs_performAll s es).committed e) ?_
    rw [hvalue]
    exact (committed_result e _).trans (performAll_result s es)
  · rw [hrun, mapStates_raised] at hr
    exact completes_of_srFailure hr h hi hbody hfails

theorem completes_srConfig {cap : BitVec 16} {mode : BitOrder} {ord : Personality}
    (h : exec (.srConfig cap mode ord) s = .next t) : Completes (.srConfig cap mode ord) s t := by
  rw [exec, execSrConfig] at h
  cases hcap : capLegal s.params cap with
  | false => exact completes_of_precond rfl (by rwa [hcap, require_false] at h)
  | true =>
    rw [hcap, require_true] at h
    exact completes_of_srDone rfl h rfl rfl ((performs_nil s).with_fields rfl rfl rfl rfl rfl rfl rfl) rfl

theorem isBody_srLoad_base (b : Bool) (hord : s.sr.ord = .base) :
    IsBody s (loadTrace s.params.srPulseNs b) (.srLoad b) := by rw [IsBody, hord]

theorem isBody_srLoad_ordered (b : Bool) (hord : s.sr.ord = .ordered) : IsBody s [] (.srLoad b) := by
  rw [IsBody, hord]

theorem completes_srLoad {b : Bool} (h : exec (.srLoad b) s = .next t) : Completes (.srLoad b) s t := by
  obtain ⟨-, hr⟩ | ⟨-, hord, -, hr | ⟨f, hfails, hr⟩⟩ | ⟨-, hord, -, hr⟩ := srLoadBody_outcomes b s
  · exact completes_of_precond hr h
  · exact completes_of_srDone hr h rfl (isBody_srLoad_base b hord) ((performs_performAll s _).setBrem _)
      (performAll_result s _)
  · exact completes_of_srFailure hr h rfl (isBody_srLoad_base b hord) hfails
  · exact completes_of_srDone hr h rfl (isBody_srLoad_ordered b hord)
      ((performs_nil s).with_fields rfl rfl rfl rfl rfl rfl rfl) rfl

theorem isBody_srCommit (hfull : s.sr.ord = .ordered → s.sr.orem = 0) :
    IsBody s (commitTrace s.params.srPulseNs s.sr) .srCommit := by
  rw [IsBody, commitTrace]
  cases hord : s.sr.ord with
  | base => rfl
  | ordered =>
    refine ⟨_, fun hinv => ?_, rfl⟩
    obtain ⟨-, hlen⟩ := hinv.ordered hord
    rw [drainOrder_eq_drain, BitOrder.length_drain, ← hlen, hfull hord]
    rfl

theorem completes_srCommit (h : exec .srCommit s = .next t) : Completes .srCommit s t := by
  by_cases hready : s.sr.cfg = true ∧ (s.sr.ord = .ordered → s.sr.orem = 0)
  · obtain ⟨hcfg, hfull⟩ := hready
    exact completes_of_committed (srCommitBody_eq_attempt hcfg hfull) h rfl rfl (isBody_srCommit hfull)
  · exact completes_of_precond (srCommitBody_of_not_ready hready) h

theorem isBody_srClear (hcfg : s.sr.cfg = true) (hrem : s.sr.rem = s.sr.cap) :
    IsBody s (replayTrace s.params.srPulseNs (clearedBits s.sr) ++ latchTrace) .srClear := by
  refine ⟨_, fun hinv => ?_, rfl⟩
  rw [clearedBits]
  cases hord : s.sr.ord with
  | base => exact List.length_replicate
  | ordered =>
    have hempty : s.sr.orem = s.sr.cap := by simpa only [SrEngine.rem, hcfg, hord, if_true] using hrem
    obtain ⟨-, hlen⟩ := hinv.ordered hord
    rw [hempty] at hlen
    simp only [BitOrder.length_drain, List.length_append, List.length_replicate]
    omega

theorem completes_srClear (h : exec .srClear s = .next t) : Completes .srClear s t := by
  by_cases hready : s.sr.cfg = true ∧ s.sr.rem = s.sr.cap
  · obtain ⟨hcfg, hrem⟩ := hready
    exact completes_of_committed (srClearBody_eq_attempt hcfg hrem) h rfl rfl (isBody_srClear hcfg hrem)
  · exact completes_of_precond (srClearBody_of_not_ready hready) h

theorem completes_srIsfull (h : exec .srIsfull s = .next t) : Completes .srIsfull s t := by
  cases hcfg : s.sr.cfg with
  | false =>
    rw [exec_srIsfull_of_not_cfg hcfg] at h
    exact .refused .precond (.inl rfl) (Host.Outcome.next.inj h).symm
  | true =>
    rw [exec_srIsfull_of_cfg hcfg, ← finish_done] at h
    exact completes_of_srDone rfl h rfl rfl ((performs_nil s).with_fields rfl rfl rfl rfl rfl rfl rfl) ⟨_, rfl⟩

end engine

/-! ### The operations of the link -/

section link
variable {s t : State} {i : Instr} {es f ev : List Event} {te te' : Bool} {res : Option Word}

/-- An operation of the link that ran whole. -/
theorem completes_of_linkWhole
    (h : exec i s = .next (linkLeft s ev te res .ok)) (ht : exec i s = .next t) (hbody : IsBody s es i)
    (hev : ev = es ++ closing i s.link.pulse.toNat) (hte : te = teAfter i s.link.te)
    (hresult : if returnsValue i then ∃ v, res = some v else res = s.result) : Completes i s t := by
  subst hev
  obtain rfl := Host.Outcome.next.inj (h.symm.trans ht)
  exact .whole es hbody (performs_linkLeft ..) (linkLeft_err ..) (fun _ => hte) hresult

/-- An operation of the link that failed at an access of its sequence, with its cleanup. -/
theorem completes_of_linkFailure (h : exec i s = .next (linkLeft s ev te s.result .ioFault)) (ht : exec i s = .next t)
    (hi : isLinkOp i = true) (hbody : IsBody s es i) (hfails : FailsIn es f)
    (hclosed : ev = f ++ disableTrace s.link.pulse.toNat ∧ te = false ∨ ev = f ++ [.fail .lCe] ∧ te = te')
    (hkept : releasesCe i = false → te' = s.link.te) : Completes i s t := by
  obtain rfl := Host.Outcome.next.inj (h.symm.trans ht)
  obtain ⟨rfl, rfl⟩ | ⟨rfl, rfl⟩ := hclosed
  · exact .failed es f _ hbody (.inl hfails) (.closed hi rfl) (performs_linkLeft ..) (linkLeft_err ..) rfl
  · exact .failed es f _ hbody (.inl hfails) (.unknown hi hkept) (performs_linkLeft ..) (linkLeft_err ..) rfl

/-- An operation of the link whose final release of L_CE failed. -/
theorem completes_of_releaseFailure (h : exec i s = .next (linkLeft s (es ++ [.fail .lCe]) te s.result .ioFault))
    (ht : exec i s = .next t) (hi : isLinkOp i = true) (hreleases : releasesCe i = true) (hbody : IsBody s es i) :
    Completes i s t := by
  obtain rfl := Host.Outcome.next.inj (h.symm.trans ht)
  exact .failed es es _ hbody (.inr ⟨hreleases, rfl, rfl⟩)
    (.unknown hi fun hno => absurd hreleases (by simp [hno])) (performs_linkLeft ..) (linkLeft_err ..) rfl

theorem completes_of_refused {k : Completion} (h : exec i s = .next (s.complete k)) (ht : exec i s = .next t)
    (hk : k = .precond ∨ k = .notReady) : Completes i s t :=
  .refused k hk (Host.Outcome.next.inj (h.symm.trans ht)).symm

theorem completes_linkConfig {ns : BitVec 24} (ht : exec (.linkConfig ns) s = .next t) :
    Completes (.linkConfig ns) s t := by
  cases hns : pulseLegal ns with
  | false =>
    refine completes_of_refused ?_ ht (.inl rfl)
    rw [exec, execLinkConfig, hns, require_false, finish_raised]
    rfl
  | true =>
    cases hte : s.link.te with
    | true => exact completes_of_refused (exec_linkConfig_in_session ns hte) ht (.inl rfl)
    | false =>
      obtain rfl := Host.Outcome.next.inj ((exec_linkConfig_of_legal hns hte).symm.trans ht)
      exact .whole [] rfl ((performs_nil s).with_fields rfl rfl rfl rfl rfl rfl rfl) (complete_err ..)
        (fun _ => rfl) rfl

theorem completes_linkEnable (ht : exec .linkEnable s = .next t) : Completes .linkEnable s t := by
  obtain ⟨-, h⟩ | ⟨-, h | ⟨f, ev, te, hfails, hclosed, h⟩⟩ := execLinkEnable_outcomes s
  · exact completes_of_refused h ht (.inl rfl)
  · exact completes_of_linkWhole h ht rfl (List.append_nil _).symm rfl rfl
  · exact completes_of_linkFailure h ht rfl rfl hfails hclosed fun _ => rfl

theorem completes_linkDisable (ht : exec .linkDisable s = .next t) : Completes .linkDisable s t := by
  obtain ⟨-, h⟩ | ⟨-, h | h⟩ := execLinkDisable_outcomes s
  · exact completes_of_refused h ht (.inl rfl)
  · exact completes_of_linkWhole h ht rfl (List.nil_append _).symm rfl rfl
  · exact completes_of_releaseFailure (i := .linkDisable) (es := []) h ht rfl rfl rfl

/-- LINK.TX and the four wire bytes alone (R83, log 5). -/
theorem completes_sendByte {x : Byte} (hexec : exec i s = finish (sendByte x s)) (ht : exec i s = .next t)
    (hi : isLinkOp i = true) (hbody : IsBody s (txTrace s.link.pulse.toNat x) i)
    (hclosing : closing i s.link.pulse.toNat = []) (hte : teAfter i s.link.te = s.link.te)
    (hvalue : returnsValue i = false) : Completes i s t := by
  obtain ⟨ev, te, k, h, ⟨rfl, rfl, hk⟩ | ⟨rfl, rfl, rfl⟩ | ⟨rfl, f, hfails, hclosed⟩⟩ := sendByte_outcomes x s
  · rw [← linkLeft_nil] at h
    exact completes_of_refused (hexec.trans h) ht (hk.imp_left And.left)
  · exact completes_of_linkWhole (hexec.trans h) ht hbody (by rw [hclosing, List.append_nil]) hte.symm
      (by rw [hvalue]; rfl)
  · exact completes_of_linkFailure (hexec.trans h) ht hi hbody hfails hclosed fun _ => rfl

theorem completes_linkRx (ht : exec .linkRx s = .next t) : Completes .linkRx s t := by
  obtain ⟨-, h⟩ | ⟨-, -, h⟩ | ⟨-, -, r, h | ⟨f, ev, te, hfails, hclosed, h⟩⟩ := execLinkRx_outcomes s
  · exact completes_of_refused h ht (.inl rfl)
  · exact completes_of_refused h ht (.inr rfl)
  · exact completes_of_linkWhole h ht ⟨r, rfl⟩ (List.append_nil _).symm rfl ⟨_, rfl⟩
  · exact completes_of_linkFailure h ht rfl ⟨r, rfl⟩ hfails hclosed fun _ => rfl

theorem completes_linkIsen (ht : exec .linkIsen s = .next t) : Completes .linkIsen s t := by
  cases hcfg : s.link.cfg with
  | false => exact completes_of_refused (exec_linkIsen_of_not_cfg hcfg) ht (.inl rfl)
  | true =>
    obtain rfl := Host.Outcome.next.inj ((exec_linkIsen_of_cfg hcfg).symm.trans ht)
    exact .whole [] rfl ((performs_nil s).with_fields rfl rfl rfl rfl rfl rfl rfl) (complete_err ..) (fun _ => rfl)
      ⟨_, rfl⟩

theorem completes_cmdWrite {c : RegClass} {n : BitVec 5} {v : Byte} (ht : exec (.cmdWrite c n v) s = .next t) :
    Completes (.cmdWrite c n v) s t := by
  obtain ⟨-, h⟩ | ⟨-, h | h | ⟨f, ev, te, v', hfails, -, hclosed, h⟩⟩ := execCmdWrite_outcomes c n v s
  · exact completes_of_refused h ht (.inl rfl)
  · exact completes_of_linkWhole h ht rfl rfl rfl rfl
  · exact completes_of_releaseFailure h ht rfl rfl rfl
  · exact completes_of_linkFailure h ht rfl rfl hfails hclosed fun hno => nomatch hno

theorem completes_cmdRead {c : RegClass} {n : BitVec 5} (ht : exec (.cmdRead c n) s = .next t) :
    Completes (.cmdRead c n) s t := by
  obtain ⟨-, h⟩ | ⟨-, r, h | h | ⟨f, ev, te, v', hfails, -, hclosed, h⟩⟩ := execCmdRead_outcomes c n s
  · exact completes_of_refused h ht (.inl rfl)
  · exact completes_of_linkWhole h ht ⟨r, rfl⟩ rfl rfl ⟨_, rfl⟩
  · exact completes_of_releaseFailure h ht rfl rfl ⟨r, rfl⟩
  · exact completes_of_linkFailure h ht rfl ⟨r, rfl⟩ hfails hclosed fun hno => nomatch hno

end link

/-- Every operation completes in one of the ways of `Completes`. -/
theorem exec_completes {i : Instr} {s t : State} (h : exec i s = .next t) : Completes i s t := by
  cases i with
  | srConfig cap mode ord => exact completes_srConfig h
  | srLoad b => exact completes_srLoad h
  | srCommit => exact completes_srCommit h
  | srClear => exact completes_srClear h
  | srIsfull => exact completes_srIsfull h
  | linkConfig ns => exact completes_linkConfig h
  | linkEnable => exact completes_linkEnable h
  | linkDisable => exact completes_linkDisable h
  | linkRx => exact completes_linkRx h
  | linkIsen => exact completes_linkIsen h
  | cmdWrite c n v => exact completes_cmdWrite h
  | cmdRead c n => exact completes_cmdRead h
  | linkTx x => exact completes_sendByte rfl h rfl rfl rfl rfl rfl
  | cmdbyteWriteRam n => exact completes_sendByte rfl h rfl rfl rfl rfl rfl
  | cmdbyteReadRam n => exact completes_sendByte rfl h rfl rfl rfl rfl rfl
  | cmdbyteWriteRtc n => exact completes_sendByte rfl h rfl rfl rfl rfl rfl
  | cmdbyteReadRtc n => exact completes_sendByte rfl h rfl rfl rfl rfl rfl
  | errClear =>
    obtain rfl := Host.Outcome.next.inj ((exec_errClear s).symm.trans h)
    exact .whole [] rfl ((performs_nil s).with_fields rfl rfl rfl rfl rfl rfl rfl) (complete_err ..)
      (fun hi => nomatch hi) rfl

end Sys2Proof.Machine
end

section
/-! SUPPORT. What the events of every operation have in common: the side of the block they are on, whether an access
among them failed, how many they are, and where they raise L_CE or set the direction of L_DATA. -/

namespace Sys2Proof.Machine

/-! ### The side of the block, and failures -/

theorem failsIn_onSr {es f : List Event} (h : FailsIn es f) (hes : ∀ e ∈ es, e.onSr = true) : ∀ e ∈ f, e.onSr = true :=
  FailsIn_all h hes failureOf_onSr

theorem failsIn_onLink {es f : List Event} (h : FailsIn es f) (hes : ∀ e ∈ es, e.onLink = true) :
    ∀ e ∈ f, e.onLink = true :=
  FailsIn_all h hes failureOf_onLink

theorem replay_latch_onSr (ps : Nat) (bits : List Bool) : ∀ e ∈ replayTrace ps bits ++ latchTrace, e.onSr = true :=
  List.forall_mem_append.mpr ⟨replayTrace_onSr ps bits, latchTrace_onSr⟩

/-- The engine's operations have events of the shift register alone. -/
theorem IsBody.onSr {s : State} {es : List Event} {i : Instr} (h : IsBody s es i) (hi : isSrOp i = true) :
    ∀ e ∈ es, e.onSr = true := by
  cases i with
  | srConfig | srIsfull => obtain rfl := h; simp
  | srLoad b =>
    rw [IsBody] at h
    cases hord : s.sr.ord with
    | base => rw [hord] at h; subst h; exact loadTrace_onSr _ _
    | ordered => rw [hord] at h; subst h; simp
  | srCommit =>
    rw [IsBody] at h
    cases hord : s.sr.ord with
    | base => rw [hord] at h; subst h; exact latchTrace_onSr
    | ordered => rw [hord] at h; obtain ⟨bits, -, rfl⟩ := h; exact replay_latch_onSr _ _
  | srClear => obtain ⟨bits, -, rfl⟩ := h; exact replay_latch_onSr _ _
  | _ => exact nomatch hi

/-- The link's operations have events of the link alone. -/
theorem IsBody.onLink {s : State} {es : List Event} {i : Instr} (h : IsBody s es i) (hi : isLinkOp i = true) :
    ∀ e ∈ es, e.onLink = true := by
  cases i with
  | linkConfig | linkDisable | linkIsen => obtain rfl := h; simp
  | linkEnable => obtain rfl := h; exact enableTrace_onLink _
  | linkTx | cmdbyteWriteRam | cmdbyteReadRam | cmdbyteWriteRtc | cmdbyteReadRtc =>
    obtain rfl := h
    exact txTrace_onLink _ _
  | linkRx => obtain ⟨r, rfl⟩ := h; exact rxTrace_onLink _ _
  | cmdWrite c n v => exact IsCmdSequence.onLink (.inl ⟨c, n, v, rfl, h⟩)
  | cmdRead c n => obtain ⟨r, h⟩ := h; exact IsCmdSequence.onLink (.inr ⟨c, n, r, rfl, h⟩)
  | _ => exact nomatch hi

theorem IsBody.noFailure {s : State} {es : List Event} {i : Instr} (h : IsBody s es i) :
    es.any Event.isFailure = false := by
  cases i with
  | srConfig | srIsfull | linkConfig | linkDisable | linkIsen | errClear => obtain rfl := h; rfl
  | srLoad b =>
    rw [IsBody] at h
    cases hord : s.sr.ord <;> rw [hord] at h <;> subst h <;> rfl
  | srCommit =>
    rw [IsBody] at h
    cases hord : s.sr.ord with
    | base => rw [hord] at h; subst h; rfl
    | ordered => rw [hord] at h; obtain ⟨bits, -, rfl⟩ := h; simp
  | srClear => obtain ⟨bits, -, rfl⟩ := h; simp
  | linkEnable => obtain rfl := h; rfl
  | linkTx | cmdbyteWriteRam | cmdbyteReadRam | cmdbyteWriteRtc | cmdbyteReadRtc => obtain rfl := h; simp
  | linkRx => obtain ⟨r, rfl⟩ := h; simp
  | cmdWrite c n v => obtain rfl := h; simp [writeEvents]
  | cmdRead c n => obtain ⟨r, rfl⟩ := h; simp [readEvents]

theorem closing_noFailure (i : Instr) (p : Nat) : (closing i p).any Event.isFailure = false := by
  rw [closing]
  split <;> rfl

theorem closing_onLink (i : Instr) (p : Nat) : ∀ e ∈ closing i p, e.onLink = true := by
  rw [closing]
  split
  · exact disableTrace_onLink p
  · simp

theorem closing_of_isSrOp {i : Instr} (hi : isSrOp i = true) (p : Nat) : closing i p = [] := by
  cases i with
  | srConfig | srLoad | srCommit | srClear | srIsfull => rfl
  | _ => exact nomatch hi

/-- No operation is of both engines. -/
theorem not_isLinkOp_of_isSrOp {i : Instr} (hsr : isSrOp i = true) (hlink : isLinkOp i = true) : False := by
  cases i with
  | srConfig | srLoad | srCommit | srClear | srIsfull => exact nomatch hlink
  | _ => exact nomatch hsr

section cleanup
variable {i : Instr} {s t : State} {c : List Event}

theorem IsCleanup.onLink (h : IsCleanup i s t c) : ∀ e ∈ c, e.onLink = true := by
  cases h with
  | engine => simp
  | closed => exact disableTrace_onLink _
  | unknown => simp [Event.onLink]

theorem IsCleanup.eq_nil (h : IsCleanup i s t c) (hi : isSrOp i = true) : c = [] := by
  cases h with
  | engine => rfl
  | closed hlink | unknown hlink => exact (not_isLinkOp_of_isSrOp hi hlink).elim

end cleanup

/-- What a failed operation went through holds a failed access. -/
theorem any_isFailure_of_failed {es f c : List Event} (h : FailsIn es f ∨ f = es ∧ c = [.fail .lCe]) :
    (f ++ c).any Event.isFailure = true := by
  rw [List.any_append]
  obtain hfails | ⟨-, rfl⟩ := h
  · rw [FailsIn_any hfails, Bool.true_or]
  · exact Bool.or_true _

theorem onSr_of_failed {es f c : List Event} (h : FailsIn es f ∨ f = es ∧ c = [.fail .lCe]) (hc : c = [])
    (hes : ∀ e ∈ es, e.onSr = true) : ∀ e ∈ f ++ c, e.onSr = true := by
  obtain hfails | ⟨-, hc'⟩ := h
  · rw [hc, List.append_nil]
    exact failsIn_onSr hfails hes
  · rw [hc] at hc'
    exact nomatch hc'

theorem onLink_of_failed {es f c : List Event} (h : FailsIn es f ∨ f = es ∧ c = [.fail .lCe])
    (hc : ∀ e ∈ c, e.onLink = true) (hes : ∀ e ∈ es, e.onLink = true) : ∀ e ∈ f ++ c, e.onLink = true := by
  refine List.forall_mem_append.mpr ⟨?_, hc⟩
  obtain hfails | ⟨rfl, -⟩ := h
  · exact failsIn_onLink hfails hes
  · exact hes

/-- The events of a completed operation: on its own side of the block, and with a failed access among them exactly
when the code is IOFAULT (R119). -/
theorem Completes.exists_events {i : Instr} {s t : State} (h : Completes i s t) :
    ∃ ev, Performs s ev t ∧ (isSrOp i = true → ∀ e ∈ ev, e.onSr = true) ∧
      (isLinkOp i = true → ∀ e ∈ ev, e.onLink = true) ∧
      (ev.any Event.isFailure = true ↔ t.status.err = .ioFault) := by
  cases h with
  | refused k hk ht =>
    subst ht
    refine ⟨[], (performs_nil s).complete k, by simp, by simp, ?_⟩
    have herr : (s.refusedWith k).status.err = k := complete_err k s
    rw [herr]
    obtain rfl | rfl := hk <;> simp
  | whole es hbody hran herr =>
    refine ⟨_, hran, fun hi => ?_, fun hi => ?_, ?_⟩
    · rw [closing_of_isSrOp hi, List.append_nil]
      exact hbody.onSr hi
    · exact List.forall_mem_append.mpr ⟨hbody.onLink hi, closing_onLink i _⟩
    · simp [List.any_append, hbody.noFailure, closing_noFailure, herr]
  | failed es f c hbody hfails hcleanup hran herr =>
    refine ⟨_, hran, fun hi => onSr_of_failed (hfails.imp_right And.right) (hcleanup.eq_nil hi) (hbody.onSr hi), fun hi =>
      onLink_of_failed (hfails.imp_right And.right) hcleanup.onLink (hbody.onLink hi), ?_⟩
    simp [any_isFailure_of_failed (hfails.imp_right And.right), herr]

/-! ### The frames -/

theorem lines_eq_iff {s t : State} : t.lines = s.lines ↔
    t.pins = s.pins ∧ t.link.dir = s.link.dir ∧ t.link.dout = s.link.dout := by
  simp [State.lines]

/-- Events of the shift register that fail only where the code is IOFAULT leave the other side of the block alone (R43,
R119). -/
theorem srFrame_of_performs {s t : State} {ev : List Event} (h : Performs s ev t) (hsr : ∀ e ∈ ev, e.onSr = true)
    (hlink : t.link = s.link) (herr : ev.any Event.isFailure = true ↔ t.status.err = .ioFault) : SrFrame s t := by
  obtain ⟨hparams, -, hclk, hce, hrun, hscript, hreads, hhost, hreplies⟩ := performAll_srSide ev s hsr
  rw [← h.pins] at hclk hce
  rw [← h.env] at hrun hscript hreads
  refine ⟨h.params, hlink, hclk, hce, fun hne => ?_, hrun, hscript, hreads, h.host, h.replies⟩
  rw [h.env, performAll_link ev s hsr, if_neg (fun hfail => hne (herr.mp hfail))]

/-- The same of the events of the link. -/
theorem linkFrame_of_performs {s t : State} {ev : List Event} (h : Performs s ev t) (hlink : ∀ e ∈ ev, e.onLink = true)
    (hsr : t.sr = s.sr) (herr : ev.any Event.isFailure = true ↔ t.status.err = .ioFault) : LinkFrame s t := by
  obtain ⟨hparams, -, hdata, hclk, hlatch, hrun, hscript, hreads, hhost, hreplies⟩ := performAll_linkSide ev s hlink
  rw [← h.pins] at hdata hclk hlatch
  rw [← h.env] at hrun hscript hreads
  refine ⟨h.params, hsr, hdata, hclk, hlatch, fun hne => ?_, hrun, hscript, hreads, h.host, h.replies⟩
  rw [h.env, performAll_sipo ev s hlink, if_neg (fun hfail => hne (herr.mp hfail))]

theorem exec_srFrame {i : Instr} {s t : State} (hi : isSrOp i = true) (h : exec i s = .next t) : SrFrame s t := by
  obtain ⟨ev, hran, hsr, -, herr⟩ := (exec_completes h).exists_events
  exact srFrame_of_performs hran (hsr hi) (exec_srOp_link hi h) herr

theorem exec_linkFrame {i : Instr} {s t : State} (hi : isLinkOp i = true) (h : exec i s = .next t) : LinkFrame s t := by
  obtain ⟨ev, hran, -, hlink, herr⟩ := (exec_completes h).exists_events
  exact linkFrame_of_performs hran (hlink hi) (exec_linkOp_sr hi h) herr

end Sys2Proof.Machine
end

section
/-! The statements about what every operation leaves alone, settled. -/

namespace Sys2Proof.Machine

theorem exec_eq_finish (i : Instr) (s : State) : ∃ r, exec i s = finish r := by
  cases i with
  | errClear => exact ⟨.done () s.clearSticky, rfl⟩
  | _ => exact ⟨_, rfl⟩

/-- Settles O46: every operation ends with a completion, and its events leave the parameters and the host's side. -/
theorem everyOperationCompletes : Obligations.EveryOperationCompletes := by
  intro i s
  obtain ⟨r, hr⟩ := exec_eq_finish i s
  obtain ⟨k, hk⟩ := finish_next r
  have h := hr.trans hk
  obtain ⟨ev, hran, -⟩ := (exec_completes h).exists_events
  exact ⟨_, h, hran.host, hran.replies, hran.params⟩

/-- Settles O48: PRECOND and NOTREADY are the codes of a refusal alone, and ILLEGAL is no operation's. -/
theorem preconditionErrorsArePrecise : Obligations.PreconditionErrorsArePrecise := by
  intro i s t h
  cases exec_completes h with
  | refused k hk ht =>
    have herr : t.status.err = k := by rw [ht]; exact complete_err k s
    rw [herr]
    refine ⟨fun _ => ht, ?_⟩
    obtain rfl | rfl := hk <;> decide
  | whole _ _ _ herr => simp [herr]
  | failed _ _ _ _ _ _ _ herr => simp [herr]

/-- Settles O49: RESULT in each of the ways an operation completes. -/
theorem resultIsWrittenOnlyOnSuccess : Obligations.ResultIsWrittenOnlyOnSuccess := by
  intro i s t h
  cases exec_completes h with
  | refused k hk ht =>
    subst ht
    have herr : (s.refusedWith k).status.err = k := complete_err k s
    refine ⟨fun _ => rfl, fun _ hok => ?_⟩
    rw [herr] at hok
    subst hok
    exact absurd hk (by decide)
  | whole es _ _ herr _ hresult =>
    refine ⟨fun hno => ?_, fun hvalue _ => by rwa [if_pos hvalue] at hresult⟩
    have hvalue : ¬ returnsValue i = true := by simpa [herr] using hno
    rwa [if_neg hvalue] at hresult
  | failed _ _ _ _ _ _ _ herr hresult => exact ⟨fun _ => hresult, fun _ hok => by simp [herr] at hok⟩

/-- Settles O50: each operation's events are on its own side of the block, and each engine's fields are its own. -/
theorem enginesShareNoState : Obligations.EnginesShareNoState := by
  refine fun i s t h => ⟨fun hi => exec_srFrame hi h, fun hi => exec_linkFrame hi h, fun hi => ?_⟩
  subst hi
  obtain rfl := Host.Outcome.next.inj ((exec_errClear s).symm.trans h)
  exact ⟨by simp [SrFrame], by simp [LinkFrame], rfl⟩

end Sys2Proof.Machine
end

section
/-! SUPPORT. Where an event may occur in a list: how the places of an event in a sequence, in what a failed attempt got
through and in a whole operation follow from each other (R26, R87). -/

namespace Sys2Proof.Machine

/-- Wherever `x` occurs in `ev`, `P` holds of the events before it. -/
def OccursOnly (x : Event) (P : List Event → Prop) (ev : List Event) : Prop :=
  ∀ before after, ev = before ++ x :: after → P before

section occursOnly
variable {x y : Event} {P : List Event → Prop} {as bs es f c : List Event}

theorem OccursOnly.of_not_mem (h : x ∉ es) : OccursOnly x P es := by
  rintro before after rfl
  simp at h

theorem OccursOnly.append (has : OccursOnly x P as) (hbs : OccursOnly x (fun b => P (as ++ b)) bs) :
    OccursOnly x P (as ++ bs) := by
  intro before after h
  obtain ⟨rest, rfl, hrest⟩ | ⟨rest, rfl, hrest⟩ := List.append_eq_append_iff.mp h
  · exact hbs rest after hrest
  · cases rest with
    | nil => simpa using hbs [] after (by simpa using hrest.symm)
    | cons z rest =>
      obtain ⟨rfl, -⟩ := List.cons.inj hrest
      exact has before rest rfl

/-- An event at the head of a list in which it does not occur again. -/
theorem OccursOnly.head (hP : y = x → P []) (h : x ∉ es) : OccursOnly x P (y :: es) := by
  intro before after hes
  cases before with
  | nil => exact hP (List.cons.inj hes).1
  | cons z before =>
    obtain ⟨-, rfl⟩ := List.cons.inj hes
    simp at h

theorem OccursOnly.leftPart (h : OccursOnly x P (as ++ bs)) : OccursOnly x P as := by
  rintro before after rfl
  exact h before (after ++ bs) (by simp)

/-- What a failed attempt got through ends in a failure, and is else the beginning of its sequence. -/
theorem OccursOnly.failsIn (h : OccursOnly x P es) (hx : x.isFailure = false) (hfails : FailsIn es f) :
    OccursOnly x P f := by
  obtain ⟨before, e, after, rfl, haccess, rfl⟩ := hfails
  have hfailure : (failureOf e).isFailure = true := by cases e <;> first | rfl | exact nomatch haccess
  refine h.leftPart.append (.of_not_mem ?_)
  rw [List.mem_singleton]
  rintro rfl
  rw [hx] at hfailure
  exact nomatch hfailure

/-- An event that is neither a failure nor part of a release of L_CE occurs in a completed operation where its sequence
has it. -/
theorem Completes.exists_occursOnly {i : Instr} {s t : State} (h : Completes i s t) :
    ∃ ev, t.trace = s.trace ++ ev ∧ ∀ x P, x.isFailure = false → x ∉ disableTrace s.link.pulse.toNat →
      (∀ es, IsBody s es i → OccursOnly x P es) → OccursOnly x P ev := by
  cases h with
  | refused k _ ht =>
    subst ht
    exact ⟨[], (List.append_nil _).symm, fun x P _ _ _ => .of_not_mem (by simp)⟩
  | whole es hbody hran =>
    refine ⟨_, hran.trace, fun x P hx hnot hes => (hes es hbody).append (.of_not_mem ?_)⟩
    rw [closing]
    split
    · exact hnot
    · simp
  | failed es f c hbody hfails hcleanup hran =>
    refine ⟨_, hran.trace, fun x P hx hnot hes => .append ?_ (.of_not_mem ?_)⟩
    · obtain hfails | ⟨-, rfl, -⟩ := hfails
      · exact (hes es hbody).failsIn hx hfails
      · exact hes _ hbody
    · cases hcleanup with
      | engine => simp
      | closed => exact hnot
      | unknown =>
        rw [List.mem_singleton]
        rintro rfl
        exact nomatch hx

end occursOnly

/-! ### The rise of L_CE and the direction of L_DATA -/

/-- The events that rise on L_CE follow the clock's low level and its wait (R75, R87). -/
def AfterClockLow (p : Nat) (before : List Event) : Prop := ∃ start, before = start ++ [.drive .lClk false, .wait p]

theorem not_mem_of_onSr {x : Event} {es : List Event} (hes : ∀ e ∈ es, e.onSr = true) (hx : x.onSr = false) : x ∉ es :=
  fun h => by simp [hes x h] at hx

theorem txTrace_tail_noDir (p : Nat) (x : Byte) (d : PinDir) : .dir d ∉ (wireBits x).flatMap (txBitTrace p) := by
  simp [wireBits, txBitTrace, pulseTrace]

theorem rxTrace_tail_noDir (p : Nat) (x : Byte) (d : PinDir) : .dir d ∉ (wireBits x).flatMap (rxBitTrace p) := by
  simp [wireBits, rxBitTrace, pulseTrace]

/-- A clock-in sets the direction OUT, first of all. -/
theorem txTrace_dir {P : List Event → Prop} {d : PinDir} (p : Nat) (x : Byte) (h : d = .output → P []) :
    OccursOnly (.dir d) P (txTrace p x) :=
  .head (fun hd => h (Event.dir.inj hd).symm) (txTrace_tail_noDir p x d)

/-- A clock-out sets the direction IN, first of all. -/
theorem rxTrace_dir {P : List Event → Prop} {d : PinDir} (p : Nat) (x : Byte) (h : d = .input → P []) :
    OccursOnly (.dir d) P (rxTrace p x) :=
  .head (fun hd => h (Event.dir.inj hd).symm) (rxTrace_tail_noDir p x d)

theorem enableTrace_noDir (p : Nat) (d : PinDir) : .dir d ∉ enableTrace p := by simp [enableTrace]

theorem txTrace_noCeRise (p : Nat) (x : Byte) : .drive .lCe true ∉ txTrace p x := by
  simp [txTrace, wireBits, txBitTrace, pulseTrace]

theorem rxTrace_noCeRise (p : Nat) (x : Byte) : .drive .lCe true ∉ rxTrace p x := by
  simp [rxTrace, wireBits, rxBitTrace, pulseTrace]

theorem enableTrace_ceRise (p : Nat) : OccursOnly (.drive .lCe true) (AfterClockLow p) (enableTrace p) :=
  OccursOnly.append (as := [.drive .lClk false, .wait p]) (.of_not_mem (by simp)) (.head (fun _ => ⟨[], rfl⟩) (by simp))

theorem IsBody.ceRise {s : State} {es : List Event} {i : Instr} (h : IsBody s es i) :
    OccursOnly (.drive .lCe true) (AfterClockLow s.link.pulse.toNat) es := by
  cases i with
  | srConfig | srLoad | srCommit | srClear | srIsfull => exact .of_not_mem (not_mem_of_onSr (h.onSr rfl) rfl)
  | linkConfig | linkDisable | linkIsen | errClear => obtain rfl := h; exact .of_not_mem (by simp)
  | linkEnable => obtain rfl := h; exact enableTrace_ceRise _
  | linkTx | cmdbyteWriteRam | cmdbyteReadRam | cmdbyteWriteRtc | cmdbyteReadRtc =>
    obtain rfl := h
    exact .of_not_mem (txTrace_noCeRise _ _)
  | linkRx => obtain ⟨r, rfl⟩ := h; exact .of_not_mem (rxTrace_noCeRise _ _)
  | cmdWrite c n v =>
    obtain rfl := h
    exact ((enableTrace_ceRise _).append (.of_not_mem (txTrace_noCeRise _ _))).append (.of_not_mem (txTrace_noCeRise _ _))
  | cmdRead c n =>
    obtain ⟨r, rfl⟩ := h
    exact ((enableTrace_ceRise _).append (.of_not_mem (txTrace_noCeRise _ _))).append (.of_not_mem (rxTrace_noCeRise _ _))

theorem IsBody.dir {s : State} {es : List Event} {i : Instr} (h : IsBody s es i) (d : PinDir) :
    OccursOnly (.dir d) (fun before => SetsDirAfter i s.link.pulse.toNat before d) es := by
  cases i with
  | srConfig | srLoad | srCommit | srClear | srIsfull => exact .of_not_mem (not_mem_of_onSr (h.onSr rfl) rfl)
  | linkConfig | linkDisable | linkIsen | errClear => obtain rfl := h; exact .of_not_mem (by simp)
  | linkEnable => obtain rfl := h; exact .of_not_mem (enableTrace_noDir _ d)
  | linkTx | cmdbyteWriteRam | cmdbyteReadRam | cmdbyteWriteRtc | cmdbyteReadRtc =>
    obtain rfl := h
    exact txTrace_dir _ _ fun hd => ⟨rfl, hd⟩
  | linkRx =>
    obtain ⟨r, rfl⟩ := h
    exact rxTrace_dir _ _ fun hd => ⟨rfl, hd⟩
  | cmdWrite c n v =>
    obtain rfl := h
    simp only [SetsDirAfter, writeEvents]
    generalize s.link.pulse.toNat = p
    have hcommand := (OccursOnly.of_not_mem (P := fun b => (b = enableTrace p ∨
      b = enableTrace p ++ txTrace p (cmdByte c .write n)) ∧ d = .output) (enableTrace_noDir p d)).append
      (txTrace_dir p (cmdByte c .write n) fun hd => ⟨.inl (List.append_nil _), hd⟩)
    exact hcommand.append (txTrace_dir p v fun hd => ⟨.inr (List.append_nil _), hd⟩)
  | cmdRead c n =>
    obtain ⟨r, rfl⟩ := h
    simp only [SetsDirAfter, readEvents]
    generalize s.link.pulse.toNat = p
    have hcommand := (OccursOnly.of_not_mem (P := fun b => b = enableTrace p ∧ d = .output ∨
      b = enableTrace p ++ txTrace p (cmdByte c .read n) ∧ d = .input) (enableTrace_noDir p d)).append
      (txTrace_dir p (cmdByte c .read n) fun hd => .inl ⟨List.append_nil _, hd⟩)
    exact hcommand.append (rxTrace_dir p r fun hd => .inr ⟨List.append_nil _, hd⟩)

/-- In the events of every operation L_CE rises only after the clock is low, and the direction of L_DATA is set only
at the start of a byte (R26, R87). -/
theorem exec_wireOrder {i : Instr} {s t : State} (h : exec i s = .next t) :
    ∃ ev, t.trace = s.trace ++ ev ∧ (∀ d, OccursOnly (.dir d) (fun b => SetsDirAfter i s.link.pulse.toNat b d) ev) ∧
      OccursOnly (.drive .lCe true) (AfterClockLow s.link.pulse.toNat) ev := by
  obtain ⟨ev, htrace, hoccurs⟩ := (exec_completes h).exists_occursOnly
  exact ⟨ev, htrace, fun d => hoccurs _ _ rfl (by simp [disableTrace]) fun es hbody => hbody.dir d,
    hoccurs _ _ rfl (by simp [disableTrace]) fun es hbody => hbody.ceRise⟩

end Sys2Proof.Machine
end

section
/-! SUPPORT. How many accesses, events and nanoseconds an operation takes (R45, R120), and what a failed access leaves
of the devices (R119). -/

namespace Sys2Proof.Machine

/-! ### The bound on the accesses -/

theorem accessCount_le_of_failsIn {es f : List Event} (h : FailsIn es f) : accessCount f ≤ accessCount es := by
  obtain ⟨before, e, after, rfl, haccess, rfl⟩ := h
  have hfailure : accessCount [failureOf e] ≤ accessCount [e] := by
    cases e <;> first | exact Nat.le_refl 1 | exact nomatch haccess
  have hcons : accessCount (e :: after) = accessCount [e] + accessCount after := accessCount_append [e] after
  rw [accessCount_append, accessCount_append, hcons]
  omega

/-- The accesses with which an operation releases L_CE, at its end or in its cleanup. -/
def releaseAccesses : Instr → Nat
  | .srConfig .. | .srLoad _ | .srCommit | .srClear | .srIsfull | .linkConfig _ | .linkIsen | .errClear => 0
  | _ => 1

theorem accessCount_of_isFullReplay {s : State} {es : List Event} (hinv : SrInv s.params s.sr) (h : IsFullReplay s es) :
    accessCount es = 3 * s.sr.cap.toNat + 2 := by
  obtain ⟨bits, hlen, rfl⟩ := h
  rw [accessCount_append, accessCount_replayTrace, accessCount_latchTrace, hlen hinv]

theorem IsBody.accessCount_le {s : State} {es : List Event} {i : Instr} (h : IsBody s es i) (hinv : SrInv s.params s.sr) :
    accessCount es + releaseAccesses i ≤ accessBound i s := by
  cases i with
  | srConfig | srIsfull | linkConfig | linkDisable | linkIsen | errClear => obtain rfl := h; exact Nat.le_refl _
  | srLoad b =>
    rw [IsBody] at h
    show accessCount es + 0 ≤ 3
    cases hord : s.sr.ord with
    | base => rw [h, hord, accessCount_loadTrace]
    | ordered => rw [h, hord]; exact Nat.zero_le 3
  | srCommit =>
    rw [IsBody] at h
    show accessCount es + 0 ≤ 3 * s.sr.cap.toNat + 2
    cases hord : s.sr.ord with
    | base => rw [hord] at h; subst h; rw [accessCount_latchTrace]; omega
    | ordered => rw [hord] at h; exact (accessCount_of_isFullReplay hinv h).le
  | srClear =>
    show accessCount es + 0 ≤ 3 * s.sr.cap.toNat + 2
    exact (accessCount_of_isFullReplay hinv h).le
  | linkEnable => obtain rfl := h; exact Nat.le_refl _
  | linkTx | cmdbyteWriteRam | cmdbyteReadRam | cmdbyteWriteRtc | cmdbyteReadRtc => obtain rfl := h; exact Nat.le_refl _
  | linkRx => obtain ⟨r, rfl⟩ := h; exact Nat.le_refl _
  | cmdWrite c n v => obtain rfl := h; exact Nat.le_refl _
  | cmdRead c n => obtain ⟨r, rfl⟩ := h; exact Nat.le_refl _

theorem accessCount_closing_le (i : Instr) (p : Nat) : accessCount (closing i p) ≤ releaseAccesses i := by
  cases i <;> first | exact Nat.le_refl _ | exact Nat.zero_le _

/-- The two configuring and reporting operations of the link have no access that could fail. -/
theorem not_failed_of_noAccess {s : State} {es f : List Event} {i : Instr} (hi : i = .linkIsen ∨ ∃ ns, i = .linkConfig ns)
    (hbody : IsBody s es i) (hfails : FailsIn es f ∨ releasesCe i = true ∧ f = es) : False := by
  have hreleases : releasesCe i = false := by obtain rfl | ⟨ns, rfl⟩ := hi <;> rfl
  have hes : es = [] := by obtain rfl | ⟨ns, rfl⟩ := hi <;> exact hbody
  obtain ⟨before, e, after, h, -⟩ | ⟨h, -⟩ := hfails
  · rw [hes] at h
    simp at h
  · rw [hreleases] at h
    exact nomatch h

/-- A completed operation makes no more accesses than its bound, its cleanup's included (R45, R120). -/
theorem Completes.accesses_le {i : Instr} {s t : State} (h : Completes i s t) (hinv : SrInv s.params s.sr) :
    t.accesses ≤ s.accesses + accessBound i s := by
  cases h with
  | refused k _ ht => rw [ht]; exact Nat.le_add_right _ _
  | whole es hbody hran =>
    have hbound := hbody.accessCount_le hinv
    have hclosing := accessCount_closing_le i s.link.pulse.toNat
    rw [hran.accesses, accessCount_append]
    omega
  | failed es f c hbody hfails hcleanup hran =>
    have hbound := hbody.accessCount_le hinv
    have hf : accessCount f ≤ accessCount es := by
      obtain hfails | ⟨-, rfl, -⟩ := hfails
      · exact accessCount_le_of_failsIn hfails
      · exact Nat.le_refl _
    have hc : accessCount c ≤ releaseAccesses i := by
      cases hcleanup with
      | engine => exact Nat.zero_le _
      | closed hi | unknown hi =>
        cases i with
        | linkConfig ns =>
          exact (not_failed_of_noAccess (.inr ⟨ns, rfl⟩) hbody (hfails.imp_right fun ⟨hr, hf, _⟩ => ⟨hr, hf⟩)).elim
        | linkIsen =>
          exact (not_failed_of_noAccess (.inl rfl) hbody (hfails.imp_right fun ⟨hr, hf, _⟩ => ⟨hr, hf⟩)).elim
        | srConfig | srLoad | srCommit | srClear | srIsfull | errClear => exact nomatch hi
        | _ => exact Nat.le_refl _
    rw [hran.accesses, accessCount_append]
    omega

/-! ### The devices after a failure -/

theorem forget_performAll_link (es : List Event) (s : State) :
    (s.performAll es).env.link.forget = s.env.link.forget := by
  induction es generalizing s with
  | nil => rfl
  | cons e es ih => exact (ih (s.perform e)).trans (linkDevice_forget_observe _ _ _)

/-- After a failed access the device on the link is forgotten. -/
theorem performAll_link_of_failure (es : List Event) {e : Event} (he : e.isFailure = true) (s : State) :
    (s.performAll (es ++ [e])).env.link = s.env.link.forget := by
  rw [performAll_append]
  exact (linkDevice_observe_failure _ _ _ he).trans (forget_performAll_link es s)

theorem performAll_sipo_of_failure (es : List Event) {e : Event} (he : e.isFailure = true) (s : State) :
    (s.performAll (es ++ [e])).env.sipo = (s.performAll es).env.sipo.forget := by
  rw [performAll_append]
  exact sipo_observe_failure _ _ _ he

/-- A forgotten device stays so along the events of a cleanup. -/
theorem performAll_link_of_forgotten {c : List Event} {s : State} {d : LinkDevice}
    (hc : ∀ e ∈ c, e = .drive .lCe false ∨ e = .fail .lCe ∨ ∃ ns, e = .wait ns) (h : s.env.link = d.forget) :
    (s.performAll c).env.link = d.forget := by
  induction c generalizing s with
  | nil => exact h
  | cons e c ih =>
    refine ih (fun x hx => hc x (by simp [hx])) ?_
    have hseen : (s.perform e).env.link = s.env.link.observe s.pins.lCe e := rfl
    rw [hseen, h, linkDevice_observe_forget _ _ _ (hc e (by simp))]

theorem IsCleanup.mem {i : Instr} {s t : State} {c : List Event} (h : IsCleanup i s t c) :
    ∀ e ∈ c, e = .drive .lCe false ∨ e = .fail .lCe ∨ ∃ ns, e = .wait ns := by
  cases h with
  | engine => simp
  | closed => simp [disableTrace]
  | unknown => simp

theorem failureOf_isFailure {e : Event} (h : e.isAccess = true) : (failureOf e).isFailure = true := by
  cases e <;> first | rfl | exact nomatch h

section codes
variable {i : Instr} {s t : State}

/-- An operation that completes with IOFAULT failed at an access. -/
theorem Completes.of_ioFault (h : Completes i s t) (hio : t.status.err = .ioFault) :
    ∃ es f c, IsBody s es i ∧ (FailsIn es f ∨ releasesCe i = true ∧ f = es ∧ c = [.fail .lCe]) ∧ IsCleanup i s t c ∧
      Performs s (f ++ c) t := by
  cases h with
  | refused k hk ht =>
    have herr : t.status.err = k := by rw [ht]; exact complete_err k s
    obtain rfl : k = .ioFault := herr.symm.trans hio
    exact absurd hk (by decide)
  | whole _ _ _ herr => rw [herr] at hio; exact nomatch hio
  | failed es f c hbody hfails hcleanup hran => exact ⟨es, f, c, hbody, hfails, hcleanup, hran⟩

/-- An operation that completes with OK ran whole. -/
theorem Completes.of_ok (h : Completes i s t) (hok : t.status.err = .ok) :
    ∃ es, IsBody s es i ∧ Performs s (es ++ closing i s.link.pulse.toNat) t := by
  cases h with
  | refused k hk ht =>
    have herr : t.status.err = k := by rw [ht]; exact complete_err k s
    obtain rfl : k = .ok := herr.symm.trans hok
    exact absurd hk (by decide)
  | whole es hbody hran => exact ⟨es, hbody, hran⟩
  | failed _ _ _ _ _ _ _ herr => rw [herr] at hok; exact nomatch hok

/-- An operation that completes with IOFAULT leaves the device on the link unknown (R119). -/
theorem Completes.link_of_ioFault (h : Completes i s t) (hio : t.status.err = .ioFault) :
    t.env.link = s.env.link.forget := by
  obtain ⟨es, f, c, -, hfails, hcleanup, hran⟩ := h.of_ioFault hio
  rw [hran.env]
  obtain ⟨before, e, after, -, haccess, rfl⟩ | ⟨-, rfl, rfl⟩ := hfails
  · rw [performAll_append]
    exact performAll_link_of_forgotten hcleanup.mem (performAll_link_of_failure before (failureOf_isFailure haccess) s)
  · exact performAll_link_of_failure f rfl s

/-- An operation that completes with IOFAULT leaves the attached register unknown (R119). -/
theorem exec_sipo_of_ioFault (h : exec i s = .next t) (hio : t.status.err = .ioFault) :
    ∃ d : Sipo, t.env.sipo = d.forget := by
  obtain hi | hi | rfl := isSrOp_or_isLinkOp_or_errClear i
  · obtain ⟨es, f, c, -, hfails, hcleanup, hran⟩ := (exec_completes h).of_ioFault hio
    obtain rfl := hcleanup.eq_nil hi
    obtain ⟨before, e, after, -, haccess, rfl⟩ | ⟨-, -, hc⟩ := hfails
    · refine ⟨(s.performAll before).env.sipo, ?_⟩
      rw [hran.env, List.append_nil]
      exact performAll_sipo_of_failure before (failureOf_isFailure haccess) s
    · exact nomatch hc
  · obtain ⟨ev, hran, -, hlink, herr⟩ := (exec_completes h).exists_events
    exact ⟨s.env.sipo, by rw [hran.env, performAll_sipo ev s (hlink hi), if_pos (herr.mpr hio)]⟩
  · obtain rfl := Host.Outcome.next.inj ((exec_errClear s).symm.trans h)
    exact nomatch hio

end codes

/-! ### The cost of a sequence -/

/-- The minimum wait, the number of accesses and the number of events of a list of events (R120). -/
def eventCost (ev : List Event) : Nat × Nat × Nat := (waitTotal ev, accessCount ev, ev.length)

theorem waitTotal_append (as bs : List Event) : waitTotal (as ++ bs) = waitTotal as + waitTotal bs := by
  simp [waitTotal]

theorem eventCost_append (as bs : List Event) : eventCost (as ++ bs) = eventCost as + eventCost bs := by
  rw [eventCost, waitTotal_append, accessCount_append, List.length_append]
  rfl

/-- Parts of the same cost, one after the other. -/
theorem eventCost_flatMap {part : Bool → List Event} {w a n : Nat} (h : ∀ b, eventCost (part b) = (w, a, n))
    (bits : List Bool) :
    eventCost (bits.flatMap part) = (bits.length * w, bits.length * a, bits.length * n) := by
  induction bits with
  | nil => simp [eventCost, waitTotal, accessCount]
  | cons b bits ih =>
    rw [List.flatMap_cons, eventCost_append, ih, h, List.length_cons]
    simp only [Prod.mk_add_mk, Prod.mk.injEq]
    exact ⟨by ring, by ring, by ring⟩

theorem eventCost_loadTrace (ps : Nat) (b : Bool) : eventCost (loadTrace ps b) = (2 * ps, 3, 5) := by
  simp [eventCost, loadTrace, waitTotal, Event.waitNs, accessCount, Event.isAccess, List.countP_cons, two_mul]

theorem eventCost_replayTrace (ps : Nat) (bits : List Bool) :
    eventCost (replayTrace ps bits) = (2 * bits.length * ps, 3 * bits.length, 5 * bits.length) := by
  rw [replayTrace, eventCost_flatMap (eventCost_loadTrace ps)]
  simp only [Prod.mk.injEq]
  exact ⟨by ring, by ring, by ring⟩

theorem eventCost_latchTrace : eventCost latchTrace = (0, 2, 2) := rfl

theorem eventCost_enableTrace (p : Nat) : eventCost (enableTrace p) = (2 * p, 2, 4) := by
  simp [eventCost, enableTrace, waitTotal, Event.waitNs, accessCount, Event.isAccess, List.countP_cons, two_mul]

theorem eventCost_disableTrace (p : Nat) : eventCost (disableTrace p) = (p, 1, 2) := by
  simp [eventCost, disableTrace, waitTotal, Event.waitNs, accessCount, Event.isAccess, List.countP_cons]

theorem eventCost_pulseTrace (p : Nat) : eventCost (pulseTrace p) = (2 * p, 2, 4) := by
  simp [eventCost, pulseTrace, waitTotal, Event.waitNs, accessCount, Event.isAccess, List.countP_cons, two_mul]

theorem eventCost_txBitTrace (p : Nat) (v : Bool) : eventCost (txBitTrace p v) = (3 * p, 3, 6) := by
  rw [txBitTrace, eventCost_append, eventCost_pulseTrace]
  simp [eventCost, waitTotal, Event.waitNs, accessCount, Event.isAccess, List.countP_cons]
  omega

theorem eventCost_rxBitTrace (p : Nat) (v : Bool) : eventCost (rxBitTrace p v) = (3 * p, 3, 6) := by
  rw [rxBitTrace, eventCost_append, eventCost_pulseTrace]
  simp [eventCost, waitTotal, Event.waitNs, accessCount, Event.isAccess, List.countP_cons]
  omega

/-- A direction change and eight bits of the same cost. -/
theorem eventCost_byte {part : Bool → List Event} {p : Nat} (h : ∀ b, eventCost (part b) = (3 * p, 3, 6)) (d : PinDir)
    (x : Byte) : eventCost (.dir d :: (wireBits x).flatMap part) = (24 * p, 25, 49) := by
  have hdir : eventCost [.dir d] = (0, 1, 1) := rfl
  have hbits := eventCost_flatMap h (wireBits x)
  have hsplit := eventCost_append [.dir d] ((wireBits x).flatMap part)
  rw [hdir, hbits] at hsplit
  refine hsplit.trans ?_
  simp only [wireBits, List.length_cons, List.length_nil, Prod.mk_add_mk, Prod.mk.injEq]
  exact ⟨by ring, trivial⟩

theorem eventCost_txTrace (p : Nat) (x : Byte) : eventCost (txTrace p x) = (24 * p, 25, 49) :=
  eventCost_byte (eventCost_txBitTrace p) .output x

theorem eventCost_rxTrace (p : Nat) (x : Byte) : eventCost (rxTrace p x) = (24 * p, 25, 49) :=
  eventCost_byte (eventCost_rxBitTrace p) .input x

theorem eventCost_of_isFullReplay {s : State} {es : List Event} (hinv : SrInv s.params s.sr) (h : IsFullReplay s es) :
    eventCost es = (2 * s.sr.cap.toNat * s.params.srPulseNs, 3 * s.sr.cap.toNat + 2, 5 * s.sr.cap.toNat + 2) := by
  obtain ⟨bits, hlen, rfl⟩ := h
  rw [eventCost_append, eventCost_replayTrace, eventCost_latchTrace, hlen hinv]
  rfl

/-- The row of the timing table is the cost of the operation's whole sequence (R120). -/
theorem IsBody.eventCost {s : State} {es : List Event} {i : Instr} (h : IsBody s es i) (hinv : SrInv s.params s.sr) :
    eventCost (es ++ closing i s.link.pulse.toNat) = timingRow i s := by
  have hnil (as : List Event) : as ++ [] = as := List.append_nil as
  cases i with
  | srConfig | srIsfull | linkConfig | linkIsen | errClear => obtain rfl := h; rfl
  | srLoad b =>
    rw [IsBody] at h
    rw [h, timingRow]
    cases hord : s.sr.ord with
    | base => exact (congrArg _ (hnil _)).trans (eventCost_loadTrace _ b)
    | ordered => rfl
  | srCommit =>
    rw [IsBody] at h
    rw [timingRow]
    cases hord : s.sr.ord with
    | base => rw [hord] at h; subst h; rfl
    | ordered => rw [hord] at h; exact (congrArg _ (hnil _)).trans (eventCost_of_isFullReplay hinv h)
  | srClear => exact (congrArg _ (hnil _)).trans (eventCost_of_isFullReplay hinv h)
  | linkEnable => obtain rfl := h; exact (congrArg _ (hnil _)).trans (eventCost_enableTrace _)
  | linkDisable => obtain rfl := h; exact eventCost_disableTrace _
  | linkTx | cmdbyteWriteRam | cmdbyteReadRam | cmdbyteWriteRtc | cmdbyteReadRtc =>
    obtain rfl := h
    exact (congrArg _ (hnil _)).trans (eventCost_txTrace _ _)
  | linkRx => obtain ⟨r, rfl⟩ := h; exact (congrArg _ (hnil _)).trans (eventCost_rxTrace _ _)
  | cmdWrite c n v =>
    obtain rfl := h
    show Machine.eventCost (writeEvents _ c n v ++ disableTrace _) = (51 * s.link.pulse.toNat, 53, 104)
    rw [writeEvents, eventCost_append, eventCost_append, eventCost_append, eventCost_enableTrace, eventCost_txTrace,
      eventCost_txTrace, eventCost_disableTrace]
    simp only [Prod.mk_add_mk, Prod.mk.injEq, and_true]
    omega
  | cmdRead c n =>
    obtain ⟨r, rfl⟩ := h
    show Machine.eventCost (readEvents _ c n r ++ disableTrace _) = (51 * s.link.pulse.toNat, 53, 104)
    rw [readEvents, eventCost_append, eventCost_append, eventCost_append, eventCost_enableTrace, eventCost_txTrace,
      eventCost_rxTrace, eventCost_disableTrace]
    simp only [Prod.mk_add_mk, Prod.mk.injEq, and_true]
    omega

end Sys2Proof.Machine
end

section
/-! SUPPORT. Events that do not touch L_DATA leave its direction and its level (R10, R11, R25). -/

namespace Sys2Proof.Machine

/-- An event that neither drives or samples L_DATA nor sets its direction, and is no failure of one that does. -/
def Event.offData : Event → Bool
  | .drive .lData _ | .dir _ | .sample _ | .fail .lData | .failDir => false
  | _ => true

theorem lines_event_of_offData {e : Event} (h : e.offData = true) (l : Lines) :
    (l.event e).dir = l.dir ∧ (l.event e).dout = l.dout := by
  cases e with
  | drive p _ | fail p =>
    cases p with
    | lData => exact nomatch h
    | srData | srClk | srLatch | lClk | lCe => exact ⟨rfl, rfl⟩
  | wait => exact ⟨rfl, rfl⟩
  | sample | dir | failDir => exact nomatch h

theorem performAll_data {ev : List Event} (h : ∀ e ∈ ev, e.offData = true) (s : State) :
    (s.performAll ev).link.dir = s.link.dir ∧ (s.performAll ev).link.dout = s.link.dout := by
  induction ev generalizing s with
  | nil => exact ⟨rfl, rfl⟩
  | cons e ev ih =>
    obtain ⟨hdir, hdout⟩ := lines_event_of_offData (h e (by simp)) s.lines
    obtain ⟨hdirs, hdouts⟩ := ih (fun x hx => h x (by simp [hx])) (s.perform e)
    exact ⟨hdirs.trans hdir, hdouts.trans hdout⟩

theorem Performs.data {s t : State} {ev : List Event} (hran : Performs s ev t) (h : ∀ e ∈ ev, e.offData = true) :
    t.link.dir = s.link.dir ∧ t.link.dout = s.link.dout := by
  obtain ⟨hdir, hdout⟩ := performAll_data h s
  exact ⟨(congrArg Lines.dir hran.lines).trans hdir, (congrArg Lines.dout hran.lines).trans hdout⟩

theorem failureOf_offData {e : Event} (h : e.offData = true) : (failureOf e).offData = true := by
  cases e with
  | drive p _ =>
    cases p with
    | lData => exact nomatch h
    | srData | srClk | srLatch | lClk | lCe => rfl
  | fail | wait => exact h
  | sample | dir | failDir => exact nomatch h

theorem disableTrace_offData (p : Nat) : ∀ e ∈ disableTrace p, e.offData = true := by simp [disableTrace, Event.offData]

/-- The operations of the link that do not touch L_DATA. -/
def sparesData : Instr → Bool
  | .linkConfig _ | .linkEnable | .linkDisable | .linkIsen => true
  | _ => false

theorem IsBody.offData {s : State} {es : List Event} {i : Instr} (h : IsBody s es i) (hi : sparesData i = true) :
    ∀ e ∈ es, e.offData = true := by
  cases i with
  | linkConfig | linkDisable | linkIsen => obtain rfl := h; simp
  | linkEnable => obtain rfl := h; simp [enableTrace, Event.offData]
  | _ => exact nomatch hi

theorem exec_data_of_sparesData {i : Instr} {s t : State} (hi : sparesData i = true) (h : exec i s = .next t) :
    t.link.dir = s.link.dir ∧ t.link.dout = s.link.dout := by
  cases exec_completes h with
  | refused k _ ht => subst ht; exact ⟨rfl, rfl⟩
  | whole es hbody hran =>
    refine hran.data (List.forall_mem_append.mpr ⟨hbody.offData hi, ?_⟩)
    rw [closing]
    split
    · exact disableTrace_offData _
    · simp
  | failed es f c hbody hfails hcleanup hran =>
    refine hran.data (List.forall_mem_append.mpr ⟨?_, ?_⟩)
    · obtain hfails | ⟨-, rfl, -⟩ := hfails
      · exact FailsIn_all hfails (hbody.offData hi) fun e => failureOf_offData
      · exact hbody.offData hi
    · cases hcleanup with
      | engine => simp
      | closed => exact disableTrace_offData _
      | unknown => simp [Event.offData]

theorem lData_eq {s t : State} (hdir : t.link.dir = s.link.dir) (hdout : t.link.dout = s.link.dout) :
    t.lData = s.lData := by
  rw [State.lData, State.lData, hdir, hdout]

end Sys2Proof.Machine
end

section
/-! The statements about the events of every operation, settled. -/

namespace Sys2Proof.Machine

/-- Settles O51: who writes the configuration, and that the other operations' events do not touch L_DATA. -/
theorem onlyConfigurationOperationsConfigure : Obligations.OnlyConfigurationOperationsConfigure := by
  refine ⟨fun i s t h => ⟨fun hi => exec_sameSrConfig hi h, fun hi => exec_sameLinkConfig hi h, fun hi => ?data⟩,
    fun s => ⟨fun hd => by rw [State.lData, hd], fun hd => by rw [State.lData, hd], fun hd => by rw [State.lData, hd]⟩⟩
  case data =>
    have hdata : t.link.dir = s.link.dir ∧ t.link.dout = s.link.dout := by
      obtain hsr | rfl | rfl | rfl | rfl | ⟨ns, rfl⟩ := hi
      · rw [exec_srOp_link hsr h]
        exact ⟨rfl, rfl⟩
      · obtain rfl := Host.Outcome.next.inj ((exec_errClear s).symm.trans h)
        exact ⟨rfl, rfl⟩
      · exact exec_data_of_sparesData rfl h
      · exact exec_data_of_sparesData rfl h
      · exact exec_data_of_sparesData rfl h
      · exact exec_data_of_sparesData rfl h
    obtain ⟨hdir, hdout⟩ := hdata
    exact ⟨hdir, hdout, lData_eq hdir hdout⟩

/-- Settles O52: the events of each way an operation completes, their bound, and the devices after a failure. -/
theorem operationAppendsABoundedSegment : Obligations.OperationAppendsABoundedSegment := by
  intro i s t hinv h
  obtain ⟨ev, hran, -, -, herr⟩ := (exec_completes h).exists_events
  refine ⟨⟨ev, hran.trace, hran.accesses, ?_, ?_⟩, fun hio => ?_⟩
  · have hbound := (exec_completes h).accesses_le hinv
    rw [hran.accesses] at hbound
    omega
  · rw [← herr, List.any_eq_true]
  · obtain ⟨d, hd⟩ := exec_sipo_of_ioFault h hio
    rw [hd]
    exact ⟨fun l hl => eq_x_of_mem_allX hl, fun l hl => eq_x_of_mem_allX hl, (exec_completes h).link_of_ioFault hio⟩

/-- Settles O53: the places of the two events in each operation's sequence. -/
theorem wireOrderInvariants : Obligations.WireOrderInvariants := by
  intro i s t h
  obtain ⟨ev, htrace, hdir, hrise⟩ := exec_wireOrder h
  exact ⟨ev, htrace, fun before d after hev => hdir d before after hev, hrise⟩

/-- Settles O54: the cost of the sequence that an operation with OK ran. -/
theorem timingTable : Obligations.TimingTable := by
  intro i s t hinv h hok
  obtain ⟨es, hbody, hran⟩ := (exec_completes h).of_ok hok
  exact ⟨_, hran.trace, hbody.eventCost hinv⟩

end Sys2Proof.Machine
end

section
/-! SUPPORT. What each operation keeps of the invariant: the engine's counters and buffer (R19 to R23), the link's
fields and their agreement with L_CE (R25, R75, R76), the code with its sticky bit (R97), and the devices' lengths
(R34, R35). -/

namespace Sys2Proof.Machine

/-! ### The engine -/

section engine
variable {p : Params} {e : SrEngine}

theorem SrInv.reset (p : Params) : SrInv p .reset where
  unconfigured _ := rfl
  capLegal h := nomatch h
  bremLe := Nat.le_refl _
  oremLe := Nat.le_refl _
  base _ := ⟨rfl, rfl⟩
  ordered h := nomatch h

/-- SR.CONFIG leaves an empty engine of a legal capacity (R66). -/
theorem SrInv.configured {cap : BitVec 16} (h : Machine.capLegal p cap = true) (mode : BitOrder) (ord : Personality) :
    SrInv p { cfg := true, cap := cap, ord := ord, mode := mode, brem := cap, orem := cap, buf := [] } where
  unconfigured h := nomatch h
  capLegal _ := (capLegal_iff p cap).mp h
  bremLe := Nat.le_refl _
  oremLe := Nat.le_refl _
  base _ := ⟨rfl, rfl⟩
  ordered _ := ⟨rfl, Nat.zero_add _⟩

/-- The cleanup empties the engine and keeps its configuration (R65). -/
theorem SrInv.cleaned (h : SrInv p e) : SrInv p { e with brem := e.cap, orem := e.cap, buf := [] } where
  unconfigured hcfg := by rw [h.unconfigured hcfg]; rfl
  capLegal := h.capLegal
  bremLe := Nat.le_refl _
  oremLe := Nat.le_refl _
  base _ := ⟨rfl, rfl⟩
  ordered _ := ⟨rfl, Nat.zero_add _⟩

/-- A base load counts down (R63). -/
theorem SrInv.loaded (h : SrInv p e) (hcfg : e.cfg = true) (hord : e.ord = .base) (hroom : 0 < e.brem.toNat) :
    SrInv p { e with brem := e.brem - 1 } where
  unconfigured hno := absurd hno (by simp [hcfg])
  capLegal := h.capLegal
  bremLe := by
    have := h.bremLe
    rw [toNat_sub_one_of_pos hroom]
    exact (Nat.sub_le _ _).trans this
  oremLe := h.oremLe
  base := h.base
  ordered hno := absurd hno (by simp [hord])

/-- A base latch empties the base counter (R64). -/
theorem SrInv.latched (h : SrInv p e) (hcfg : e.cfg = true) (hord : e.ord = .base) :
    SrInv p { e with brem := e.cap } where
  unconfigured hno := absurd hno (by simp [hcfg])
  capLegal := h.capLegal
  bremLe := Nat.le_refl _
  oremLe := h.oremLe
  base := h.base
  ordered hno := absurd hno (by simp [hord])

/-- An ordered load buffers its bit and counts down (R67). -/
theorem SrInv.buffered (h : SrInv p e) (b : Bool) (hcfg : e.cfg = true) (hord : e.ord = .ordered)
    (hroom : 0 < e.orem.toNat) : SrInv p { e with buf := e.buf ++ [b], orem := e.orem - 1 } where
  unconfigured hno := absurd hno (by simp [hcfg])
  capLegal := h.capLegal
  bremLe := h.bremLe
  oremLe := by
    have := h.oremLe
    rw [toNat_sub_one_of_pos hroom]
    exact (Nat.sub_le _ _).trans this
  base hno := absurd hno (by simp [hord])
  ordered _ := by
    obtain ⟨hbrem, hlen⟩ := h.ordered hord
    refine ⟨hbrem, ?_⟩
    show (e.buf ++ [b]).length + (e.orem - 1).toNat = e.cap.toNat
    rw [toNat_sub_one_of_pos hroom, List.length_append, List.length_singleton]
    omega

end engine

section bodies
variable {s : State} (h : SrInv s.params s.sr)
include h

theorem srInv_cleanup (ev : List Event) : SrInv s.params (s.performAll ev).srCleanup.sr := by
  rw [State.srCleanup_sr, performAll_sr]
  exact h.cleaned

theorem srInv_srLoadBody (b : Bool) : SrInv s.params (srLoadBody b s).state.sr := by
  obtain ⟨-, hr⟩ | ⟨hcfg, hord, hroom, hr | ⟨ev, -, hr⟩⟩ | ⟨hcfg, hord, hroom, hr⟩ := srLoadBody_outcomes b s <;> rw [hr]
  · exact h
  · rw [state_done, State.setBrem_sr, performAll_sr]
    exact h.loaded hcfg hord hroom
  · exact srInv_cleanup h ev
  · exact h.buffered b hcfg hord hroom

theorem srInv_srCommitBody : SrInv s.params (srCommitBody s).state.sr := by
  obtain ⟨-, hr⟩ | ⟨hcfg, hord, hr | ⟨ev, -, hr⟩⟩ | ⟨-, -, -, hr | ⟨ev, -, hr⟩⟩ := srCommitBody_outcomes s <;> rw [hr]
  · exact h
  · rw [state_done, State.setBrem_sr, performAll_sr]
    exact h.latched hcfg hord
  · exact srInv_cleanup h ev
  · exact srInv_cleanup h _
  · exact srInv_cleanup h ev

theorem srInv_srClearBody : SrInv s.params (srClearBody s).state.sr := by
  obtain ⟨-, hr⟩ | ⟨hcfg, -, bits, ⟨hord, -, hr⟩ | ⟨-, -, hr⟩ | ⟨ev, -, hr⟩⟩ := srClearBody_outcomes s <;> rw [hr]
  · exact h
  · rw [state_done, State.setBrem_sr, performAll_sr]
    exact h.latched hcfg hord
  · exact srInv_cleanup h _
  · exact srInv_cleanup h ev

end bodies

/-- A completion leaves the engine as the body left it. -/
theorem sr_of_finish {r : Result Unit} {t : State} (h : finish r = .next t) : t.sr = r.state.sr := by
  obtain ⟨k, hk⟩ := finish_next r
  obtain rfl := Host.Outcome.next.inj (hk.symm.trans h)
  rfl

theorem exec_srInv {i : Instr} {s t : State} (hinv : SrInv s.params s.sr) (h : exec i s = .next t) :
    SrInv s.params t.sr := by
  obtain hsr | hlink | rfl := isSrOp_or_isLinkOp_or_errClear i
  · cases i with
    | srConfig cap mode ord =>
      cases hcap : capLegal s.params cap with
      | false =>
        obtain rfl := Host.Outcome.next.inj ((exec_srConfig_of_not_capLegal mode ord hcap).symm.trans h)
        exact hinv
      | true =>
        obtain rfl := Host.Outcome.next.inj ((exec_srConfig_of_capLegal mode ord hcap).symm.trans h)
        exact .configured hcap mode ord
    | srLoad b => rw [sr_of_finish h]; exact srInv_srLoadBody hinv b
    | srCommit => rw [sr_of_finish h]; exact srInv_srCommitBody hinv
    | srClear => rw [sr_of_finish h]; exact srInv_srClearBody hinv
    | srIsfull => rw [execSrIsfull_sr h]; exact hinv
    | _ => exact nomatch hsr
  · rw [exec_linkOp_sr hlink h]
    exact hinv
  · obtain rfl := Host.Outcome.next.inj ((exec_errClear s).symm.trans h)
    exact hinv

/-! ### The link -/

/-- An unconfigured link refuses every operation but LINK.CONFIG. -/
theorem exec_linkOp_of_not_cfg {i : Instr} {s : State} (hi : isLinkOp i = true) (hconfig : ∀ ns, i ≠ .linkConfig ns)
    (hcfg : s.link.cfg = false) : exec i s = .next (s.refusedWith .precond) := by
  cases i with
  | linkConfig ns => exact absurd rfl (hconfig ns)
  | linkEnable => rw [exec, execLinkEnable, hcfg, require_false, finish_raised]; rfl
  | linkDisable => exact exec_linkDisable_of_not_cfg hcfg
  | linkRx => rw [exec, execLinkRx, hcfg, require_false, finish_raised]; rfl
  | linkIsen => exact exec_linkIsen_of_not_cfg hcfg
  | cmdWrite => rw [exec, execCmdWrite, hcfg, require_false, finish_raised]; rfl
  | cmdRead => rw [exec, execCmdRead, hcfg, require_false, finish_raised]; rfl
  | linkTx => rw [exec, execLinkTx, sendByte, hcfg, require_false, finish_raised]; rfl
  | cmdbyteWriteRam => rw [exec, execCmdbyteWriteRam, sendByte, hcfg, require_false, finish_raised]; rfl
  | cmdbyteReadRam => rw [exec, execCmdbyteReadRam, sendByte, hcfg, require_false, finish_raised]; rfl
  | cmdbyteWriteRtc => rw [exec, execCmdbyteWriteRtc, sendByte, hcfg, require_false, finish_raised]; rfl
  | cmdbyteReadRtc => rw [exec, execCmdbyteReadRtc, sendByte, hcfg, require_false, finish_raised]; rfl
  | srConfig | srLoad | srCommit | srClear | srIsfull | errClear => exact nomatch hi

/-! What a sequence of the link leaves of the lines (R74 to R78), by running it on them. -/

theorem foldl_enableTrace (p : Nat) (l : Lines) :
    (enableTrace p).foldl Lines.event l = { l with pins := { l.pins with lClk := .low, lCe := .high } } := rfl

theorem foldl_disableTrace (p : Nat) (l : Lines) :
    (disableTrace p).foldl Lines.event l = { l with pins := { l.pins with lCe := .low } } := rfl

theorem foldl_txBitTrace (p : Nat) (v : Bool) (l : Lines) :
    (txBitTrace p v).foldl Lines.event l = { l with pins := { l.pins with lClk := .low }, dout := .ofBit v } := rfl

theorem foldl_rxBitTrace (p : Nat) (v : Bool) (l : Lines) :
    (rxBitTrace p v).foldl Lines.event l = { l with pins := { l.pins with lClk := .low } } := rfl

theorem foldl_txTrace (p : Nat) (x : Byte) (l : Lines) :
    (txTrace p x).foldl Lines.event l =
      { pins := { l.pins with lClk := .low }, dir := .output, dout := .ofBit (x.getLsbD 7) } := by
  simp only [txTrace, wireBits, List.foldl_cons, List.flatMap_cons, List.flatMap_nil, List.foldl_append, List.foldl_nil,
    foldl_txBitTrace, Lines.event, DirState.ofDir]

theorem foldl_rxTrace (p : Nat) (r : Byte) (l : Lines) :
    (rxTrace p r).foldl Lines.event l = { l with pins := { l.pins with lClk := .low }, dir := .input } := by
  simp only [rxTrace, wireBits, List.foldl_cons, List.flatMap_cons, List.flatMap_nil, List.foldl_append, List.foldl_nil,
    foldl_rxBitTrace, Lines.event, DirState.ofDir]

/-- The events of a byte transfer leave L_CE. -/
theorem Performs.lCe_of_foldl {s t : State} {ev : List Event} (hran : Performs s ev t)
    (h : ∀ l, (ev.foldl Lines.event l).pins.lCe = l.pins.lCe) : t.pins.lCe = s.pins.lCe := by
  have hlines := hran.lines.trans (performAll_lines s ev)
  exact (congrArg (fun l => l.pins.lCe) hlines).trans (h s.lines)

theorem closing_of_not_releasesCe {i : Instr} (h : releasesCe i = false) (p : Nat) : closing i p = [] := by
  rw [closing, h]
  rfl

theorem performAll_lCe_of_disableTrace (f : List Event) (p : Nat) (s : State) :
    (s.performAll (f ++ disableTrace p)).pins.lCe = .low := by
  rw [performAll_append]
  rfl

theorem performAll_lCe_of_fail (f : List Event) (s : State) : (s.performAll (f ++ [.fail .lCe])).pins.lCe = .x := by
  rw [performAll_append]
  rfl

/-- An operation of the link that completes leaves L_CE low in no session, unknown, high in a session, or both as they
were (R75, R76, R79). -/
theorem exec_session {i : Instr} {s t : State} (hi : isLinkOp i = true) (h : exec i s = .next t) :
    t.pins.lCe = .low ∧ t.link.te = false ∨ t.pins.lCe = .x ∨ t.pins.lCe = .high ∧ t.link.te = true ∨
      t.pins.lCe = s.pins.lCe ∧ t.link.te = s.link.te := by
  cases exec_completes h with
  | refused k _ ht => subst ht; exact .inr (.inr (.inr ⟨rfl, rfl⟩))
  | whole es hbody hran _ hte =>
    have hte := hte hi
    cases i with
    | linkDisable | cmdWrite | cmdRead =>
      exact .inl ⟨(congrArg Pins.lCe hran.pins).trans (performAll_lCe_of_disableTrace es _ s), hte⟩
    | linkEnable =>
      rw [closing_of_not_releasesCe rfl, List.append_nil, hbody] at hran
      exact .inr (.inr (.inl ⟨congrArg Pins.lCe hran.pins, hte⟩))
    | linkRx =>
      obtain ⟨r, hbody⟩ := hbody
      rw [closing_of_not_releasesCe rfl, List.append_nil, hbody] at hran
      exact .inr (.inr (.inr ⟨hran.lCe_of_foldl fun l => by rw [foldl_rxTrace], hte⟩))
    | linkTx | cmdbyteWriteRam | cmdbyteReadRam | cmdbyteWriteRtc | cmdbyteReadRtc =>
      rw [closing_of_not_releasesCe rfl, List.append_nil, hbody] at hran
      exact .inr (.inr (.inr ⟨hran.lCe_of_foldl fun l => by rw [foldl_txTrace], hte⟩))
    | linkConfig | linkIsen =>
      rw [closing_of_not_releasesCe rfl, List.append_nil, hbody] at hran
      exact .inr (.inr (.inr ⟨hran.lCe_of_foldl fun l => rfl, hte⟩))
    | srConfig | srLoad | srCommit | srClear | srIsfull | errClear => exact nomatch hi
  | failed es f c hbody hfails hcleanup hran =>
    have hpins := hran.pins
    cases hcleanup with
    | engine hsr => exact (not_isLinkOp_of_isSrOp hsr hi).elim
    | closed _ hte => exact .inl ⟨(congrArg Pins.lCe hpins).trans (performAll_lCe_of_disableTrace f _ s), hte⟩
    | unknown => exact .inr (.inl ((congrArg Pins.lCe hpins).trans (performAll_lCe_of_fail f s)))

theorem LinkInv.reset : LinkInv .reset .low where
  unconfigured _ := rfl
  pulseLegal h := nomatch h
  enabledCe h := nomatch h
  ceEnabled h := nomatch h

theorem exec_linkInv_of_isLinkOp {i : Instr} {s t : State} (hi : isLinkOp i = true) (hconfig : ∀ ns, i ≠ .linkConfig ns)
    (hinv : LinkInv s.link s.pins.lCe) (h : exec i s = .next t) : LinkInv t.link t.pins.lCe := by
  cases hcfg : s.link.cfg with
  | false =>
    obtain rfl := Host.Outcome.next.inj ((exec_linkOp_of_not_cfg hi hconfig hcfg).symm.trans h)
    exact hinv
  | true =>
    obtain ⟨hsame, hpulse⟩ := exec_sameLinkConfig hconfig h
    have hsession := exec_session hi h
    refine ⟨fun hno => ?_, fun _ => ?_, fun hte => ?_, fun hce => ?_⟩
    · rw [hsame, hcfg] at hno
      exact nomatch hno
    · rw [hpulse]
      exact hinv.pulseLegal hcfg
    · obtain ⟨-, hno⟩ | hce | ⟨hce, -⟩ | ⟨hce, hsame⟩ := hsession
      · rw [hno] at hte
        exact nomatch hte
      · simp [hce]
      · simp [hce]
      · rw [hce]
        exact hinv.enabledCe (hsame ▸ hte)
    · obtain ⟨hno, -⟩ | hno | ⟨-, hte⟩ | ⟨hsameCe, hsame⟩ := hsession
      · rw [hno] at hce
        exact nomatch hce
      · rw [hno] at hce
        exact nomatch hce
      · exact hte
      · rw [hsame]
        exact hinv.ceEnabled (hsameCe ▸ hce)

/-- LINK.CONFIG sets a legal pulse, in no session (R80). -/
theorem exec_linkInv_linkConfig {ns : BitVec 24} {s t : State} (hinv : LinkInv s.link s.pins.lCe)
    (h : exec (.linkConfig ns) s = .next t) : LinkInv t.link t.pins.lCe := by
  cases hns : pulseLegal ns with
  | false =>
    rw [exec, execLinkConfig, hns, require_false, finish_raised] at h
    obtain rfl := Host.Outcome.next.inj h
    exact hinv
  | true =>
    cases hte : s.link.te with
    | true =>
      obtain rfl := Host.Outcome.next.inj ((exec_linkConfig_in_session ns hte).symm.trans h)
      exact hinv
    | false =>
      obtain rfl := Host.Outcome.next.inj ((exec_linkConfig_of_legal hns hte).symm.trans h)
      exact ⟨fun hno => (nomatch hno), fun _ => (pulseLegal_iff ns).mp hns, hinv.enabledCe, hinv.ceEnabled⟩

theorem exec_linkInv {i : Instr} {s t : State} (hinv : LinkInv s.link s.pins.lCe) (h : exec i s = .next t) :
    LinkInv t.link t.pins.lCe := by
  obtain hsr | hlink | rfl := isSrOp_or_isLinkOp_or_errClear i
  · obtain ⟨-, hlink, -, hce, -⟩ := exec_srFrame hsr h
    rw [hlink, hce]
    exact hinv
  · by_cases hconfig : ∃ ns, i = .linkConfig ns
    · obtain ⟨ns, rfl⟩ := hconfig
      exact exec_linkInv_linkConfig hinv h
    · exact exec_linkInv_of_isLinkOp hlink (fun ns hns => hconfig ⟨ns, hns⟩) hinv h
  · obtain rfl := Host.Outcome.next.inj ((exec_errClear s).symm.trans h)
    exact hinv

/-! ### STATUS -/

theorem StatusBits.complete_consistent (k : Completion) (b : StatusBits) : (b.complete k).consistent = true := by
  cases k <;> rfl

theorem exec_status_consistent {i : Instr} {s t : State} (h : exec i s = .next t) : t.status.consistent = true := by
  by_cases hi : i = .errClear
  · subst hi
    obtain rfl := Host.Outcome.next.inj ((exec_errClear s).symm.trans h)
    rfl
  · obtain ⟨k, hk⟩ := exec_status_eq_complete hi h
    rw [hk]
    exact StatusBits.complete_consistent k _

/-! ### The devices -/

/-- The attached register has `n` positions. -/
def Sipo.HasLength (n : Nat) (d : Sipo) : Prop := d.stage.length = n ∧ d.outs.length = n

/-- RAMCHIP has 32 bytes (R35). -/
def LinkDevice.Sized (d : LinkDevice) : Prop := ∀ c, d = .ramchip c → c.ram.length = 32

theorem sized_iff (p : Params) (e : Env) : e.sized p = true ↔ e.sipo.HasLength p.devLen ∧ e.link.Sized := by
  rw [Env.sized, Sipo.HasLength, LinkDevice.Sized]
  cases e.link <;> simp

@[simp] theorem length_allX (l : List Level) : (allX l).length = l.length := List.length_map _

@[simp] theorem length_shiftIn (data : Level) (stage : List Level) : (shiftIn data stage).length = stage.length := by
  simp [shiftIn]

theorem Sipo.HasLength.forget {n : Nat} {d : Sipo} (h : d.HasLength n) : d.forget.HasLength n := by
  obtain ⟨hstage, houts⟩ := h
  exact ⟨(length_allX _).trans hstage, (length_allX _).trans houts⟩

theorem Sipo.HasLength.clkEvent {n : Nat} {d : Sipo} (h : d.HasLength n) (old : Level) (v : Bool) (data : Level) :
    (d.clkEvent old v data).HasLength n := by
  obtain ⟨hstage, houts⟩ := h
  unfold Sipo.clkEvent
  split
  · exact ⟨(length_shiftIn ..).trans hstage, houts⟩
  · exact ⟨(length_allX _).trans hstage, houts⟩
  · exact ⟨hstage, houts⟩

theorem Sipo.HasLength.latchEvent {n : Nat} {d : Sipo} (h : d.HasLength n) (old : Level) (v : Bool) :
    (d.latchEvent old v).HasLength n := by
  obtain ⟨hstage, houts⟩ := h
  unfold Sipo.latchEvent
  split
  · exact ⟨hstage, hstage⟩
  · exact ⟨hstage, (length_allX _).trans houts⟩
  · exact ⟨hstage, houts⟩

theorem Sipo.HasLength.observe {n : Nat} {d : Sipo} (h : d.HasLength n) (pins : Pins) (e : Event) :
    (d.observe pins e).HasLength n := by
  cases e with
  | drive p v =>
    cases p with
    | srClk => exact h.clkEvent ..
    | srLatch => exact h.latchEvent ..
    | _ => exact h
  | fail | failDir => exact h.forget
  | _ => exact h

theorem RamChip.length_takeByte (b : Byte) (c : RamChip) : (c.takeByte b).ram.length = c.ram.length := by
  rw [RamChip.takeByte]
  split
  · split_ifs <;> rfl
  · exact List.length_set
  · rfl

theorem RamChip.length_takeBit (v : Bool) (c : RamChip) : (c.takeBit v).ram.length = c.ram.length := by
  simp only [RamChip.takeBit]
  split
  · exact RamChip.length_takeByte _ _
  · rfl

theorem RamChip.startOut_ram (c : RamChip) : c.startOut.ram = c.ram := by
  rw [RamChip.startOut]
  split
  · split <;> rfl
  · rfl

theorem RamChip.sampled_ram (c : RamChip) : c.sampled.ram = c.ram := by
  rw [RamChip.sampled]
  split
  · split_ifs <;> rfl
  · rfl

theorem RamChip.length_observe (ce : Level) (e : Event) (c : RamChip) : (c.observe ce e).ram.length = c.ram.length := by
  cases e with
  | drive p v =>
    cases p with
    | lCe =>
      cases v with
      | false => rfl
      | true => rw [RamChip.observe]; split_ifs <;> rfl
    | lData => exact RamChip.length_takeBit v c
    | _ => rfl
  | dir d =>
    cases d with
    | output => rfl
    | input => exact congrArg List.length (RamChip.startOut_ram c)
  | sample => exact congrArg List.length (RamChip.sampled_ram c)
  | _ => rfl

theorem LinkDevice.Sized.forget (d : LinkDevice) : d.forget.Sized := by
  cases d <;> exact fun c hc => nomatch hc

theorem LinkDevice.Sized.observe {d : LinkDevice} (h : d.Sized) (ce : Level) (e : Event) : (d.observe ce e).Sized := by
  unfold LinkDevice.observe
  split
  · exact .forget d
  · cases d with
    | free | loopback => exact fun c hc => nomatch hc
    | ramchip c =>
      intro c' hc'
      obtain rfl := LinkDevice.ramchip.inj hc'
      exact (RamChip.length_observe ce e c).trans (h c rfl)

theorem performAll_sized {p : Params} (ev : List Event) {s : State} (h : s.env.sized p = true) :
    (s.performAll ev).env.sized p = true := by
  induction ev generalizing s with
  | nil => exact h
  | cons e ev ih =>
    rw [sized_iff] at h
    obtain ⟨hsipo, hlink⟩ := h
    exact ih ((sized_iff p _).mpr ⟨hsipo.observe s.pins e, hlink.observe s.pins.lCe e⟩)

/-! ### The whole invariant -/

/-- The invariant reads nothing of RESULT, of the host's side, or of the environment besides its devices. -/
theorem State.Inv.with_fields {s t : State} (h : s.Inv) (hparams : t.params = s.params) (hsr : t.sr = s.sr)
    (hlink : t.link = s.link) (hpins : t.pins = s.pins) (hstatus : t.status.consistent = true) (htrace : t.trace = s.trace)
    (haccesses : t.accesses = s.accesses) (hsipo : t.env.sipo = s.env.sipo) (hdevice : t.env.link = s.env.link) :
    t.Inv where
  params := hparams ▸ h.params
  sr := by rw [hparams, hsr]; exact h.sr
  link := by rw [hlink, hpins]; exact h.link
  status := hstatus
  counted := by rw [haccesses, htrace]; exact h.counted
  lines := by
    have hlines : t.lines = s.lines := by rw [State.lines, State.lines, hpins, hlink]
    rw [hlines, htrace]
    exact h.lines
  ceSafe := htrace ▸ h.ceSafe
  env := by
    have henv := h.env
    rw [sized_iff] at henv ⊢
    rw [hparams, hsipo, hdevice]
    exact henv

/-- Every operation keeps the invariant. -/
theorem exec_inv {i : Instr} {s t : State} (hinv : s.Inv) (h : exec i s = .next t) : t.Inv := by
  obtain ⟨ev, hran, -⟩ := (exec_completes h).exists_events
  refine ⟨?_, ?_, exec_linkInv hinv.link h, exec_status_consistent h, ?_, ?_, ?_, ?_⟩
  · rw [hran.params]
    exact hinv.params
  · rw [hran.params]
    exact exec_srInv hinv.sr h
  · rw [hran.accesses, hran.trace, accessCount_append, hinv.counted]
  · rw [hran.lines, hran.trace, performAll_lines, hinv.lines, List.foldl_append]
  · obtain ⟨ev', htrace, -, hrise⟩ := exec_wireOrder h
    rw [htrace]
    refine OccursOnly.append hinv.ceSafe fun before after hev => ?_
    obtain ⟨start, rfl⟩ := hrise before after hev
    exact ⟨s.trace ++ start, s.link.pulse.toNat, (List.append_assoc ..).symm⟩
  · rw [hran.env, hran.params]
    exact performAll_sized ev hinv.env

theorem afterReset_inv {p : Params} {e : Env} (hp : p.wf = true) (he : e.sized p = true) (host : List Input)
    (replies : List Word) : (State.afterReset p e host replies).Inv where
  params := hp
  sr := .reset p
  link := .reset
  status := rfl
  counted := rfl
  lines := rfl
  ceSafe := OccursOnly.of_not_mem (es := []) List.not_mem_nil
  env := he

/-- RST keeps the devices' lengths, whether or not it abandons an operation (R109, R119). -/
theorem rst_inv {s : State} (h : s.Inv) (abandoned : Bool) (draws : List Draw) : (s.rst abandoned draws).Inv := by
  obtain ⟨hsipo, hlink⟩ := (sized_iff s.params s.env).mp h.env
  refine afterReset_inv h.params ((sized_iff s.params _).mpr ⟨?_, ?_⟩) _ _
  · cases abandoned with
    | false => exact hsipo
    | true => exact hsipo.forget
  · cases abandoned with
    | true => exact .forget _
    | false =>
      show LinkDevice.Sized (s.env.link.onRst false)
      intro c hc
      cases hdev : s.env.link with
      | free => rw [hdev] at hc; exact nomatch hc
      | loopback l => rw [hdev] at hc; exact nomatch hc
      | ramchip c' =>
        rw [hdev] at hc
        obtain rfl := LinkDevice.ramchip.inj hc
        exact hlink c' hdev

theorem answerRead_inv {s : State} (h : s.Inv) (p : Port) : (s.answerRead p).Inv := by
  unfold State.answerRead State.countResultRead
  split <;> exact h.with_fields rfl rfl rfl rfl h.status rfl rfl rfl rfl

theorem issue_inv {w : Word} {s t : State} (hinv : s.Inv) (h : issue w s = .next t) : t.Inv := by
  cases hdecode : decodeWord w with
  | ok i => exact exec_inv hinv ((issue_of_decodes hdecode s).symm.trans h)
  | error e =>
    obtain rfl := Host.Outcome.next.inj ((issue_of_illegal hdecode s).symm.trans h)
    exact hinv.with_fields rfl rfl rfl rfl (StatusBits.complete_consistent .illegal s.status) rfl rfl rfl rfl

theorem serveAccess_inv {a : Access} {s t : State} (hinv : s.Inv) (h : serveAccess a s = .next t) : t.Inv := by
  cases a with
  | read addr width =>
    rw [serveAccess] at h
    split_ifs at h
    obtain rfl := Host.Outcome.next.inj h
    exact answerRead_inv hinv _
  | write addr width v =>
    rw [serveAccess] at h
    split_ifs at h
    split at h
    · exact issue_inv hinv h
    · obtain rfl := Host.Outcome.next.inj h
      exact hinv
  | fetch addr =>
    rw [serveAccess] at h
    split_ifs at h

theorem serve_inv {i : Input} {s t : State} (hinv : s.Inv) (h : serve i s = .next t) : t.Inv := by
  cases i with
  | access a => exact serveAccess_inv hinv h
  | secondHost a => exact nomatch h
  | rst during draws =>
    obtain rfl := Host.Outcome.next.inj h
    exact rst_inv hinv _ draws
  | wireByte b =>
    rw [serve, sendWireByte] at h
    split at h
    · exact exec_inv hinv h
    · exact nomatch h

end Sys2Proof.Machine
end

section
/-! The statements about the invariant, settled. -/

namespace Sys2Proof.Machine

/-- Settles O57: the parameters after reset are legal and the devices have their lengths. -/
theorem resetMeetsTheInvariant : Obligations.ResetMeetsTheInvariant := afterReset_inv (by decide) (by decide) [] []

/-- Settles O58: the step serves one input, and each way of serving one keeps the invariant. -/
theorem everyStepKeepsTheInvariant : Obligations.EveryStepKeepsTheInvariant := by
  intro s t hinv h
  cases hhost : s.host with
  | nil =>
    rw [step, hhost] at h
    obtain rfl := Host.Outcome.next.inj h
    exact hinv
  | cons i rest =>
    have hwaiting : (s.withHost rest).Inv := hinv.with_fields rfl rfl rfl rfl hinv.status rfl rfl rfl rfl
    exact serve_inv hwaiting ((step_of_host_cons hhost).symm.trans h)

end Sys2Proof.Machine
end

section
/-! SUPPORT. What one step does with a CMD write, with a wire byte and with a table word (R40, R41, R58, log 4 to 6),
and the ports by their offsets (R37). -/

namespace Sys2Proof.Machine

/-- A defined write of CMD issues its word (R40, R58). -/
theorem step_cmdWrite {s : State} {w : Word} {rest : List Input}
    (h : s.host = .access (.write s.params.base 4 w) :: rest) : step s = issue w (s.withHost rest) := by
  have hin : Params.inWindow s.params s.params.base = true := by simp [Params.inWindow]
  have hdef : Params.definedAccess s.params s.params.base 4 = true := by simp [Params.definedAccess]
  rw [step_of_host_cons h, serve, serveAccess, State.withHost_params, if_pos hin, if_pos hdef, Nat.sub_self]
  rfl

/-- A wire byte that decodes is sent (log 5). -/
theorem step_wireByte {s : State} {b : Byte} {i : Instr} {rest : List Input} (h : s.host = .wireByte b :: rest)
    (hdecode : decodeWire b = .ok i) : step s = exec i (s.withHost rest) := by
  rw [step_of_host_cons h, serve, sendWireByte, hdecode]

theorem decode_of_decodeTableWord {nbits w : Nat} {i : Instr} (h : decodeTableWord nbits w = some i) :
    decode (codeOfTableWord nbits w) = .ok i := by
  rw [decodeTableWord, decodeBytes_bytes] at h
  cases hdecode : decode (codeOfTableWord nbits w) with
  | ok j => rw [hdecode] at h; exact congrArg _ (Option.some.inj h)
  | error e => rw [hdecode] at h; exact nomatch h

/-- The next step with a code put first runs the code's instruction (log 4, 5). -/
theorem step_inputOfCode {s : State} {c : Code} {i : Instr} (h : decode c = .ok i) :
    step (s.withHost (inputOfCode s.params c :: s.host)) = exec i s := by
  cases c with
  | word w =>
    exact (step_cmdWrite (s := s.withHost (.access (.write s.params.base 4 w) :: s.host)) rfl).trans
      (issue_of_decodes h _)
  | wire b => exact step_wireByte (s := s.withHost (.wireByte b :: s.host)) rfl h

theorem portAt_ne_cmd {off : Nat} (h : off ≠ 0) : portAt off ≠ .cmd := by
  unfold portAt
  split
  · exact absurd rfl h
  all_goals decide

theorem portAt_eq_reserved {off : Nat} (h : 0x14 ≤ off) : portAt off = .reserved := by
  unfold portAt
  split
  case h_6 => rfl
  all_goals omega

/-- A read of RESULT that has a value hands it over (R29). -/
theorem step_read_result {s : State} {rest : List Input} {v : Word}
    (h : s.host = .access (.read (s.params.base + 0x08) 4) :: rest) (hv : s.result = some v) :
    step s = .next { s with host := rest, replies := s.replies ++ [v] } := by
  rw [step_read (by decide) (by decide) h]
  simp [portAt, State.answerRead, State.countResultRead, readPort, State.withHost, hv]

end Sys2Proof.Machine
end

section
/-! The statements about one step, the ports and RST, settled. -/

namespace Sys2Proof.Machine

/-- Settles O7: a CMD write is issued, a wire byte is sent, and a table word is one or the other. -/
theorem stepRunsTheDecodedInstruction : Obligations.StepRunsTheDecodedInstruction := by
  refine ⟨fun s w rest h => ⟨step_cmdWrite h, fun i hdecode => ?decodes, fun e hdecode => ?illegal⟩,
    fun s b rest i h hdecode => step_wireByte h hdecode, fun s nbits w i h => ?table⟩
  case decodes => rw [step_cmdWrite h, issue_of_decodes hdecode]
  case illegal => rw [step_cmdWrite h, issue_of_illegal hdecode]
  case table => exact step_inputOfCode (decode_of_decodeTableWord h)

/-- Settles O8: the step with an empty queue. -/
theorem stepWithNothingWaitingHolds : Obligations.StepWithNothingWaitingHolds := by
  intro s h
  rw [step, h]

/-- Settles O9: the port at each offset and its word. -/
theorem portReadAnswersAndChangesNothing : Obligations.PortReadAnswersAndChangesNothing := by
  rintro s off rest v h (⟨rfl, rfl⟩ | ⟨rfl, rfl⟩ | ⟨rfl, hv⟩ | ⟨rfl, rfl⟩ | ⟨rfl, rfl⟩ | ⟨hlow, hhigh, hal, rfl⟩)
  · exact step_read_of_ne_result (by decide) (by decide) (by decide) h
  · exact step_read_of_ne_result (by decide) (by decide) (by decide) h
  · exact step_read_result h hv
  · exact step_read_of_ne_result (by decide) (by decide) (by decide) h
  · exact step_read_of_ne_result (by decide) (by decide) (by decide) h
  · have hport := portAt_eq_reserved hlow
    have hread := step_read_of_ne_result (by omega) hal (by rw [hport]; decide) h
    rwa [hport] at hread

/-- Settles O10: RESULT without a value answers the next free value. -/
theorem unwrittenResultReadIsAFreeValue : Obligations.UnwrittenResultReadIsAFreeValue := by
  intro s rest h hnone
  rw [step_read (by decide) (by decide) h]
  simp [portAt, State.answerRead, State.countResultRead, readPort, State.withHost, hnone]

/-- Settles O11: no other offset is CMD. -/
theorem writeToOtherPortIsIgnored : Obligations.WriteToOtherPortIsIgnored := by
  intro s off rest v h hlow hhigh hal
  exact step_write_of_ne_cmd (by omega) hal (portAt_ne_cmd (by omega)) h

/-- Settles O13: RST as an input is the reset of the state with the input taken off the queue. -/
theorem rstResetsTheBlock : Obligations.RstResetsTheBlock := by
  intro s during draws rest h
  refine ⟨_, step_of_host_cons h, rfl, rfl, rfl, rfl, rfl, rfl, rfl, rfl, rfl, rfl, rfl, fun hnone => ?_⟩
  subst hnone
  refine ⟨rfl, fun c hc => ⟨{ c with phase := .idle, bits := [] }, ?_, rfl⟩⟩
  show s.env.link.onRst false = _
  rw [hc]
  rfl

end Sys2Proof.Machine
end

section
/-! SUPPORT. The operations that a check refuses (R67 to R70, R81 to R90): each completes with the check's code, and
nothing but STATUS changes. -/

namespace Sys2Proof.Machine

theorem exec_srLoad_of_refused {s : State} (b : Bool) (h : s.sr.cfg = false ∨ s.sr.rem = 0) :
    exec (.srLoad b) s = .next (s.refusedWith .precond) := by
  have hbody : srLoadBody b s = .raised .precondViolation s := by
    obtain ⟨-, hr⟩ | ⟨hcfg, hord, hroom, -⟩ | ⟨hcfg, hord, hroom, -⟩ := srLoadBody_outcomes b s
    · exact hr
    · have hfull : s.sr.brem = 0 := by simpa [SrEngine.rem, hcfg, hord] using h
      simp [hfull] at hroom
    · have hfull : s.sr.orem = 0 := by simpa [SrEngine.rem, hcfg, hord] using h
      simp [hfull] at hroom
  rw [exec, execSrLoad, hbody, finish_raised]
  rfl

theorem exec_srCommit_of_refused {s : State} (h : s.sr.cfg = false ∨ s.sr.ord = .ordered ∧ s.sr.orem ≠ 0) :
    exec .srCommit s = .next (s.refusedWith .precond) := by
  have hready : ¬ (s.sr.cfg = true ∧ (s.sr.ord = .ordered → s.sr.orem = 0)) := by
    rintro ⟨hcfg, hfull⟩
    obtain hno | ⟨hord, hno⟩ := h
    · rw [hno] at hcfg
      exact nomatch hcfg
    · exact hno (hfull hord)
  rw [exec, execSrCommit, srCommitBody_of_not_ready hready, finish_raised]
  rfl

theorem exec_srClear_of_refused {s : State} (h : s.sr.cfg = false ∨ s.sr.rem ≠ s.sr.cap) :
    exec .srClear s = .next (s.refusedWith .precond) := by
  have hready : ¬ (s.sr.cfg = true ∧ s.sr.rem = s.sr.cap) := by
    rintro ⟨hcfg, hrem⟩
    obtain hno | hno := h
    · rw [hno] at hcfg
      exact nomatch hcfg
    · exact hno hrem
  rw [exec, execSrClear, srClearBody_of_not_ready hready, finish_raised]
  rfl

/-- An unconfigured engine refuses every operation but SR.CONFIG. -/
theorem exec_srOp_of_not_cfg {i : Instr} {s : State} (hi : isSrOp i = true)
    (hconfig : ∀ cap mode ord, i ≠ .srConfig cap mode ord) (hcfg : s.sr.cfg = false) :
    exec i s = .next (s.refusedWith .precond) := by
  cases i with
  | srConfig cap mode ord => exact absurd rfl (hconfig cap mode ord)
  | srLoad b => exact exec_srLoad_of_refused b (.inl hcfg)
  | srCommit => exact exec_srCommit_of_refused (.inl hcfg)
  | srClear => exact exec_srClear_of_refused (.inl hcfg)
  | srIsfull => exact exec_srIsfull_of_not_cfg hcfg
  | _ => exact nomatch hi

section notReady
variable {s : State} (hcfg : s.link.cfg = true) (hte : s.link.te = false)
include hcfg hte

/-- A byte transfer in no session is not ready (R83, R84). -/
theorem sendByte_of_no_session (x : Byte) : finish (sendByte x s) = .next (s.refusedWith .notReady) := by
  rw [sendByte, hcfg, require_true, hte, require_false, finish_raised]
  rfl

theorem exec_linkRx_of_no_session : exec .linkRx s = .next (s.refusedWith .notReady) := by
  rw [exec, execLinkRx, hcfg, require_true, hte, require_false, finish_raised]
  rfl

end notReady

/-- The operations that right after reset complete with OK, with a maximum capacity of `capMax` (R66, R80, R94). -/
def SucceedsAfterReset (capMax : Nat) (i : Instr) : Prop :=
  (∃ cap mode ord, i = .srConfig cap mode ord ∧ 1 ≤ cap.toNat ∧ cap.toNat ≤ capMax) ∨
    (∃ ns, i = .linkConfig ns ∧ 1 ≤ ns.toNat) ∨ i = .errClear

section reset
variable {i : Instr} {s : State} (hsr : s.sr = .reset) (hlink : s.link = .reset)

include hlink in
theorem exec_of_succeedsAfterReset (hi : SucceedsAfterReset s.params.capMax i) :
    ∃ t, exec i s = .next t ∧ t.status.err = .ok := by
  obtain ⟨cap, mode, ord, rfl, hone, hmax⟩ | ⟨ns, rfl, hone⟩ | rfl := hi
  · exact ⟨_, exec_srConfig_of_capLegal mode ord ((capLegal_iff s.params cap).mpr ⟨hone, hmax⟩), rfl⟩
  · exact ⟨_, exec_linkConfig_of_legal ((pulseLegal_iff ns).mpr hone) (by rw [hlink]; rfl), rfl⟩
  · exact ⟨_, exec_errClear s, rfl⟩

include hsr hlink in
theorem exec_of_not_succeedsAfterReset (hi : ¬ SucceedsAfterReset s.params.capMax i) :
    exec i s = .next (s.refusedWith .precond) := by
  obtain hop | hop | rfl := isSrOp_or_isLinkOp_or_errClear i
  · by_cases hconfig : ∃ cap mode ord, i = .srConfig cap mode ord
    · obtain ⟨cap, mode, ord, rfl⟩ := hconfig
      refine exec_srConfig_of_not_capLegal mode ord ?_
      rw [← Bool.not_eq_true, capLegal_iff]
      exact fun hcap => hi (.inl ⟨cap, mode, ord, rfl, hcap⟩)
    · exact exec_srOp_of_not_cfg hop (fun cap mode ord h => hconfig ⟨cap, mode, ord, h⟩) (by rw [hsr]; rfl)
  · by_cases hconfig : ∃ ns, i = .linkConfig ns
    · obtain ⟨ns, rfl⟩ := hconfig
      have hzero : ns = 0 := by
        by_contra hne
        refine hi (.inr (.inl ⟨ns, rfl, ?_⟩))
        have hnat : ns.toNat ≠ 0 := fun h => hne (BitVec.eq_of_toNat_eq h)
        omega
      subst hzero
      exact exec_linkConfig_of_pulse_zero s
    · exact exec_linkOp_of_not_cfg hop (fun ns h => hconfig ⟨ns, h⟩) (by rw [hlink]; rfl)
  · exact absurd (.inr (.inr rfl)) hi

end reset

end Sys2Proof.Machine
end

section
/-! The statements about refused operations, settled. -/

namespace Sys2Proof.Machine

/-- Settles O15: after reset both engines are unconfigured, so only configuration and ERR.CLEAR get past their checks.
-/
theorem onlyConfigurationSucceedsAfterReset : Obligations.OnlyConfigurationSucceedsAfterReset := by
  refine fun p e host replies => ⟨fun i => ?_, fun w e' hdecode => ⟨_, issue_of_illegal hdecode _, rfl⟩⟩
  by_cases hi : SucceedsAfterReset p.capMax i
  · obtain ⟨t, ht, hok⟩ := exec_of_succeedsAfterReset (s := State.afterReset p e host replies) rfl hi
    exact ⟨t, ht, .inl hok, iff_of_true hok hi⟩
  · refine ⟨_, exec_of_not_succeedsAfterReset (s := State.afterReset p e host replies) rfl rfl hi, .inr rfl,
      iff_of_false ?_ hi⟩
    exact fun hok => nomatch hok

/-- Settles O19. -/
theorem srLoadRefusedWhenUnconfiguredOrFull : Obligations.SrLoadRefusedWhenUnconfiguredOrFull :=
  fun _ b h => exec_srLoad_of_refused b h

/-- Settles O23. -/
theorem srCommitRefusedWhenUnconfiguredOrNotFull : Obligations.SrCommitRefusedWhenUnconfiguredOrNotFull :=
  fun _ h => exec_srCommit_of_refused h

/-- Settles O26. -/
theorem srClearRefusedWhenUnconfiguredOrNotEmpty : Obligations.SrClearRefusedWhenUnconfiguredOrNotEmpty :=
  fun _ h => exec_srClear_of_refused h

/-- Settles O35: the configuration check of every operation, then the session check of the byte transfers. -/
theorem linkOperationsNeedConfigurationAndSession : Obligations.LinkOperationsNeedConfigurationAndSession := by
  refine fun s i => ⟨fun hcfg hi => ?unconfigured, fun hcfg hte hi => ?noSession⟩
  case unconfigured =>
    obtain rfl | rfl | ⟨x, rfl⟩ | ⟨c, n, v, rfl⟩ | ⟨c, n, rfl⟩ | ⟨n, rfl | rfl | rfl | rfl⟩ := hi
    all_goals exact exec_linkOp_of_not_cfg rfl (fun ns h => nomatch h) hcfg
  case noSession =>
    obtain rfl | ⟨x, rfl⟩ | ⟨n, rfl | rfl | rfl | rfl⟩ := hi
    · exact exec_linkRx_of_no_session hcfg hte
    all_goals exact sendByte_of_no_session hcfg hte _

end Sys2Proof.Machine
end

section
/-! SUPPORT. The engine's sequences on the lines and on the attached register (R34, R63, R64), the states that its
operations leave when no access fails, and the places where they can fail. -/

namespace Sys2Proof.Machine

/-! ### The lines -/

theorem foldl_loadTrace (ps : Nat) (b : Bool) (l : Lines) :
    (loadTrace ps b).foldl Lines.event l = { l with pins := { l.pins with srData := .ofBit b, srClk := .low } } := rfl

theorem foldl_latchTrace (l : Lines) :
    latchTrace.foldl Lines.event l = { l with pins := { l.pins with srLatch := .low } } := rfl

/-- A replay leaves its last bit on SR_DATA and the clock low. -/
theorem foldl_replayTrace_concat (ps : Nat) (bits : List Bool) (b : Bool) (l : Lines) :
    (replayTrace ps (bits ++ [b])).foldl Lines.event l =
      { l with pins := { l.pins with srData := .ofBit b, srClk := .low } } := by
  induction bits generalizing l with
  | nil => rfl
  | cons c bits ih => rw [List.cons_append, replayTrace_cons, List.foldl_append, foldl_loadTrace, ih]

theorem performAll_pins (es : List Event) (s : State) : (s.performAll es).pins = (es.foldl Lines.event s.lines).pins :=
  congrArg Lines.pins (performAll_lines s es)

theorem performAll_pins_replay_latch (ps : Nat) (bits : List Bool) (b : Bool) (s : State) :
    (s.performAll (replayTrace ps (bits ++ [b]) ++ latchTrace)).pins =
      { s.pins with srData := .ofBit b, srClk := .low, srLatch := .low } := by
  rw [performAll_pins, List.foldl_append, foldl_replayTrace_concat, foldl_latchTrace]
  rfl

theorem performAll_srLatch_of_latchTrace (es : List Event) (s : State) :
    (s.performAll (es ++ latchTrace)).pins.srLatch = .low := by
  rw [performAll_pins, List.foldl_append, foldl_latchTrace]

/-! ### The attached register -/

/-- The one edge of a base load is the rise of SR_CLK, from whatever level it had (R34). -/
theorem performAll_loadTrace_sipo (ps : Nat) (b : Bool) (s : State) :
    (s.performAll (loadTrace ps b)).env.sipo = s.env.sipo.clkEvent s.pins.srClk true (.ofBit b) := rfl

/-- The one edge of a latch pulse is the rise of SR_LATCH, from whatever level it had (R34). -/
theorem performAll_latchTrace_sipo (s : State) :
    (s.performAll latchTrace).env.sipo = s.env.sipo.latchEvent s.pins.srLatch true := rfl

theorem clkEvent_outs (old : Level) (v : Bool) (data : Level) (d : Sipo) : (d.clkEvent old v data).outs = d.outs := by
  unfold Sipo.clkEvent
  split <;> rfl

theorem clkEvent_rise_stage (old data : Level) (d : Sipo) : (d.clkEvent old true data).stage =
    match old with
    | .low => shiftIn data d.stage
    | .high => d.stage
    | .x => allX d.stage := by
  cases old <;> rfl

theorem latchEvent_stage (old : Level) (v : Bool) (d : Sipo) : (d.latchEvent old v).stage = d.stage := by
  unfold Sipo.latchEvent
  split <;> rfl

theorem latchEvent_rise_outs (old : Level) (d : Sipo) : (d.latchEvent old true).outs =
    match old with
    | .low => d.stage
    | .high => d.outs
    | .x => allX d.outs := by
  cases old <;> rfl

/-! ### Failing accesses -/

/-- The draw of the access after a list of events (R33). -/
theorem nextFails_performAll (es : List Event) (s : State) :
    (s.performAll es).nextFails = s.env.ioFail (s.accesses + accessCount es) (s.trace ++ es) := by
  rw [State.nextFails, ioFail_performAll, performAll_accesses, performAll_trace]

theorem attempt_cons_of_fails {e : Event} {s : State} (es : List Event) (he : e.isAccess = true)
    (h : s.nextFails = true) : attempt (e :: es) s = .raised .ioFault (s.perform (failureOf e)) := by
  rw [attempt, he, h]
  rfl

theorem attempt_cons_of_succeeds {e : Event} {s : State} (es : List Event) (h : s.nextFails = false) :
    attempt (e :: es) s = attempt es (s.perform e) := by
  rw [attempt, h, Bool.and_false, if_neg Bool.false_ne_true]

/-- A base SR.LOAD whose events fail runs the cleanup (R67). -/
theorem exec_srLoad_base_of_raised {s : State} {b : Bool} {f : List Event} (hcfg : s.sr.cfg = true)
    (hord : s.sr.ord = .base) (hroom : 0 < s.sr.brem.toNat)
    (h : attempt (loadTrace s.params.srPulseNs b) s = .raised .ioFault (s.performAll f)) :
    exec (.srLoad b) s = .next ((s.performAll f).srCleanup.complete .ioFault) := by
  rw [exec, execSrLoad, srLoadBody_base_eq_attempt b hcfg hord hroom, h, mapStates_raised, finish_raised]
  rfl

/-- The engine after the cleanup (R65). -/
theorem srCleanup_performAll_sr (f : List Event) (s : State) :
    (s.performAll f).srCleanup.sr = { s.sr with brem := s.sr.cap, orem := s.sr.cap, buf := [] } := by
  rw [State.srCleanup_sr, performAll_sr]

/-- A sequence of the shift register that fails ends with the failure of a drive, whose pin is then unknown (R10). -/
theorem failsIn_srPin {es f : List Event} (h : FailsIn es f) (hes : ∀ e ∈ es, e.onSr = true) (s : State) :
    ∃ before, f = before ++ [.fail .srData] ∧ (s.performAll f).pins.srData = .x ∨
      f = before ++ [.fail .srClk] ∧ (s.performAll f).pins.srClk = .x ∨
      f = before ++ [.fail .srLatch] ∧ (s.performAll f).pins.srLatch = .x := by
  obtain ⟨before, e, after, rfl, haccess, rfl⟩ := h
  have he := hes e (by simp)
  refine ⟨before, ?_⟩
  rw [performAll_append]
  cases e with
  | drive p v | fail p =>
    cases p with
    | srData => exact .inl ⟨rfl, rfl⟩
    | srClk => exact .inr (.inl ⟨rfl, rfl⟩)
    | srLatch => exact .inr (.inr ⟨rfl, rfl⟩)
    | lClk | lCe | lData => exact nomatch he
  | wait => exact nomatch haccess
  | dir | sample | failDir => exact nomatch he

/-- The code IOFAULT comes from a body that raised IoFault (R96). -/
theorem raised_of_ioFault {r : Result Unit} {t : State} (h : finish r = .next t) (hio : t.status.err = .ioFault) :
    ∃ u, r = .raised .ioFault u ∧ t = u.complete .ioFault := by
  cases r with
  | done a u =>
    obtain rfl := Host.Outcome.next.inj ((finish_done u).symm.trans h)
    rw [complete_err] at hio
    exact nomatch hio
  | raised e u =>
    obtain rfl := Host.Outcome.next.inj ((finish_raised e u).symm.trans h)
    rw [complete_err] at hio
    cases e with
    | ioFault => exact ⟨u, rfl, rfl⟩
    | illegal | precondViolation | linkNotReady => exact nomatch hio

/-- A commit or a clear that failed has run the cleanup. -/
theorem sr_of_mapStates_ioFault {es : List Event} {g : State → State} {s t : State}
    (h : finish ((attempt es s).mapStates g State.srCleanup) = .next t) (hio : t.status.err = .ioFault) :
    t.sr = { s.sr with brem := s.sr.cap, orem := s.sr.cap, buf := [] } := by
  obtain ⟨u, hr, rfl⟩ := raised_of_ioFault h hio
  obtain hrun | ⟨f, -, hrun⟩ := attempt_outcomes es s
  · rw [hrun, mapStates_done] at hr
    exact nomatch hr
  · rw [hrun, mapStates_raised] at hr
    obtain ⟨-, rfl⟩ := Result.raised.inj hr
    exact srCleanup_performAll_sr f s

theorem exec_srCommit_sr_of_ioFault {s t : State} (h : exec .srCommit s = .next t) (hio : t.status.err = .ioFault) :
    t.sr = { s.sr with brem := s.sr.cap, orem := s.sr.cap, buf := [] } := by
  rw [exec, execSrCommit] at h
  by_cases hready : s.sr.cfg = true ∧ (s.sr.ord = .ordered → s.sr.orem = 0)
  · obtain ⟨hcfg, hfull⟩ := hready
    rw [srCommitBody_eq_attempt hcfg hfull] at h
    exact sr_of_mapStates_ioFault h hio
  · obtain ⟨u, hr, -⟩ := raised_of_ioFault h hio
    rw [srCommitBody_of_not_ready hready] at hr
    exact nomatch hr

theorem exec_srClear_sr_of_ioFault {s t : State} (h : exec .srClear s = .next t) (hio : t.status.err = .ioFault) :
    t.sr = { s.sr with brem := s.sr.cap, orem := s.sr.cap, buf := [] } := by
  rw [exec, execSrClear] at h
  by_cases hready : s.sr.cfg = true ∧ s.sr.rem = s.sr.cap
  · obtain ⟨hcfg, hrem⟩ := hready
    rw [srClearBody_eq_attempt hcfg hrem] at h
    exact sr_of_mapStates_ioFault h hio
  · obtain ⟨u, hr, -⟩ := raised_of_ioFault h hio
    rw [srClearBody_of_not_ready hready] at hr
    exact nomatch hr

/-! ### SR.CLEAR with no failing access -/

/-- SR.CLEAR on an empty engine with no failing access (R69). -/
theorem exec_srClear_quiet {s : State} (hcfg : s.sr.cfg = true) (hrem : s.sr.rem = s.sr.cap)
    (hq : s.Quiet (accessCount (replayTrace s.params.srPulseNs (clearedBits s.sr) ++ latchTrace))) :
    exec .srClear s = .next
      ((committed s.sr (s.performAll (replayTrace s.params.srPulseNs (clearedBits s.sr) ++ latchTrace))).complete .ok) := by
  rw [exec, execSrClear, srClearBody_eq_attempt hcfg hrem, attempt_quiet _ hq, mapStates_done, finish_done]

section cleared
variable {p : Params} {e : SrEngine} (hinv : SrInv p e) (hcfg : e.cfg = true) (hrem : e.rem = e.cap)
include hinv hcfg hrem

/-- An ordered engine that is empty by its counter holds no bit (R21). -/
theorem SrInv.buf_eq_nil_of_empty (hord : e.ord = .ordered) : e.buf = [] := by
  have hempty : e.orem = e.cap := by simpa only [SrEngine.rem, hcfg, hord, if_true] using hrem
  obtain ⟨-, hlen⟩ := hinv.ordered hord
  rw [hempty] at hlen
  exact List.length_eq_zero_iff.mp (by omega)

/-- An empty engine clears with as many zeros as its capacity (R69). -/
theorem clearedBits_of_empty : clearedBits e = List.replicate e.cap.toNat false := by
  rw [clearedBits]
  cases hord : e.ord with
  | base => rfl
  | ordered =>
    rw [hinv.buf_eq_nil_of_empty hcfg hrem hord, List.nil_append]
    cases e.mode with
    | natural => exact List.reverse_replicate
    | inverse => rfl

/-- A commit leaves an empty engine as it was. -/
theorem committed_sr_of_empty {s : State} (hs : s.sr = e) : (committed e s).sr = e := by
  rw [committed]
  cases hord : e.ord with
  | base =>
    have hempty : e.brem = e.cap := by simpa only [SrEngine.rem, hcfg, hord, if_true] using hrem
    rw [State.setBrem_sr, hs, ← hempty]
  | ordered =>
    obtain ⟨hbrem, -⟩ := hinv.ordered hord
    have hempty : e.orem = e.cap := by simpa only [SrEngine.rem, hcfg, hord, if_true] using hrem
    have hbuf := hinv.buf_eq_nil_of_empty hcfg hrem hord
    rw [State.srCleanup_sr, hs]
    cases e
    simp_all

end cleared

/-- A commit changes nothing but the engine. -/
theorem committed_pins (e : SrEngine) (s : State) : (committed e s).pins = s.pins := by
  rw [committed]
  cases e.ord <;> rfl

theorem committed_env (e : SrEngine) (s : State) : (committed e s).env = s.env := by
  rw [committed]
  cases e.ord <;> rfl

theorem committed_status (e : SrEngine) (s : State) : (committed e s).status = s.status := by
  rw [committed]
  cases e.ord <;> rfl

theorem committed_trace (e : SrEngine) (s : State) : (committed e s).trace = s.trace := by
  rw [committed]
  cases e.ord <;> rfl

theorem committed_accesses (e : SrEngine) (s : State) : (committed e s).accesses = s.accesses := by
  rw [committed]
  cases e.ord <;> rfl

/-! ### The bit order in the base personality -/

section base
variable {e : SrEngine} (hord : e.ord = .base)
include hord

theorem committed_of_base : committed e = State.setBrem e.cap := by
  funext u
  rw [committed, hord]

theorem commitTrace_of_base (ps : Nat) : commitTrace ps e = latchTrace := by rw [commitTrace, hord]

theorem clearedBits_of_base : clearedBits e = List.replicate e.cap.toNat false := by rw [clearedBits, hord]

end base

/-- The state with another bit order. -/
def State.withMode (m : BitOrder) (s : State) : State := { s with sr := { s.sr with mode := m } }

/-- An attempt under a cleanup, from a state with another bit order. -/
theorem attempt_withMode (m : BitOrder) (es : List Event) {g : State → State}
    (hg : ∀ u, g (u.withMode m) = (g u).withMode m) (s : State) :
    (attempt es (s.withMode m)).mapStates g State.srCleanup =
      ((attempt es s).mapStates g State.srCleanup).mapStates (State.withMode m) (State.withMode m) := by
  have hcomp : g ∘ State.withMode m = State.withMode m ∘ g := funext hg
  rw [attempt_commutes (State.withMode m) (fun _ _ => rfl) (fun _ => rfl), mapStates_mapStates, mapStates_mapStates, hcomp]
  rfl

theorem finish_mapStates_withMode {m : BitOrder} {r : Result Unit} {t : State} (h : finish r = .next t) :
    finish (r.mapStates (State.withMode m) (State.withMode m)) = .next (t.withMode m) := by
  cases r with
  | done a u => obtain rfl := Host.Outcome.next.inj h; rfl
  | raised e u => obtain rfl := Host.Outcome.next.inj h; rfl

section withMode
variable {s : State} (m : BitOrder) (hord : s.sr.ord = .base)
include hord

theorem srLoadBody_withMode (b : Bool) :
    srLoadBody b (s.withMode m) = (srLoadBody b s).mapStates (State.withMode m) (State.withMode m) := by
  cases hcfg : s.sr.cfg with
  | false =>
    have hcfg' : (s.withMode m).sr.cfg = false := hcfg
    simp only [srLoadBody, hcfg, hcfg', require_false, mapStates_raised]
  | true =>
    by_cases hroom : 0 < s.sr.brem.toNat
    · rw [srLoadBody_base_eq_attempt b hcfg hord hroom,
        srLoadBody_base_eq_attempt (s := s.withMode m) b hcfg hord hroom]
      exact attempt_withMode m (loadTrace s.params.srPulseNs b) (g := State.setBrem (s.sr.brem - 1)) (fun _ => rfl) s
    · have hcfg' : (s.withMode m).sr.cfg = true := hcfg
      have hord' : (s.withMode m).sr.ord = .base := hord
      have hroom' : ¬ 0 < (s.withMode m).sr.brem.toNat := hroom
      simp only [srLoadBody, hcfg, hcfg', hord, hord', require_true, decide_eq_false hroom, decide_eq_false hroom',
        require_false, mapStates_raised]

theorem srCommitBody_withMode :
    srCommitBody (s.withMode m) = (srCommitBody s).mapStates (State.withMode m) (State.withMode m) := by
  have hord' : (s.withMode m).sr.ord = .base := hord
  cases hcfg : s.sr.cfg with
  | false =>
    have hready : ¬ (s.sr.cfg = true ∧ (s.sr.ord = .ordered → s.sr.orem = 0)) := by simp [hcfg]
    rw [srCommitBody_of_not_ready hready, srCommitBody_of_not_ready (s := s.withMode m) hready, mapStates_raised]
  | true =>
    rw [srCommitBody_eq_attempt hcfg (by simp [hord]), srCommitBody_eq_attempt (s := s.withMode m) hcfg (by simp [hord']),
      committed_of_base hord, committed_of_base hord', commitTrace_of_base hord, commitTrace_of_base hord']
    exact attempt_withMode m latchTrace (g := State.setBrem s.sr.cap) (fun _ => rfl) s

theorem srClearBody_withMode :
    srClearBody (s.withMode m) = (srClearBody s).mapStates (State.withMode m) (State.withMode m) := by
  have hord' : (s.withMode m).sr.ord = .base := hord
  by_cases hready : s.sr.cfg = true ∧ s.sr.rem = s.sr.cap
  · obtain ⟨hcfg, hrem⟩ := hready
    rw [srClearBody_eq_attempt hcfg hrem, srClearBody_eq_attempt (s := s.withMode m) hcfg hrem,
      committed_of_base hord, committed_of_base hord', clearedBits_of_base hord, clearedBits_of_base hord']
    exact attempt_withMode m _ (g := State.setBrem s.sr.cap) (fun _ => rfl) s
  · rw [srClearBody_of_not_ready hready, srClearBody_of_not_ready (s := s.withMode m) hready, mapStates_raised]

end withMode

/-- SR.ISFULL does not read the bit order (R70). -/
theorem exec_srIsfull_withMode {s t : State} (m : BitOrder) (h : exec .srIsfull s = .next t) :
    exec .srIsfull (s.withMode m) = .next (t.withMode m) := by
  cases hcfg : s.sr.cfg with
  | false =>
    obtain rfl := Host.Outcome.next.inj ((exec_srIsfull_of_not_cfg hcfg).symm.trans h)
    exact exec_srIsfull_of_not_cfg hcfg
  | true =>
    obtain rfl := Host.Outcome.next.inj ((exec_srIsfull_of_cfg hcfg).symm.trans h)
    exact exec_srIsfull_of_cfg (s := s.withMode m) hcfg

end Sys2Proof.Machine
end

section
/-! The statements about the shift-register engine, settled. -/

namespace Sys2Proof.Machine

/-- Settles O17: an ordered load touches no pin. -/
theorem srLoadBuffersInOrderedPersonality : Obligations.SrLoadBuffersInOrderedPersonality :=
  fun _ b hcfg hord hroom => exec_srLoad_ordered b hcfg hord hroom

/-- Settles O18: the five events of a base load, and their one edge at the attached register. -/
theorem srLoadShiftsOutInBasePersonality : Obligations.SrLoadShiftsOutInBasePersonality := by
  intro s b hcfg hord hroom hq
  have hexec := exec_srLoad_base_quiet b hcfg hord hroom hq
  refine ⟨_, hexec, performAll_trace s _, ?_, rfl, rfl, rfl, performAll_accesses s _, performAll_result s _, rfl, ?_, ?_,
    exec_srFrame rfl hexec⟩
  · rw [State.complete_sr, State.setBrem_sr, performAll_sr]
  · rw [State.complete_env, State.setBrem_env, performAll_loadTrace_sipo, clkEvent_outs]
  · rw [State.complete_env, State.setBrem_env, performAll_loadTrace_sipo, clkEvent_rise_stage] <;>
      cases s.pins.srClk <;> rfl

/-- Settles O20: a base load that fails at its first, second or third drive, each with the draws before it. -/
theorem srLoadFailureLeavesTheFailedPinUnknown : Obligations.SrLoadFailureLeavesTheFailedPinUnknown := by
  intro s b hcfg hord hroom first second cleaned failedAs
  have hleft {f : List Event} {pins : Pins}
      (h : attempt (loadTrace s.params.srPulseNs b) s = .raised .ioFault (s.performAll f))
      (hpins : (s.performAll f).pins = pins) : ∃ t, exec (.srLoad b) s = .next t ∧ failedAs t pins f := by
    have hexec := exec_srLoad_base_of_raised hcfg hord hroom h
    exact ⟨_, hexec, performAll_trace s f, hpins, srCleanup_performAll_sr f s,
      congrArg (StatusBits.complete .ioFault) (performAll_status s f), performAll_result s f, exec_srFrame rfl hexec⟩
  refine ⟨fun hfail => ?first, fun hok hfail => ?second, fun hok hok' hfail => ?third⟩
  case first => exact hleft (attempt_cons_of_fails _ rfl hfail) rfl
  case second =>
    refine hleft (f := [first, .fail .srClk]) ?_ rfl
    rw [loadTrace, attempt_cons_of_succeeds _ hok]
    exact attempt_cons_of_fails _ rfl ((nextFails_performAll [first] s).trans hfail)
  case third =>
    refine hleft (f := [first, second, .wait s.params.srPulseNs, .fail .srClk]) ?_ rfl
    have hok₁ : (s.perform first).nextFails = false := (nextFails_performAll [first] s).trans hok'
    rw [loadTrace, attempt_cons_of_succeeds _ hok, attempt_cons_of_succeeds _ hok₁, attempt_wait]
    exact attempt_cons_of_fails _ rfl
      ((nextFails_performAll [first, second, .wait s.params.srPulseNs] s).trans hfail)

/-- Settles O21: one latch pulse, and its one edge at the attached register. -/
theorem srCommitLatchesInBasePersonality : Obligations.SrCommitLatchesInBasePersonality := by
  intro s hcfg hord hq
  have hexec := exec_srCommit_base_quiet hcfg hord hq
  refine ⟨_, hexec, performAll_trace s _, ?_, rfl, performAll_accesses s _, performAll_result s _, rfl, ?_, ?_,
    exec_srFrame rfl hexec⟩
  · rw [State.complete_sr, State.setBrem_sr, performAll_sr]
  · rw [State.complete_env, State.setBrem_env, performAll_latchTrace_sipo, latchEvent_stage]
  · rw [State.complete_env, State.setBrem_env, performAll_latchTrace_sipo, latchEvent_rise_outs] <;>
      cases s.pins.srLatch <;> rfl

/-- Settles O22: the replay of the buffer in the drain order, then the latch pulse and the cleanup. -/
theorem srCommitReplaysInOrderedPersonality : Obligations.SrCommitReplaysInOrderedPersonality := by
  intro s hcfg hord hfull hq drained
  have hdrained : drained = s.sr.mode.drain s.sr.buf := by
    simp only [drained]
    cases s.sr.mode <;> rfl
  have hexec := exec_srCommit_ordered_quiet hcfg hord hfull hq
  rw [hdrained]
  refine ⟨_, hexec, ?_, srCleanup_performAll_sr _ s, ?_, performAll_srLatch_of_latchTrace _ s, fun b hlast => ?_,
    performAll_result s _, congrArg (StatusBits.complete .ok) (performAll_status s _), exec_srFrame rfl hexec⟩
  · rw [List.append_assoc]
    exact performAll_trace s _
  · refine (performAll_accesses s _).trans ?_
    rw [accessCount_append, accessCount_replayTrace, accessCount_latchTrace, BitOrder.length_drain]
  · obtain ⟨bits, hbits⟩ := List.getLast?_eq_some_iff.mp hlast
    rw [hbits]
    have hpins := performAll_pins_replay_latch s.params.srPulseNs bits b s
    exact ⟨congrArg Pins.srData hpins, congrArg Pins.srClk hpins⟩

/-- Settles O24: the sequence failed at a drive of the shift register, and the cleanup followed. -/
theorem srFailureResetsTheCounters : Obligations.SrFailureResetsTheCounters := by
  intro i s t hi h hio
  have hsr : isSrOp i = true := by obtain rfl | rfl := hi <;> rfl
  have hcleaned : t.sr = { s.sr with brem := s.sr.cap, orem := s.sr.cap, buf := [] } := by
    obtain rfl | rfl := hi
    · exact exec_srCommit_sr_of_ioFault h hio
    · exact exec_srClear_sr_of_ioFault h hio
  obtain ⟨hresult, -⟩ := resultIsWrittenOnlyOnSuccess i s t h
  refine ⟨hcleaned, exec_srFrame hsr h, hresult (.inr (by rw [hio]; decide)), ?_⟩
  obtain ⟨es, f, c, hbody, hfails, hcleanup, hran⟩ := (exec_completes h).of_ioFault hio
  obtain rfl := hcleanup.eq_nil hsr
  obtain hfails | ⟨-, -, hc⟩ := hfails
  · rw [List.append_nil] at hran
    obtain ⟨before, hplace⟩ := failsIn_srPin hfails (hbody.onSr hsr) s
    refine ⟨before, ?_⟩
    rw [hran.trace, hran.pins]
    obtain ⟨rfl, hpin⟩ | ⟨rfl, hpin⟩ | ⟨rfl, hpin⟩ := hplace
    · exact .inl ⟨(List.append_assoc ..).symm, hpin⟩
    · exact .inr (.inl ⟨(List.append_assoc ..).symm, hpin⟩)
    · exact .inr (.inr ⟨(List.append_assoc ..).symm, hpin⟩)
  · exact nomatch hc

/-- Settles O25: a replay of as many zeros as the capacity and one latch pulse, on an engine that holds no bit. -/
theorem srClearDrivesEveryOutputLow : Obligations.SrClearDrivesEveryOutputLow := by
  intro s hinv hcfg hrem hq
  have hcount : accessCount (replayTrace s.params.srPulseNs (List.replicate s.sr.cap.toNat false) ++ latchTrace) =
      3 * s.sr.cap.toNat + 2 := by
    rw [accessCount_append, accessCount_replayTrace, accessCount_latchTrace, List.length_replicate]
  have hexec := exec_srClear_quiet hcfg hrem (by rwa [clearedBits_of_empty hinv hcfg hrem, hcount])
  rw [clearedBits_of_empty hinv hcfg hrem] at hexec
  obtain ⟨hone, -⟩ := hinv.capLegal hcfg
  obtain ⟨n, hn⟩ := Nat.exists_eq_add_of_le' hone
  have hzeros : List.replicate s.sr.cap.toNat false = List.replicate n false ++ [false] := by
    rw [hn, List.replicate_succ']
  have hpins := performAll_pins_replay_latch s.params.srPulseNs (List.replicate n false) false s
  rw [← hzeros] at hpins
  refine ⟨_, hexec, ?_, ?_, ?_, ?_, ?_, ?_, exec_srFrame rfl hexec, fun hclk hlatch hlen => ?_⟩
  · rw [State.complete_trace, committed_trace, performAll_trace, List.append_assoc]
  · rw [State.complete_sr, committed_sr_of_empty hinv hcfg hrem (performAll_sr s _)]
  · rw [State.complete_accesses, committed_accesses, performAll_accesses, hcount]
  · rw [State.complete_pins, committed_pins, hpins]
    rfl
  · rw [State.complete_result, committed_result, performAll_result]
  · rw [State.complete_status, committed_status, performAll_status]
    rfl
  · rw [State.complete_env, committed_env, performAll_replay_latch_outs _ _ hclk hlatch, List.reverse_replicate,
      List.map_replicate, List.take_append_of_le_length (by rwa [List.length_replicate]), List.take_replicate,
      Nat.min_eq_left hlen, ← List.map_const']
    rfl

/-- Settles O28: in the base personality no body of the engine reads the bit order. -/
theorem modeHasNoEffectInBasePersonality : Obligations.ModeHasNoEffectInBasePersonality := by
  have hcommute {r r' : Result Unit} {m : BitOrder} {t : State}
      (hr : r' = r.mapStates (State.withMode m) (State.withMode m)) (h : finish r = .next t) :
      finish r' = .next (t.withMode m) := by
    rw [hr]
    exact finish_mapStates_withMode h
  intro i s m t hi hord h
  obtain rfl | rfl | rfl | rfl | rfl := hi
  · exact hcommute (srLoadBody_withMode m hord true) h
  · exact hcommute (srLoadBody_withMode m hord false) h
  · exact hcommute (srCommitBody_withMode m hord) h
  · exact hcommute (srClearBody_withMode m hord) h
  · exact exec_srIsfull_withMode m h

end Sys2Proof.Machine
end

section
/-! SUPPORT. The link's operations when no access fails: what `linkLeft` leaves, alone and after another operation,
and the states that LINK.ENABLE, the CMD operations (R89, R90) and their four link operations (R92) leave. -/

namespace Sys2Proof.Machine

/-! ### What `linkLeft` leaves -/

theorem performAll_linkEngine (ev : List Event) (s : State) :
    (s.performAll ev).link =
      { s.link with dir := (ev.foldl Lines.event s.lines).dir, dout := (ev.foldl Lines.event s.lines).dout } := by
  induction ev generalizing s with
  | nil => rfl
  | cons e es ih =>
    rw [performAll_cons, ih, perform_lines]
    rfl

section linkLeft
variable (s : State) (ev es : List Event) (te te' : Bool) (res res' : Option Word) (k : Completion)

theorem linkLeft_link : (linkLeft s ev te res k).link =
    { s.link with
      te := te, dir := (ev.foldl Lines.event s.lines).dir, dout := (ev.foldl Lines.event s.lines).dout } := by
  have hlink : (linkLeft s ev te res k).link = { (s.performAll ev).link with te := te } := rfl
  rw [hlink, performAll_linkEngine]

theorem linkLeft_pins : (linkLeft s ev te res k).pins = (ev.foldl Lines.event s.lines).pins := performAll_pins ev s

@[simp] theorem linkLeft_accesses : (linkLeft s ev te res k).accesses = s.accesses + accessCount ev :=
  performAll_accesses s ev

@[simp] theorem linkLeft_pulse : (linkLeft s ev te res k).link.pulse = s.link.pulse := performAll_pulse s ev

@[simp] theorem linkLeft_result : (linkLeft s ev te res k).result = res := rfl

theorem linkLeft_env : (linkLeft s ev te res k).env = (s.performAll ev).env := rfl

/-- What an operation sets rides along the events after it: no event reads or writes it. -/
theorem performAll_linkLeft : (linkLeft s ev te res k).performAll es = linkLeft s (ev ++ es) te res k := by
  induction es generalizing ev with
  | nil => rw [List.append_nil, performAll_nil]
  | cons e es ih =>
    have hnext : (linkLeft s ev te res k).perform e = linkLeft s (ev ++ [e]) te res k := by
      rw [linkLeft, linkLeft, performAll_append]
      rfl
    rw [performAll_cons, hnext, ih, List.append_assoc, List.singleton_append]

/-- Two operations of the link, one after the other. -/
theorem linkLeft_linkLeft :
    linkLeft (linkLeft s ev te res .ok) es te' res' .ok = linkLeft s (ev ++ es) te' res' .ok := by
  rw [linkLeft, performAll_linkLeft]
  rfl

end linkLeft

/-! ### The byte that a clock-out answers -/

/-- The bits that a clock-out samples do not depend on fields that no event reads or writes. -/
theorem outBits_commutes (f : State → State) (hperform : ∀ s e, (f s).perform e = f (s.perform e))
    (hsample : ∀ s, (f s).env.sampleBit (f s).accesses (f s).trace = s.env.sampleBit s.accesses s.trace)
    (hpulse : ∀ s, (f s).link.pulse = s.link.pulse) (n : Nat) (s : State) : outBits n (f s) = outBits n s := by
  have hall (es : List Event) (u : State) : (f u).performAll es = f (u.performAll es) := by
    induction es generalizing u with
    | nil => rfl
    | cons e es ih => rw [performAll_cons, hperform, ih, performAll_cons]
  induction n generalizing s with
  | zero => rfl
  | succ n ih => rw [outBits, outBits, hsample, hpulse, hall, ih]

theorem outByte_commutes (f : State → State) (hperform : ∀ s e, (f s).perform e = f (s.perform e))
    (hsample : ∀ s, (f s).env.sampleBit (f s).accesses (f s).trace = s.env.sampleBit s.accesses s.trace)
    (hpulse : ∀ s, (f s).link.pulse = s.link.pulse) (s : State) : outByte (f s) = outByte s := by
  rw [outByte, outByte, sampledBits, sampledBits, hperform, outBits_commutes f hperform hsample hpulse]

theorem outByte_setTe (v : Bool) (s : State) : outByte (s.setTe v) = outByte s :=
  outByte_commutes (State.setTe v) (fun _ _ => rfl) (fun _ => rfl) (fun _ => rfl) s

theorem outByte_linkLeft (s : State) (ev : List Event) (te : Bool) (res : Option Word) (k : Completion) :
    outByte (linkLeft s ev te res k) = outByte (s.performAll ev) :=
  outByte_commutes (fun u => linkLeft u [] te res k) (fun _ _ => rfl) (fun _ => rfl) (fun _ => rfl) (s.performAll ev)

/-! ### A byte sent or received, and the session -/

section quiet
variable {s : State} {ev : List Event} {res : Option Word}

theorem exec_linkEnable_quiet (hcfg : s.link.cfg = true) (hq : s.Quiet 2) :
    exec .linkEnable s = .next (linkLeft s (enableTrace s.link.pulse.toNat) true s.result .ok) := by
  rw [exec, execLinkEnable, hcfg, require_true, linkEnable_quiet hq, onError_done, finish_done, linkLeft_of_setTe]

/-- A byte sent in an open session (R83). -/
theorem sendByte_quiet (x : Byte) (hcfg : s.link.cfg = true) (hte : s.link.te = true) (hq : s.Quiet 25) :
    finish (sendByte x s) = .next (linkLeft s (txTrace s.link.pulse.toNat x) s.link.te s.result .ok) := by
  rw [← exec_linkTx_quiet x hcfg hte hq]
  rfl

/-- LINK.TX after the operations of an open session. -/
theorem exec_linkTx_linkLeft (x : Byte) (hcfg : s.link.cfg = true) (hq : s.Quiet (accessCount ev + 25)) :
    exec (.linkTx x) (linkLeft s ev true res .ok) =
      .next (linkLeft s (ev ++ txTrace s.link.pulse.toNat x) true res .ok) := by
  have hexec := exec_linkTx_quiet x ((linkLeft_linkCfg s ev true res .ok).trans hcfg) rfl (Quiet_linkLeft _ _ _ _ _ hq)
  rw [linkLeft_linkLeft, linkLeft_pulse] at hexec
  exact hexec

/-- LINK.RX after the operations of an open session. -/
theorem exec_linkRx_linkLeft (hcfg : s.link.cfg = true) (hq : s.Quiet (accessCount ev + 25)) :
    exec .linkRx (linkLeft s ev true res .ok) =
      .next (linkLeft s (ev ++ rxTrace s.link.pulse.toNat (outByte (s.performAll ev))) true
        (some (zextByte (outByte (s.performAll ev)))) .ok) := by
  have hexec := exec_linkRx_quiet ((linkLeft_linkCfg s ev true res .ok).trans hcfg) rfl (Quiet_linkLeft _ _ _ _ _ hq)
  rw [linkLeft_linkLeft, linkLeft_pulse, outByte_linkLeft] at hexec
  exact hexec

/-- LINK.DISABLE after other operations of the link. -/
theorem exec_linkDisable_linkLeft (hcfg : s.link.cfg = true) (hq : s.Quiet (accessCount ev + 1)) :
    exec .linkDisable (linkLeft s ev true res .ok) =
      .next (linkLeft s (ev ++ disableTrace s.link.pulse.toNat) false res .ok) := by
  have hexec := exec_linkDisable_quiet ((linkLeft_linkCfg s ev true res .ok).trans hcfg) (Quiet_linkLeft _ _ _ _ _ hq)
  rw [linkLeft_linkLeft, linkLeft_pulse] at hexec
  exact hexec

/-! ### The CMD operations and their link operations -/

/-- The byte that CMD.READ receives when no access fails: a clock-out after the enable and the command byte (R90). -/
def readByte (cls : RegClass) (index : BitVec 5) (s : State) : Byte :=
  outByte (s.performAll (enableTrace s.link.pulse.toNat ++ txTrace s.link.pulse.toNat (cmdByte cls .read index)))

section transaction
variable (cls : RegClass) (index : BitVec 5) (value : Byte)

@[simp] theorem accessCount_writeEvents (p : Nat) : accessCount (writeEvents p cls index value) = 52 := by
  rw [writeEvents, accessCount_append, accessCount_append, accessCount_enableTrace, accessCount_txTrace,
    accessCount_txTrace]

@[simp] theorem accessCount_readEvents (p : Nat) : accessCount (readEvents p cls index value) = 52 := by
  rw [readEvents, accessCount_append, accessCount_append, accessCount_enableTrace, accessCount_txTrace,
    accessCount_rxTrace]

theorem accessCount_enable_tx (p : Nat) (x : Byte) : accessCount (enableTrace p ++ txTrace p x) = 27 := by
  rw [accessCount_append, accessCount_enableTrace, accessCount_txTrace]

/-- The premise that remains after the first events of a session. -/
theorem Quiet_setTe_performAll {n : Nat} (w : List Event) (h : s.Quiet (accessCount w + n)) :
    ((s.performAll w).setTe true).Quiet n := Quiet_performAll w h

/-- The command byte of a CMD operation, after its enable (R89, R90). -/
theorem clockIn_after_enable (x : Byte) (hq : s.Quiet 27) :
    clockIn x ((s.performAll (enableTrace s.link.pulse.toNat)).setTe true) =
      .done () ((s.performAll (enableTrace s.link.pulse.toNat ++ txTrace s.link.pulse.toNat x)).setTe true) := by
  have hleft : ((s.performAll (enableTrace s.link.pulse.toNat)).setTe true).Quiet 25 :=
    Quiet_setTe_performAll (enableTrace s.link.pulse.toNat) hq
  rw [clockIn_quiet x hleft, performAll_setTe, State.setTe_link, performAll_append, performAll_pulse]

theorem writeTransfer_quiet (hq : s.Quiet 52) : writeTransfer cls index value s =
    .done () ((s.performAll (writeEvents s.link.pulse.toNat cls index value)).setTe true) := by
  have hleft : ((s.performAll (enableTrace s.link.pulse.toNat ++
      txTrace s.link.pulse.toNat (cmdByte cls .write index))).setTe true).Quiet 25 :=
    Quiet_setTe_performAll _ (by rwa [accessCount_enable_tx])
  rw [writeTransfer, linkEnable_quiet (Quiet_mono hq (by omega)), andThen_done, recheck, State.setTe_link, if_pos rfl,
    andThen_done, clockIn_after_enable _ (Quiet_mono hq (by omega)), andThen_done, clockIn_quiet value hleft,
    performAll_setTe, State.setTe_link, performAll_pulse, writeEvents, performAll_append _ _ (txTrace _ value)]

theorem readTransfer_quiet (hq : s.Quiet 52) : readTransfer cls index s =
    .done (readByte cls index s)
      ((s.performAll (readEvents s.link.pulse.toNat cls index (readByte cls index s))).setTe true) := by
  have hleft : ((s.performAll (enableTrace s.link.pulse.toNat ++
      txTrace s.link.pulse.toNat (cmdByte cls .read index))).setTe true).Quiet 25 :=
    Quiet_setTe_performAll _ (by rwa [accessCount_enable_tx])
  rw [readTransfer, linkEnable_quiet (Quiet_mono hq (by omega)), andThen_done, recheck, State.setTe_link, if_pos rfl,
    andThen_done, clockIn_after_enable _ (Quiet_mono hq (by omega)), andThen_done, clockOut_quiet hleft,
    performAll_setTe, State.setTe_link, performAll_pulse, outByte_setTe, readByte, readEvents,
    performAll_append _ _ (rxTrace _ _)]

/-- The release of L_CE after a transfer of 52 accesses (R76). -/
theorem linkDisable_after_transfer (w : List Event) (hw : accessCount w = 52) (hq : s.Quiet 53) :
    linkDisable ((s.performAll w).setTe true) =
      .done () ((s.performAll (w ++ disableTrace s.link.pulse.toNat)).setTe false) := by
  have hleft : ((s.performAll w).setTe true).Quiet 1 := Quiet_setTe_performAll w (by rwa [hw])
  rw [linkDisable_quiet hleft, performAll_setTe, setTe_setTe, State.setTe_link, performAll_append, performAll_pulse]

theorem exec_cmdWrite_quiet (hcfg : s.link.cfg = true) (hq : s.Quiet 53) : exec (.cmdWrite cls index value) s =
    .next (linkLeft s (writeEvents s.link.pulse.toNat cls index value ++ disableTrace s.link.pulse.toNat) false
      s.result .ok) := by
  rw [exec, execCmdWrite, hcfg, require_true, writeTransfer_quiet cls index value (Quiet_mono hq (by omega)),
    cleanup_done_of_done (linkDisable_after_transfer _ (accessCount_writeEvents ..) hq), finish_done, linkLeft_of_setTe]

theorem exec_cmdRead_quiet (hcfg : s.link.cfg = true) (hq : s.Quiet 53) : exec (.cmdRead cls index) s =
    .next (linkLeft s
      (readEvents s.link.pulse.toNat cls index (readByte cls index s) ++ disableTrace s.link.pulse.toNat) false
      (some (zextByte (readByte cls index s))) .ok) := by
  rw [exec, execCmdRead, hcfg, require_true, readTransfer_quiet cls index (Quiet_mono hq (by omega)),
    cleanup_done_of_done (linkDisable_after_transfer _ (accessCount_readEvents ..) hq), andThen_done, finish_done,
    linkLeft_of_setTe_result]

/-- The four link operations of CMD.WRITE (R92). -/
theorem execAll_write_quiet (hcfg : s.link.cfg = true) (hq : s.Quiet 53) :
    execAll [.linkEnable, .linkTx (cmdByte cls .write index), .linkTx value, .linkDisable] s =
      .next (linkLeft s (writeEvents s.link.pulse.toNat cls index value ++ disableTrace s.link.pulse.toNat) false
        s.result .ok) := by
  have hcmd : s.Quiet (accessCount (enableTrace s.link.pulse.toNat) + 25) := Quiet_mono hq (by simp)
  have hdata : s.Quiet (accessCount (enableTrace s.link.pulse.toNat ++
      txTrace s.link.pulse.toNat (cmdByte cls .write index)) + 25) :=
    Quiet_mono hq (by rw [accessCount_enable_tx]; omega)
  have hrelease : s.Quiet (accessCount (writeEvents s.link.pulse.toNat cls index value) + 1) := by
    rwa [accessCount_writeEvents]
  rw [execAll_cons_of_next (exec_linkEnable_quiet hcfg (Quiet_mono hq (by omega))),
    execAll_cons_of_next (exec_linkTx_linkLeft _ hcfg hcmd), execAll_cons_of_next (exec_linkTx_linkLeft _ hcfg hdata)]
  exact execAll_singleton_of_next (exec_linkDisable_linkLeft hcfg hrelease)

/-- The four link operations of CMD.READ (R92). -/
theorem execAll_read_quiet (hcfg : s.link.cfg = true) (hq : s.Quiet 53) :
    execAll [.linkEnable, .linkTx (cmdByte cls .read index), .linkRx, .linkDisable] s =
      .next (linkLeft s
        (readEvents s.link.pulse.toNat cls index (readByte cls index s) ++ disableTrace s.link.pulse.toNat) false
        (some (zextByte (readByte cls index s))) .ok) := by
  have hcmd : s.Quiet (accessCount (enableTrace s.link.pulse.toNat) + 25) := Quiet_mono hq (by simp)
  have hdata : s.Quiet (accessCount (enableTrace s.link.pulse.toNat ++
      txTrace s.link.pulse.toNat (cmdByte cls .read index)) + 25) :=
    Quiet_mono hq (by rw [accessCount_enable_tx]; omega)
  have hrelease : s.Quiet (accessCount (readEvents s.link.pulse.toNat cls index (readByte cls index s)) + 1) := by
    rwa [accessCount_readEvents]
  rw [execAll_cons_of_next (exec_linkEnable_quiet hcfg (Quiet_mono hq (by omega))),
    execAll_cons_of_next (exec_linkTx_linkLeft _ hcfg hcmd), execAll_cons_of_next (exec_linkRx_linkLeft hcfg hdata)]
  exact execAll_singleton_of_next (exec_linkDisable_linkLeft hcfg hrelease)

end transaction
end quiet

/-! ### The lines after a transaction -/

theorem foldl_writeEvents_disable (p : Nat) (cls : RegClass) (index : BitVec 5) (value : Byte) (l : Lines) :
    (writeEvents p cls index value ++ disableTrace p).foldl Lines.event l =
      { pins := { l.pins with lClk := .low, lCe := .low }, dir := .output, dout := .ofBit (value.getLsbD 7) } := by
  simp only [writeEvents, List.foldl_append, foldl_enableTrace, foldl_txTrace, foldl_disableTrace]

theorem foldl_readEvents_disable (p : Nat) (cls : RegClass) (index : BitVec 5) (r : Byte) (l : Lines) :
    (readEvents p cls index r ++ disableTrace p).foldl Lines.event l =
      { pins := { l.pins with lClk := .low, lCe := .low }, dir := .input, dout := .high } := by
  simp only [readEvents, List.foldl_append, foldl_enableTrace, foldl_txTrace, foldl_rxTrace, foldl_disableTrace,
    cmdByte_eq_wireByte, wireByte_bit7]
  rfl

/-! ### The samples where no device is assumed -/

/-- No event brings a device to a link that has none. -/
theorem performAll_free {s : State} (es : List Event) (hfree : s.env.link = .free) :
    (s.performAll es).env.link = .free := by
  induction es generalizing s with
  | nil => exact hfree
  | cons e es ih =>
    refine ih ?_
    have hseen : (s.perform e).env.link = s.env.link.observe s.pins.lCe e := rfl
    rw [hseen, hfree, LinkDevice.observe]
    exact ite_self _

/-- Where no device is assumed a sample is scripted or free (R33). -/
theorem sampleBit_of_free {e : Env} (hfree : e.link = .free) (k : Nat) (tr : List Event) : e.sampleBit k tr =
    (match e.script[k]? with | some d => d.bit | none => Config.sample e.run k tr) := by
  rw [Env.sampleBit, hfree]
  rfl

/-- Events leave the draws of a link that has no device. -/
theorem sampleBit_performAll {s : State} (es : List Event) (hfree : s.env.link = .free) (k : Nat) (tr : List Event) :
    (s.performAll es).env.sampleBit k tr = s.env.sampleBit k tr := by
  rw [sampleBit_of_free (performAll_free es hfree), sampleBit_of_free hfree, performAll_script, performAll_run]

/-- Each bit of a clock-out is the draw for its access and the trace before it (R33, R78). -/
theorem getElem?_outBits {s : State} {n i : Nat} (hfree : s.env.link = .free) (hi : i < n) :
    (outBits n s)[i]? = some (s.env.sampleBit (s.accesses + 3 * i)
      (s.trace ++ ((outBits n s).take i).flatMap (rxBitTrace s.link.pulse.toNat))) := by
  induction n generalizing s i with
  | zero => exact absurd hi (Nat.not_lt_zero i)
  | succ n ih =>
    rw [outBits]
    generalize hv : s.env.sampleBit s.accesses s.trace = v
    cases i with
    | zero => rw [List.getElem?_cons_zero, List.take_zero, List.flatMap_nil, List.append_nil, Nat.mul_zero,
        Nat.add_zero, hv]
    | succ i =>
      have hcount : s.accesses + accessCount (rxBitTrace s.link.pulse.toNat v) + 3 * i = s.accesses + 3 * (i + 1) := by
        have hthree : accessCount (rxBitTrace s.link.pulse.toNat v) = 3 := rfl
        omega
      have hrest := ih (performAll_free (rxBitTrace s.link.pulse.toNat v) hfree) (Nat.lt_of_succ_lt_succ hi)
      rw [sampleBit_performAll _ hfree, performAll_accesses, performAll_trace, performAll_pulse, hcount,
        List.append_assoc] at hrest
      rw [List.getElem?_cons_succ, hrest, List.take_succ_cons, List.flatMap_cons]

theorem getElem?_wireBits (r : Byte) {i : Nat} (hi : i < 8) : (wireBits r)[i]? = some (r.getLsbD i) := by
  interval_cases i <;> rfl

/-- Each bit of the byte that a clock-out answers, where no device is assumed (R33, R78). -/
theorem outByte_bit_of_free {s : State} {i : Nat} (hfree : s.env.link = .free) (hi : i < 8) :
    (outByte s).getLsbD i = s.env.sampleBit (s.accesses + 1 + 3 * i)
      (s.trace ++ .dir .input :: ((wireBits (outByte s)).take i).flatMap (rxBitTrace s.link.pulse.toNat)) := by
  have hbit := getElem?_outBits (performAll_free [.dir .input] hfree) hi
  rw [sampleBit_performAll _ hfree, performAll_accesses, performAll_trace, performAll_pulse, List.append_assoc] at hbit
  have hsampled : outBits 8 (s.performAll [.dir .input]) = wireBits (outByte s) := (wireBits_outByte s).symm
  rw [hsampled, getElem?_wireBits _ hi] at hbit
  exact Option.some.inj hbit

end Sys2Proof.Machine
end

section
/-! SUPPORT. RAMCHIP along the events of a transaction (R35): the command byte picks the register, a data byte is
stored in it, and a clock-out samples its bits back (R77, R78, R89, R90). -/

namespace Sys2Proof.Machine

/-! ### Bytes and bits -/

/-- The byte of the bits that a byte sends is that byte (R48). -/
theorem byteOfBits_wireBits (x : Byte) : byteOfBits (wireBits x) = x := by
  have hbits (b0 b1 b2 b3 b4 b5 b6 b7 : Bool) :
      wireBits (byteOfBits [b0, b1, b2, b3, b4, b5, b6, b7]) = [b0, b1, b2, b3, b4, b5, b6, b7] := by
    revert b0 b1 b2 b3 b4 b5 b6 b7
    decide
  exact wireBits_injective (hbits ..)

/-! ### RAMCHIP and lists of events -/

/-- RAMCHIP's view of an event depends on L_CE only at a rise. -/
theorem RamChip.observe_of_ne_rise {e : Event} (h : e ≠ .drive .lCe true) (ce ce' : Level) (c : RamChip) :
    c.observe ce e = c.observe ce' e := by
  cases e with
  | drive p v =>
    cases p with
    | lCe =>
      cases v with
      | true => exact absurd rfl h
      | false => rfl
    | _ => rfl
  | dir d => cases d <;> rfl
  | _ => rfl

/-- What RAMCHIP makes of events in order, none of them a rise of L_CE. -/
def RamChip.observeAll (es : List Event) (c : RamChip) : RamChip := es.foldl (fun c e => c.observe .low e) c

theorem RamChip.observeAll_append (es fs : List Event) (c : RamChip) :
    c.observeAll (es ++ fs) = (c.observeAll es).observeAll fs := List.foldl_append

/-- RAMCHIP stays on the link while no access fails, and sees every event. -/
theorem performAll_ramchip {es : List Event} {s : State} {c : RamChip} (hok : es.any Event.isFailure = false)
    (hce : .drive .lCe true ∉ es) (hdev : s.env.link = .ramchip c) :
    (s.performAll es).env.link = .ramchip (c.observeAll es) := by
  induction es generalizing s c with
  | nil => exact hdev
  | cons e es ih =>
    obtain ⟨he, hes⟩ : e.isFailure = false ∧ es.any Event.isFailure = false := by simpa using hok
    obtain ⟨hne, hrest⟩ : .drive .lCe true ≠ e ∧ .drive .lCe true ∉ es := by simpa using hce
    have hnext : (s.perform e).env.link = .ramchip (c.observe .low e) := by
      have hseen : (s.perform e).env.link = s.env.link.observe s.pins.lCe e := rfl
      rw [hseen, hdev, LinkDevice.observe, he, if_neg Bool.false_ne_true, RamChip.observe_of_ne_rise (Ne.symm hne)]
    exact ih hes hrest hnext

/-- Only a level driven on L_DATA can change a register. -/
theorem RamChip.observe_ram {e : Event} (h : ∀ v, e ≠ .drive .lData v) (ce : Level) (c : RamChip) :
    (c.observe ce e).ram = c.ram := by
  cases e with
  | drive p v =>
    cases p with
    | lData => exact absurd rfl (h v)
    | lCe =>
      cases v with
      | true =>
        rw [RamChip.observe]
        split <;> rfl
      | false => rfl
    | _ => rfl
  | dir d =>
    cases d with
    | output => rfl
    | input => exact RamChip.startOut_ram c
  | sample v => exact RamChip.sampled_ram c
  | _ => rfl

theorem RamChip.observeAll_ram {es : List Event} (h : ∀ v, .drive .lData v ∉ es) (c : RamChip) :
    (c.observeAll es).ram = c.ram := by
  induction es generalizing c with
  | nil => rfl
  | cons e es ih =>
    have hhead (v : Bool) : e ≠ .drive .lData v := fun he => h v (by simp [he])
    have htail (v : Bool) : .drive .lData v ∉ es := fun hm => h v (List.mem_cons_of_mem _ hm)
    exact (ih htail _).trans (RamChip.observe_ram hhead _ c)

/-! ### A byte to RAMCHIP -/

theorem RamChip.observeAll_txBits (p : Nat) (bs : List Bool) (c : RamChip) :
    c.observeAll (bs.flatMap (txBitTrace p)) = bs.foldl (fun c v => c.takeBit v) c := by
  induction bs generalizing c with
  | nil => rfl
  | cons b bs ih =>
    have hbit : c.observeAll (txBitTrace p b) = c.takeBit b := rfl
    rw [List.flatMap_cons, RamChip.observeAll_append, hbit, ih, List.foldl_cons]

/-- Fewer than eight bits of a clock-in are kept. -/
theorem RamChip.foldl_takeBit {kept bs : List Bool} (c : RamChip) (h : kept.length + bs.length < 8) :
    bs.foldl (fun c v => c.takeBit v) { c with bits := kept } = { c with bits := kept ++ bs } := by
  induction bs generalizing kept with
  | nil => rw [List.append_nil, List.foldl_nil]
  | cons b bs ih =>
    rw [List.length_cons] at h
    have hlen : (kept ++ [b]).length = kept.length + 1 := List.length_append
    have hkept : ({ c with bits := kept } : RamChip).takeBit b = { c with bits := kept ++ [b] } :=
      if_neg (show ¬(kept ++ [b]).length = 8 by omega)
    rw [List.foldl_cons, hkept, ih (by omega), List.append_assoc, List.singleton_append]

/-- The eighth bit of a clock-in completes its byte. -/
theorem RamChip.foldl_takeBit_byte {bs : List Bool} (b : Bool) (c : RamChip) (h : bs.length = 7) :
    (bs ++ [b]).foldl (fun c v => c.takeBit v) { c with bits := [] } =
      ({ c with bits := bs ++ [b] } : RamChip).takeByte (byteOfBits (bs ++ [b])) := by
  have hfull : (bs ++ [b]).length = 8 := by rw [List.length_append, h]; rfl
  rw [List.foldl_append, RamChip.foldl_takeBit c (by simp [h]), List.nil_append]
  exact if_pos hfull

/-- A clock-in gives RAMCHIP the byte, whatever clock-in came before. -/
theorem RamChip.observeAll_txTrace (p : Nat) (x : Byte) (c : RamChip) :
    c.observeAll (txTrace p x) = ({ c with bits := wireBits x } : RamChip).takeByte x := by
  have hstart : c.observeAll [.dir .output] = { c with bits := [] } := rfl
  obtain ⟨bs, b, hlen, hx⟩ : ∃ bs b, bs.length = 7 ∧ wireBits x = bs ++ [b] :=
    ⟨(wireBits x).take 7, x.getLsbD 7, rfl, rfl⟩
  rw [txTrace, ← List.singleton_append, RamChip.observeAll_append, hstart, RamChip.observeAll_txBits, hx,
    RamChip.foldl_takeBit_byte b c hlen, ← hx, byteOfBits_wireBits]

theorem RamChip.takeByte_write {c : RamChip} (index : BitVec 5) (hphase : c.phase = .command) :
    c.takeByte (cmdByte .ram .write index) = { c with phase := .store index } := by
  have hrow := wireByte_and .ram .write index
  have hindex : (wireByte .ram .write index).extractLsb' 1 5 = index := wireIndex_wireByte .ram .write index
  rw [cmdByte_eq_wireByte, RamChip.takeByte, hphase]
  simp only [hrow, hindex]
  rfl

theorem RamChip.takeByte_read {c : RamChip} (index : BitVec 5) (hphase : c.phase = .command) :
    c.takeByte (cmdByte .ram .read index) = { c with phase := .fetch index } := by
  have hrow := wireByte_and .ram .read index
  have hindex : (wireByte .ram .read index).extractLsb' 1 5 = index := wireIndex_wireByte .ram .read index
  rw [cmdByte_eq_wireByte, RamChip.takeByte, hphase]
  simp only [hrow, hindex]
  rfl

theorem txTrace_no_rise (p : Nat) (x : Byte) : .drive .lCe true ∉ txTrace p x := by
  simp [txTrace, wireBits, txBitTrace, pulseTrace]

theorem rxTrace_no_rise (p : Nat) (r : Byte) : .drive .lCe true ∉ rxTrace p r := by
  simp [rxTrace, wireBits, rxBitTrace, pulseTrace]

theorem rxTrace_no_drive (p : Nat) (r : Byte) (v : Bool) : .drive .lData v ∉ rxTrace p r := by
  simp [rxTrace, wireBits, rxBitTrace, pulseTrace]

section session
variable {s : State} {c : RamChip} (p : Nat)

/-- The enable sequence opens a session of RAMCHIP when L_CE was low. -/
theorem performAll_enable_ramchip (hdev : s.env.link = .ramchip c) (hce : s.pins.lCe = .low) :
    (s.performAll (enableTrace p)).env.link = .ramchip { c with phase := .command, bits := [] } := by
  have hstart := performAll_ramchip (es := [.drive .lClk false, .wait p]) rfl (by simp) hdev
  have hrise : ((s.performAll [.drive .lClk false, .wait p]).perform (.drive .lCe true)).env.link =
      .ramchip { c with phase := .command, bits := [] } := by
    have hseen : ((s.performAll [.drive .lClk false, .wait p]).perform (.drive .lCe true)).env.link =
        (s.performAll [.drive .lClk false, .wait p]).env.link.observe s.pins.lCe (.drive .lCe true) := rfl
    rw [hseen, hstart, hce]
    rfl
  exact performAll_ramchip (es := [.wait p]) rfl (by simp) hrise

/-- RAMCHIP after the enable sequence and the first byte of a session. -/
theorem performAll_enable_tx_ramchip (x : Byte) (hdev : s.env.link = .ramchip c) (hce : s.pins.lCe = .low) :
    (s.performAll (enableTrace p ++ txTrace p x)).env.link =
      .ramchip (({ c with phase := .command, bits := wireBits x } : RamChip).takeByte x) := by
  rw [performAll_append, performAll_ramchip (txTrace_noFailure p x) (txTrace_no_rise p x)
    (performAll_enable_ramchip p hdev hce), RamChip.observeAll_txTrace]

/-- CMD.WRITE of a RAM register stores its byte, and ends the session. -/
theorem performAll_write_ramchip (index : BitVec 5) (value : Byte) (hdev : s.env.link = .ramchip c)
    (hce : s.pins.lCe = .low) :
    (s.performAll (writeEvents p .ram index value ++ disableTrace p)).env.link =
      .ramchip { ram := c.ram.set index.toNat value, phase := .idle, bits := [] } := by
  have hcmd := performAll_enable_tx_ramchip p (cmdByte .ram .write index) hdev hce
  rw [RamChip.takeByte_write index rfl] at hcmd
  have hdata := performAll_ramchip (txTrace_noFailure p value) (txTrace_no_rise p value) hcmd
  rw [RamChip.observeAll_txTrace, ← performAll_append] at hdata
  rw [writeEvents, performAll_append]
  exact performAll_ramchip (es := disableTrace p) rfl (by simp [disableTrace]) hdata

/-- RAMCHIP after the command byte of CMD.READ of a RAM register. -/
theorem performAll_readCommand_ramchip (index : BitVec 5) (hdev : s.env.link = .ramchip c) (hce : s.pins.lCe = .low) :
    (s.performAll (enableTrace p ++ txTrace p (cmdByte .ram .read index))).env.link =
      .ramchip { c with phase := .fetch index, bits := wireBits (cmdByte .ram .read index) } := by
  rw [performAll_enable_tx_ramchip p _ hdev hce, RamChip.takeByte_read index rfl]

/-- CMD.READ changes no register of RAMCHIP. -/
theorem performAll_read_ramchip (index : BitVec 5) (r : Byte) (hdev : s.env.link = .ramchip c)
    (hce : s.pins.lCe = .low) :
    ∃ c', (s.performAll (readEvents p .ram index r ++ disableTrace p)).env.link = .ramchip c' ∧ c'.ram = c.ram := by
  have hrest (e : Event) (he : e ∉ rxTrace p r) (he' : e ∉ disableTrace p) : e ∉ rxTrace p r ++ disableTrace p :=
    List.not_mem_append he he'
  have hclosed := performAll_ramchip (es := rxTrace p r ++ disableTrace p)
    (by rw [List.any_append, rxTrace_noFailure, disableTrace_noFailure]; rfl)
    (hrest _ (rxTrace_no_rise p r) (by simp [disableTrace])) (performAll_readCommand_ramchip p index hdev hce)
  rw [← performAll_append, ← List.append_assoc] at hclosed
  exact ⟨_, hclosed, RamChip.observeAll_ram (fun v => hrest _ (rxTrace_no_drive p r v) (by simp [disableTrace])) _⟩

end session

/-! ### A byte from RAMCHIP -/

/-- The bits that a clock-out samples from RAMCHIP are those of the byte it sends, from its place on. -/
theorem outBits_ramchip {n m : Nat} {s : State} {c : RamChip} {b : Byte} (hdev : s.env.link = .ramchip c)
    (hphase : 0 < n → c.phase = .sending b m) (hm : m + n = 8) : outBits n s = (wireBits b).drop m := by
  induction n generalizing s c m with
  | zero =>
    obtain rfl : m = 8 := by omega
    rfl
  | succ n ih =>
    have hsending := hphase n.succ_pos
    have hlt : m < (wireBits b).length := by
      have hlen : (wireBits b).length = 8 := rfl
      omega
    have hbit : (wireBits b)[m] = b.getLsbD m :=
      Option.some.inj ((List.getElem?_eq_getElem hlt).symm.trans (getElem?_wireBits b hlt))
    have hsample : s.env.sampleBit s.accesses s.trace = (wireBits b)[m] := by
      rw [Env.sampleBit, hdev, LinkDevice.answer, hsending, hbit]
    have hnext := performAll_ramchip (es := rxBitTrace s.link.pulse.toNat (wireBits b)[m]) rfl
      (by simp [rxBitTrace, pulseTrace]) hdev
    have hmoved (hn : 0 < n) : (c.observeAll (rxBitTrace s.link.pulse.toNat (wireBits b)[m])).phase =
        .sending b (m + 1) := by
      have hseen : c.observeAll (rxBitTrace s.link.pulse.toNat (wireBits b)[m]) = c.sampled := rfl
      rw [hseen, RamChip.sampled, hsending]
      exact congrArg RamChip.phase (if_pos (by omega))
    rw [outBits, hsample, ih hnext hmoved (by omega), List.drop_eq_getElem_cons hlt]

/-- A clock-out after a read command answers the register's byte. -/
theorem outByte_of_ramchip {s : State} {c : RamChip} {index : BitVec 5} {b : Byte} (hdev : s.env.link = .ramchip c)
    (hphase : c.phase = .fetch index) (hram : c.ram[index.toNat]? = some b) : outByte s = b := by
  have hstart : (s.perform (.dir .input)).env.link = .ramchip c.startOut :=
    performAll_ramchip (es := [.dir .input]) rfl (by simp) hdev
  have hsending : c.startOut.phase = .sending b 0 := by
    simp only [RamChip.startOut, hphase, hram]
  exact wireBits_injective ((wireBits_outByte s).trans (outBits_ramchip hstart (fun _ => hsending) rfl))

/-- CMD.READ of a RAM register receives its byte. -/
theorem readByte_of_ramchip {s : State} {c : RamChip} {index : BitVec 5} {b : Byte} (hdev : s.env.link = .ramchip c)
    (hce : s.pins.lCe = .low) (hram : c.ram[index.toNat]? = some b) : readByte .ram index s = b :=
  outByte_of_ramchip (performAll_readCommand_ramchip s.link.pulse.toNat index hdev hce) rfl hram

end Sys2Proof.Machine
end

section
/-! The statements about the link, the command codec and RAMCHIP, settled. -/

namespace Sys2Proof.Machine

/-- Settles O32: the events of LINK.ENABLE, and what they leave of the lines. -/
theorem linkEnableOpensASession : Obligations.LinkEnableOpensASession := by
  intro s hcfg hq
  have hexec := exec_linkEnable_quiet hcfg hq
  refine ⟨_, hexec, linkLeft_trace .., ?_, ?_, linkLeft_accesses .., linkLeft_result .., linkLeft_status ..,
    exec_linkFrame rfl hexec⟩
  · rw [linkLeft_link, foldl_enableTrace]
    rfl
  · rw [linkLeft_pins, foldl_enableTrace]
    rfl

/-- What a byte sent in an open session leaves (R83), for LINK.TX and the wire bytes. -/
theorem exec_sent {i : Instr} {s : State} {x : Byte} (hi : isLinkOp i = true)
    (hexec : exec i s = .next (linkLeft s (txTrace s.link.pulse.toNat x) s.link.te s.result .ok)) :
    ∃ t, exec i s = .next t ∧ t.trace = s.trace ++ txTrace s.link.pulse.toNat x ∧
      t.link = { s.link with dir := .output, dout := .ofBit (x.getLsbD 7) } ∧
      t.pins = { s.pins with lClk := .low } ∧ t.accesses = s.accesses + 25 ∧ t.result = s.result ∧
      t.status = { s.status with err := .ok } ∧ LinkFrame s t := by
  refine ⟨_, hexec, linkLeft_trace .., ?_, ?_, ?_, linkLeft_result .., linkLeft_status .., exec_linkFrame hi hexec⟩
  · rw [linkLeft_link, foldl_txTrace]
  · rw [linkLeft_pins, foldl_txTrace]
    rfl
  · rw [linkLeft_accesses, accessCount_txTrace]

/-- Settles O34: the 49 events of a clock-in. -/
theorem linkTxSendsTheByte : Obligations.LinkTxSendsTheByte :=
  fun _ x hcfg hte hq => exec_sent rfl (exec_linkTx_quiet x hcfg hte hq)

/-- A wire byte is the command byte of its row, whose bit 7 is set, sent as LINK.TX sends one (R62, R88, log 5). -/
theorem exec_of_encode_wire {i : Instr} {c : Byte} (h : encode i = .wire c) (s : State) :
    isLinkOp i = true ∧ c.getLsbD 7 = true ∧ exec i s = finish (sendByte c s) := by
  have hsent (cls : RegClass) (rw : Rw) (n : BitVec 5) :
      finish (sendByte (cmdByte cls rw n) s) = finish (sendByte (wireByte cls rw n) s) := by
    rw [cmdByte_eq_wireByte]
  cases i with
  | cmdbyteWriteRam n | cmdbyteReadRam n | cmdbyteWriteRtc n | cmdbyteReadRtc n =>
    obtain rfl := Code.wire.inj h
    exact ⟨rfl, wireByte_bit7 .., hsent ..⟩
  | _ => exact nomatch h

/-- Settles O44: bit 7 of a command byte, the last bit sent, is set. -/
theorem wireByteIsSentInAnOpenSession : Obligations.WireByteIsSentInAnOpenSession := by
  intro s i c hcfg hte hq hcode
  obtain ⟨hi, hbit7, hrow⟩ := exec_of_encode_wire hcode s
  have hsent := exec_sent hi (hrow.trans (sendByte_quiet c hcfg hte hq))
  rw [hbit7] at hsent
  exact hsent

/-- Settles O36: a clock-out answers its samples, each the draw for its access. -/
theorem linkRxReceivesTheByte : Obligations.LinkRxReceivesTheByte := by
  intro s hcfg hte hq
  have hexec := exec_linkRx_quiet hcfg hte hq
  refine ⟨_, outByte s, hexec, linkLeft_trace .., linkLeft_result .., ?_, ?_, ?_, linkLeft_status ..,
    exec_linkFrame rfl hexec, fun i hi hfree => ⟨outByte_bit_of_free hfree hi, sampleBit_of_free hfree⟩⟩
  · rw [linkLeft_link, foldl_rxTrace]
    rfl
  · rw [linkLeft_pins, foldl_rxTrace]
    rfl
  · rw [linkLeft_accesses, accessCount_rxTrace]

/-- Settles O38: the events up to the access that failed, and the two ways the cleanup can end. -/
theorem failedTransferClosesTheSession : Obligations.FailedTransferClosesTheSession := by
  intro s i t hi h hio
  obtain ⟨hlink, hkeeps⟩ : isLinkOp i = true ∧ releasesCe i = false := by
    obtain rfl | rfl | ⟨x, rfl⟩ | ⟨n, rfl | rfl | rfl | rfl⟩ := hi <;> exact ⟨rfl, rfl⟩
  obtain ⟨hresult, -⟩ := resultIsWrittenOnlyOnSuccess i s t h
  refine ⟨hresult (.inr (by rw [hio]; decide)), exec_linkFrame hlink h, ?_⟩
  obtain ⟨es, f, c, hbody, hfails, hcleanup, hran⟩ := (exec_completes h).of_ioFault hio
  obtain hfails | ⟨hreleases, -, -⟩ := hfails
  · obtain ⟨start, failed, hfailed, rfl⟩ := hfails.ends_with_linkFailure (hbody.onLink hlink)
    refine ⟨start, failed, hfailed, ?_⟩
    rw [hran.trace, hran.pins]
    cases hcleanup with
    | engine hsr => exact (not_isLinkOp_of_isSrOp hsr hlink).elim
    | closed _ hte => exact .inl ⟨by simp [disableTrace], performAll_lCe_of_disableTrace .., hte⟩
    | unknown _ hte => exact .inr ⟨by simp, performAll_lCe_of_fail .., hte hkeeps⟩
  · exact absurd hreleases (by simp [hkeeps])

/-- Settles O39: the enable, the two bytes and the disable in one linear sequence. -/
theorem cmdWriteIsOneTransaction : Obligations.CmdWriteIsOneTransaction := by
  intro s cls index value hcfg hq p
  have hexec := exec_cmdWrite_quiet cls index value hcfg hq
  refine ⟨_, hexec, linkLeft_trace .., ?_, ?_, ?_, linkLeft_result .., linkLeft_status .., exec_linkFrame rfl hexec⟩
  · rw [linkLeft_link, foldl_writeEvents_disable]
  · rw [linkLeft_pins, foldl_writeEvents_disable]
    rfl
  · rw [linkLeft_accesses, accessCount_append, accessCount_writeEvents, accessCount_disableTrace]

/-- Settles O40: the clock-out starts after the 27 accesses of the enable and the command byte. -/
theorem cmdReadIsOneTransaction : Obligations.CmdReadIsOneTransaction := by
  intro s cls index hcfg hq p
  have hexec := exec_cmdRead_quiet cls index hcfg hq
  refine ⟨_, readByte cls index s, hexec, linkLeft_trace .., linkLeft_result .., ?_, ?_, ?_, linkLeft_status ..,
    exec_linkFrame rfl hexec, fun i hi hfree => ⟨?_, sampleBit_of_free hfree⟩⟩
  · rw [linkLeft_link, foldl_readEvents_disable]
  · rw [linkLeft_pins, foldl_readEvents_disable]
    rfl
  · rw [linkLeft_accesses, accessCount_append, accessCount_readEvents, accessCount_disableTrace]
  · have hbit := outByte_bit_of_free
      (performAll_free (enableTrace p ++ txTrace p (cmdByte cls .read index)) hfree) hi
    rw [sampleBit_performAll _ hfree, performAll_accesses, performAll_trace, performAll_pulse, accessCount_enable_tx,
      List.append_assoc] at hbit
    exact hbit

/-- Settles O41: both sides end in the state of the same events. -/
theorem cmdOperationIsItsFourLinkOperations : Obligations.CmdOperationIsItsFourLinkOperations := by
  refine fun s cls index hcfg hq => ⟨fun value => ?write, ?read⟩
  case write =>
    exact (exec_cmdWrite_quiet cls index value hcfg hq).trans (execAll_write_quiet cls index value hcfg hq).symm
  case read => exact (exec_cmdRead_quiet cls index hcfg hq).trans (execAll_read_quiet cls index hcfg hq).symm

/-- Settles O60: CMD.WRITE stores the byte and drives L_CE low; CMD.READ then opens a session of its own and samples
it. -/
theorem ramChipReadsBackWhatWasWritten : Obligations.RamChipReadsBackWhatWasWritten := by
  intro s c index value hcfg hdev hlen hce hq
  have hwrite := exec_cmdWrite_quiet .ram index value hcfg (Quiet_mono hq (by omega))
  have hstored := performAll_write_ramchip s.link.pulse.toNat index value hdev hce
  have hcount : accessCount
      (writeEvents s.link.pulse.toNat .ram index value ++ disableTrace s.link.pulse.toNat) = 53 := by
    rw [accessCount_append, accessCount_writeEvents, accessCount_disableTrace]
  have hlow := performAll_lCe_of_disableTrace (writeEvents s.link.pulse.toNat .ram index value) s.link.pulse.toNat s
  generalize writeEvents s.link.pulse.toNat .ram index value ++ disableTrace s.link.pulse.toNat = events
    at hwrite hstored hcount hlow
  set written := linkLeft s events false s.result .ok
  have hdev' : written.env.link = .ramchip { ram := c.ram.set index.toNat value, phase := .idle, bits := [] } := hstored
  have hread := exec_cmdRead_quiet .ram index ((linkLeft_linkCfg ..).trans hcfg : written.link.cfg = true)
    (Quiet_linkLeft s events false s.result .ok (by rwa [hcount]))
  have hbyte : readByte .ram index written = value :=
    readByte_of_ramchip hdev' hlow (List.getElem?_set_self (by omega))
  obtain ⟨c', hleft, hram⟩ := performAll_read_ramchip written.link.pulse.toNat index value hdev' hlow
  rw [hbyte] at hread
  refine ⟨_, c', (execAll_cons_of_next hwrite).trans (execAll_singleton_of_next hread), linkLeft_result ..,
    linkLeft_err .., ?_, hram⟩
  rw [linkLeft_env]
  exact hleft

end Sys2Proof.Machine
end
